-- ==== Sys2Proof/Word.lean ====
section
/-! DEFINITION. The word types: every value of this hardware is at most one byte wide (20_memory.md R40). -/

namespace Sys2Proof

/-- One byte, bit 0 the least significant (00_scope.md section 6). -/
abbrev Byte := BitVec 8

/-- A 7-bit bus address (10_state.md R11). -/
abbrev BusAddr := BitVec 7

/-- A 12-bit host request word (30_encoding.md R59). -/
abbrev Request := BitVec 12

/-- A memory: cells in strictly rising order of address (`Memory.wf`); an address that is not listed
has no value. The framebuffer and the controller RAM are both of this type. -/
abbrev Memory := List Host.Cell

end Sys2Proof
end

