-- ==== Sys2Proof/Config.lean ====
section
/-! DEFINITION. What is fixed for the machine: the constants of 00_scope.md R4, and the free values: constants with
no body, which stand for what the spec leaves open. Nothing can be proved of a free value but what holds of every value. -/

namespace Sys2Proof

/-- The answer of the Transport to `open_transaction` and `write_byte` (40_encoder_framing.md R70). -/
inductive Result where
  | ok
  | fail
deriving DecidableEq, Repr, Inhabited

/-- What the pseudocode hands to `trace(e)`, one constructor per marked call (45_config_debug.md R121). -/
inductive Notice where
  | init
  | power (on : Bool)
  | contrast (v : Byte)
  | polarity (inv : Bool)
  | fill (p : Byte)
  | sync
deriving DecidableEq, Repr

namespace Config

/-- Highest column index (R4, MAX_COLUMN). -/
def maxColumn : Nat := 131

/-- Highest page index (R4, MAX_PAGE). -/
def maxPage : Nat := 7

/-- Columns per page and bytes per data frame (R4, COLS). -/
def cols : Nat := 132

/-- Pages, and iterations of SYNC (R4, PAGES). -/
def pages : Nat := 8

/-- Length of the framebuffer in bytes (R4, FB_SIZE). -/
def fbSize : Nat := 1056

/-- The hardware offset ORed into the lower column address by INIT only (R4, COL_OFFSET). -/
def colOffset : BitVec 4 := 2

/-- The contrast value INIT sends (R4, INIT_CONTRAST). -/
def initContrast : Byte := 0x7F

/-- Visible panel width in pixels (R4); no rule of the block uses it. -/
def visibleCols : Nat := 128

/-- Visible panel height in pixels (R4). -/
def visibleRows : Nat := 64

/-- Frames of one SYNC (R4, FRAMES_PER_SYNC). -/
def framesPerSync : Nat := 16

/-- The free value of the answer to the n-th Transport call (`transport_result`, R5, R71). Log entry 2. -/
opaque transportResult : Nat → Result

/-- The free text of a debug notice (`trace_format`, R5, R121). Log entry 18. -/
opaque traceText : Notice → String

/-- The RAM column that the panel shows at its visible column (`visible_window`, R5, R35, U16, D11): any of the COLS = 132
columns, for each of the VISIBLE_COLS = 128. No rule of the block uses it. Log entry 24. -/
opaque visibleWindow : Fin 128 → Fin 132

/-- The free value of a byte of CRAM that nothing has written since power-on (R23, R173, U5). Log entry 7. -/
opaque powerOnByte : Nat → Byte

/-- The free value of a framebuffer byte that holds no value (R13, R23). Log entry 6. -/
opaque unwrittenByte : Nat → Byte

/-- The free value of CCOL after a completed INIT, by the number of calls made (R148, U4). Log entry 10. -/
opaque initColumn : Nat → Byte

/-- The free values of CRAM after a data byte met CCOL > 131 (`cram_overflow`, R38, U1). Log entry 11. -/
opaque overflowByte : Nat → Nat → Byte

/-- The free value of CCOL after a data byte met CCOL > 131 (`cram_overflow`, R38, U1). Log entry 11. -/
opaque overflowColumn : Nat → Byte

/-- The free values of CRAM after a failed frame (R116, U2, U3). Log entry 12. -/
opaque lostByte : Nat → Nat → Byte

/-- The free value of CPAGE after a failed frame (R163, U2, U3). Log entry 12. -/
opaque lostPage : Nat → BitVec 3

/-- The free value of CCOL after a failed frame (R163, U2, U3). Log entry 12. -/
opaque lostColumn : Nat → Byte

end Config

end Sys2Proof
end

