-- ==== Sys2Proof/Syntax.lean ====
section
/-! DEFINITION. The instructions: one constructor per row of spec/opcode_table.json, in the table's order. Layer H is
what the host asks for, layer F the two frame primitives, layer C the bytes of a frame (30_encoding.md R50). -/

namespace Sys2Proof

/-- The two kinds of stream a control byte announces (30_encoding.md R53). -/
inductive StreamKind where
  | command
  | data
deriving DecidableEq, Repr

/-- One row of the opcode table with its operands. -/
inductive Instr where
  /-- INIT a (R85). -/
  | init (a : BusAddr)
  /-- SET_POWER on or off (R95). -/
  | setPower (on : Bool)
  /-- SET_CONTRAST v (R96). -/
  | setContrast (v : Byte)
  /-- SET_POLARITY normal or inverted (R97). -/
  | setPolarity (inv : Bool)
  /-- FILL p (R105). -/
  | fill (p : Byte)
  /-- SYNC (R110). -/
  | sync
  /-- SET_DEBUG on or off (R120). -/
  | setDebug (en : Bool)
  /-- CLEAR, the pseudo-operation FILL 0x00 (R106); its word decodes as FILL (log entry 23). -/
  | clear
  /-- SEND_CMD_STREAM (R72): a command frame with the address its header carries and its payload. -/
  | sendCmdStream (a : BusAddr) (payload : List Byte)
  /-- SEND_DATA_STREAM (R73): a data frame with the address its header carries and its payload. -/
  | sendDataStream (a : BusAddr) (payload : List Byte)
  /-- The address byte, written byte 0 of a frame (R146). -/
  | address (a : BusAddr)
  /-- The control byte 0x00, written byte 1 of a command frame (R125). -/
  | controlCmdStream
  /-- The control byte 0x40, written byte 1 of a data frame (R126). -/
  | controlDataStream
  /-- A payload byte of a data frame (R147). -/
  | data (d : Byte)
  /-- 0xAE (R127). -/
  | displayOff
  /-- 0xAF (R128). -/
  | displayOn
  /-- 0x00 | n, the low nibble of the column (R129). -/
  | columnLower4 (n : BitVec 4)
  /-- 0x10 | n, the high nibble of the column (R130). -/
  | columnUpper4 (n : BitVec 4)
  /-- 0xB0 | p, the page (R131). -/
  | pageAddress (p : BitVec 3)
  /-- 0xC0 (R132). -/
  | commonScanDirection
  /-- 0x40 in the payload of a command frame (R133). -/
  | displayStartLine
  /-- 0xA0 | r (R135). -/
  | segmentRemap (r : BitVec 1)
  /-- 0xA6 (R136). -/
  | displayNormal
  /-- 0xA7 (R137). -/
  | displayReversed
  /-- 0xA4 (R139). -/
  | entireDisplayOn
  /-- 0x81 and its data byte (R134). -/
  | contrastMode (d : Byte)
  /-- 0xA8 and its data byte (R138). -/
  | multiplexRatio (d : Byte)
  /-- 0xD3 and its data byte (R140). -/
  | displayOffset (d : Byte)
  /-- 0xD5 and its data byte (R141). -/
  | oscillatorFreq (d : Byte)
  /-- 0xD9 and its data byte (R142). -/
  | prechargeDischarge (d : Byte)
  /-- 0xDA and its data byte (R143). -/
  | commonPadsConfig (d : Byte)
  /-- 0xDB and its data byte (R144). -/
  | commonPadsVoltage (d : Byte)
  /-- 0x8D and its data byte (R145). -/
  | chargePump (d : Byte)
deriving DecidableEq, Repr

/-- The core instruction a row is another name for: CLEAR is FILL 0x00 (R64, R106), every other row itself. -/
def Instr.core : Instr → Instr
  | .clear => .fill 0x00
  | i => i

end Sys2Proof
end

