-- ==== Sys2Proof/WellFormed.lean ====
section
/-! DEFINITION. Which instructions are well-formed. The operand types carry every width of 30_encoding.md; what is left
to check is the length of a frame. -/

namespace Sys2Proof

/-- The most payload bytes a frame can have: SEQ's k never exceeds 135, so a frame has at most 134 written
bytes, two of them its header (10_state.md R16). DEDUCED, log entry 20. -/
def maxPayload : Nat := 132

/-- A frame's payload fits the sequencer's position; every other instruction is well-formed as its operand
types have it. -/
def WellFormed : Instr → Bool
  | .sendCmdStream _ payload => payload.length ≤ maxPayload
  | .sendDataStream _ payload => payload.length ≤ maxPayload
  | .init _ | .setPower _ | .setContrast _ | .setPolarity _ | .fill _ | .sync | .setDebug _ | .clear => true
  | .address _ | .controlCmdStream | .controlDataStream | .data _ => true
  | .displayOff | .displayOn | .columnLower4 _ | .columnUpper4 _ | .pageAddress _ | .commonScanDirection => true
  | .displayStartLine | .segmentRemap _ | .displayNormal | .displayReversed | .entireDisplayOn => true
  | .contrastMode _ | .multiplexRatio _ | .displayOffset _ | .oscillatorFreq _ | .prechargeDischarge _ => true
  | .commonPadsConfig _ | .commonPadsVoltage _ | .chargePump _ => true

end Sys2Proof
end

