-- ==== Sys2Proof/Decode.lean ====
section
/-! DEFINITION. Decoding and encoding, layer by layer (30_encoding.md). A byte is recognised by its position in a frame
(R56), so what is decoded is a `Code`: the bits together with the position they stand in. -/

namespace Sys2Proof

/-- Bits with their position: a host request word, the written bytes of a whole frame, written byte 0,
written byte 1, a payload byte of a data frame, or the bytes of one command of a command frame (R51, R54). -/
inductive Code where
  | request (w : Request)
  | frame (written : List Byte)
  | addressByte (b : Byte)
  | controlByte (b : Byte)
  | pixelByte (b : Byte)
  | command (bytes : List Byte)
deriving DecidableEq, Repr

/-- Why a code stands for no instruction. -/
inductive Reject where
  /-- A request word that matches no row of R59 (R61). -/
  | reservedRequest
  /-- Fewer than the two header bytes of R51. -/
  | truncatedFrame
  /-- An address byte whose bit 0 is set; the block only writes (R52). -/
  | writeBitSet
  /-- A control byte other than 0x00 and 0x40 (R53). -/
  | unknownControlByte
  /-- A command byte outside the vocabulary of R56 (R62, U11). -/
  | unknownCommand
  /-- No byte, or a two-byte command without its data byte (R57). -/
  | truncatedCommand
  /-- More bytes than the one command has (R54). -/
  | trailingBytes
deriving DecidableEq, Repr

/-! ### The bytes of layers F and C -/

/-- The address byte: the bus address shifted left by one, the write bit cleared (R52). -/
def addressByte (a : BusAddr) : Byte := ((a.zeroExtend 8) <<< 1) &&& 0xFE

/-- The control byte of a stream kind (R53). -/
def StreamKind.controlByte : StreamKind → Byte
  | .command => 0x00
  | .data => 0x40

/-- `base | value` of COLUMN_LOWER_4 (R55, R129). -/
def columnLower4Byte (n : BitVec 4) : Byte := 0x00 ||| n.zeroExtend 8

/-- `base | value` of COLUMN_UPPER_4 (R55, R130). -/
def columnUpper4Byte (n : BitVec 4) : Byte := 0x10 ||| n.zeroExtend 8

/-- `base | value` of PAGE_ADDRESS (R55, R131). -/
def pageAddressByte (p : BitVec 3) : Byte := 0xB0 ||| p.zeroExtend 8

/-- `base | value` of SEGMENT_REMAP (R55, R135). -/
def segmentRemapByte (r : BitVec 1) : Byte := 0xA0 ||| r.zeroExtend 8

/-! ### Layer H: the host request word -/

/-- `op = req[11:8]` (R59). -/
def requestOp (w : Request) : BitVec 4 := w.extractLsb' 8 4

/-- `arg = req[7:0]` (R59). -/
def requestArg (w : Request) : Byte := w.extractLsb' 0 8

/-- An argument that is one bit wide: `arg[7:1]` must be 0 (R61), `arg[0]` is the operand (R60). -/
def oneBitArg (arg : Byte) : Except Reject Bool :=
  if arg.extractLsb' 1 7 = 0 then .ok (arg.getLsbD 0) else .error .reservedRequest

/-- The request decoder (R59 to R61): total, reserved words rejected by name. -/
def decodeRequest (w : Request) : Except Reject Instr :=
  if requestOp w = 0x0 then
    if (requestArg w).getLsbD 7 then .error .reservedRequest else .ok (.init ((requestArg w).extractLsb' 0 7))
  else if requestOp w = 0x1 then (oneBitArg (requestArg w)).map .setPower
  else if requestOp w = 0x2 then .ok (.setContrast (requestArg w))
  else if requestOp w = 0x3 then (oneBitArg (requestArg w)).map .setPolarity
  else if requestOp w = 0x4 then .ok (.fill (requestArg w))
  else if requestOp w = 0x5 then
    if requestArg w = 0 then .ok .sync else .error .reservedRequest
  else if requestOp w = 0x6 then (oneBitArg (requestArg w)).map .setDebug
  else .error .reservedRequest

/-! ### Layer C: command bytes -/

/-- The eight bytes that start a two-byte command (R57). -/
def isTwoByteOpener (b : Byte) : Bool :=
  b == 0x81 || b == 0x8D || b == 0xA8 || b == 0xD3 || b == 0xD5 || b == 0xD9 || b == 0xDA || b == 0xDB

/-- A two-byte command from its opener and its data byte (R54, R56). -/
def decodeTwoByte (b d : Byte) : Option Instr :=
  if b = 0x81 then some (.contrastMode d)
  else if b = 0xA8 then some (.multiplexRatio d)
  else if b = 0xD3 then some (.displayOffset d)
  else if b = 0xD5 then some (.oscillatorFreq d)
  else if b = 0xD9 then some (.prechargeDischarge d)
  else if b = 0xDA then some (.commonPadsConfig d)
  else if b = 0xDB then some (.commonPadsVoltage d)
  else if b = 0x8D then some (.chargePump d)
  else none

/-- A one-byte command (R54, R56): the byte masked as its row of the table masks it. -/
def decodeOneByte (b : Byte) : Option Instr :=
  if b &&& 0xF0 = 0x00 then some (.columnLower4 (b.extractLsb' 0 4))
  else if b &&& 0xF0 = 0x10 then some (.columnUpper4 (b.extractLsb' 0 4))
  else if b &&& 0xF8 = 0xB0 then some (.pageAddress (b.extractLsb' 0 3))
  else if b &&& 0xFE = 0xA0 then some (.segmentRemap (b.extractLsb' 0 1))
  else if b = 0xC0 then some .commonScanDirection
  else if b = 0x40 then some .displayStartLine
  else if b = 0xA4 then some .entireDisplayOn
  else if b = 0xA6 then some .displayNormal
  else if b = 0xA7 then some .displayReversed
  else if b = 0xAE then some .displayOff
  else if b = 0xAF then some .displayOn
  else none

/-- The first command of a payload and the bytes after it, by the length rule R57. -/
def decodeCommand : List Byte → Except Reject (Instr × List Byte)
  | [] => .error .truncatedCommand
  | b :: rest =>
    if isTwoByteOpener b then
      match rest with
      | [] => .error .truncatedCommand
      | d :: rest' =>
        match decodeTwoByte b d with
        | some i => .ok (i, rest')
        | none => .error .unknownCommand
    else
      match decodeOneByte b with
      | some i => .ok (i, rest)
      | none => .error .unknownCommand

/-- The whole payload of a command frame, parsed left to right (R57). -/
def decodeCommands : List Byte → Except Reject (List Instr)
  | [] => .ok []
  | [b] => (decodeCommand [b]).map fun r => [r.1]
  | b :: d :: rest =>
    if isTwoByteOpener b then
      match decodeTwoByte b d with
      | some i => (decodeCommands rest).map (i :: ·)
      | none => .error .unknownCommand
    else
      match decodeOneByte b with
      | some i => (decodeCommands (d :: rest)).map (i :: ·)
      | none => .error .unknownCommand

/-! ### Layer F: frames, and the decoder -/

/-- The bus address of an address byte, whose write bit must be clear (R52). -/
def decodeAddressByte (b : Byte) : Except Reject BusAddr :=
  if b.getLsbD 0 then .error .writeBitSet else .ok (b.extractLsb' 1 7)

/-- The stream kind a control byte announces (R53). -/
def decodeControlByte (b : Byte) : Except Reject StreamKind :=
  if b = 0x00 then .ok .command else if b = 0x40 then .ok .data else .error .unknownControlByte

/-- The frame primitive that writes these bytes (R51, R72, R73). -/
def frameInstr (kind : StreamKind) (a : BusAddr) (payload : List Byte) : Instr :=
  match kind with
  | .command => .sendCmdStream a payload
  | .data => .sendDataStream a payload

/-- A frame from its written bytes (R51). -/
def decodeFrame : List Byte → Except Reject Instr
  | b :: c :: payload =>
    match decodeAddressByte b with
    | .error e => .error e
    | .ok a =>
      match decodeControlByte c with
      | .error e => .error e
      | .ok kind => .ok (frameInstr kind a payload)
  | _ => .error .truncatedFrame

/-- The decoder: total on every code, rejecting by name. -/
def decode : Code → Except Reject Instr
  | .request w => decodeRequest w
  | .frame written => decodeFrame written
  | .addressByte b => (decodeAddressByte b).map .address
  | .controlByte b =>
    (decodeControlByte b).map fun
      | .command => .controlCmdStream
      | .data => .controlDataStream
  | .pixelByte b => .ok (.data b)
  | .command bytes =>
    match decodeCommand bytes with
    | .ok (i, []) => .ok i
    | .ok (_, _ :: _) => .error .trailingBytes
    | .error e => .error e

/-! ### The encoder, from the same tables -/

/-- A request word from its two fields (R59). -/
def requestWord (op : BitVec 4) (arg : Byte) : Request := op ++ arg

/-- A one-bit operand as an argument byte (R59, R60). -/
def bitArg (x : Bool) : Byte := if x then 1 else 0

/-- The code of every instruction (R51 to R60); CLEAR has FILL's word 0x400 (R64). -/
def encode : Instr → Code
  | .init a => .request (requestWord 0x0 (a.zeroExtend 8))
  | .setPower on => .request (requestWord 0x1 (bitArg on))
  | .setContrast v => .request (requestWord 0x2 v)
  | .setPolarity inv => .request (requestWord 0x3 (bitArg inv))
  | .fill p => .request (requestWord 0x4 p)
  | .sync => .request (requestWord 0x5 0x00)
  | .setDebug en => .request (requestWord 0x6 (bitArg en))
  | .clear => .request 0x400
  | .sendCmdStream a payload => .frame (addressByte a :: 0x00 :: payload)
  | .sendDataStream a payload => .frame (addressByte a :: 0x40 :: payload)
  | .address a => .addressByte (addressByte a)
  | .controlCmdStream => .controlByte 0x00
  | .controlDataStream => .controlByte 0x40
  | .data d => .pixelByte d
  | .displayOff => .command [0xAE]
  | .displayOn => .command [0xAF]
  | .columnLower4 n => .command [columnLower4Byte n]
  | .columnUpper4 n => .command [columnUpper4Byte n]
  | .pageAddress p => .command [pageAddressByte p]
  | .commonScanDirection => .command [0xC0]
  | .displayStartLine => .command [0x40]
  | .segmentRemap r => .command [segmentRemapByte r]
  | .displayNormal => .command [0xA6]
  | .displayReversed => .command [0xA7]
  | .entireDisplayOn => .command [0xA4]
  | .contrastMode d => .command [0x81, d]
  | .multiplexRatio d => .command [0xA8, d]
  | .displayOffset d => .command [0xD3, d]
  | .oscillatorFreq d => .command [0xD5, d]
  | .prechargeDischarge d => .command [0xD9, d]
  | .commonPadsConfig d => .command [0xDA, d]
  | .commonPadsVoltage d => .command [0xDB, d]
  | .chargePump d => .command [0x8D, d]

/-- The bytes of a command instruction, for laying out a payload; empty for any other instruction. -/
def commandBytes (i : Instr) : List Byte :=
  match encode i with
  | .command bytes => bytes
  | _ => []

/-! ### Bare table words

A word of the opcode table carries no position, and the table's layers overlap (0x00 alone is a control byte, an
address byte, a pixel byte and a command byte). Which row a bare word is read as is fixed here. DESIGN CHOICE, log entry 19. -/

/-- What the decoder rejects is no instruction. -/
def accepted (r : Except Reject Instr) : Option Instr :=
  match r with
  | .ok i => some i
  | .error _ => none

/-- A bare byte: a control byte first, then a command byte, then an address byte, then a pixel byte. -/
def decodeTableByte (b : Byte) : Option Instr :=
  match accepted (decode (.controlByte b)) with
  | some i => some i
  | none =>
    match accepted (decode (.command [b])) with
    | some i => some i
    | none =>
      match accepted (decode (.addressByte b)) with
      | some i => some i
      | none => some (.data b)

/-- A bare 16-bit word, first byte in bits 15 to 8: a two-byte command first, then the one header word that is
the match word of no other row (0x0040), then a host request, then a frame header with no payload. -/
def decodeTableWord16 (w : BitVec 16) : Option Instr :=
  let hi := w.extractLsb' 8 8
  let lo := w.extractLsb' 0 8
  if isTwoByteOpener hi then accepted (decode (.command [hi, lo]))
  else if w = 0x0040 then accepted (decode (.frame [hi, lo]))
  else if w.extractLsb' 12 4 = 0 then
    match accepted (decode (.request (w.extractLsb' 0 12))) with
    | some i => some i
    | none => accepted (decode (.frame [hi, lo]))
  else accepted (decode (.frame [hi, lo]))

/-- The instruction the decoder reads from a word numbered as spec/opcode_table.json numbers it. -/
def decodeTableWord (nbits w : Nat) : Option Instr :=
  if nbits = 8 then decodeTableByte (BitVec.ofNat 8 w)
  else if nbits = 12 then accepted (decode (.request (BitVec.ofNat 12 w)))
  else if nbits = 16 then decodeTableWord16 (BitVec.ofNat 16 w)
  else none

end Sys2Proof
end

