-- ==== Sys2Proof/Machine/State.lean ====
section
/-! DEFINITION. The state of the machine, its reasons to stop, and the state after reset (10_state.md). State is plain
data: block state, environment logs, the controller as the spec describes it, and the environment's inputs. -/

namespace Sys2Proof.Machine

/-- MODE (R10, R166). -/
inductive Mode where
  | uninitialized
  | ready
deriving DecidableEq, Repr

/-- The three responses (R155). -/
inductive Response where
  | ok
  | configurationError
  | transportError
deriving DecidableEq, Repr

/-- One event of TRACE (R20). -/
inductive Event where
  /-- `Open(r)`. -/
  | opened (r : Result)
  /-- `Write(b, r)`. -/
  | wrote (b : Byte) (r : Result)
  /-- `Close`. -/
  | closed
deriving DecidableEq, Repr

/-- The operation SEQ names, with its operand ARG (R16, R17): the five that make transport calls, and a frame
primitive run on its own (R72, R73; log entry 13). FILL and SET_DEBUG make no call and do not use SEQ (R16). -/
inductive BusOp where
  | init (a : BusAddr)
  | setPower (on : Bool)
  | setContrast (v : Byte)
  | setPolarity (inv : Bool)
  | sync
  | stream (kind : StreamKind) (payload : List Byte)
deriving DecidableEq, Repr

/-- SEQ (R16): `Idle`, or the running operation, the index f of its current frame and the position k in it.
k = 0 is about to open, k = 1 + j about to write byte j, and past the last byte about to close. -/
inductive Sequencer where
  | idle
  | running (op : BusOp) (f k : Nat)
deriving DecidableEq, Repr

/-- The controller's place in a frame, which says what it takes the next byte for: the address byte (or no frame is
open), the control byte, a command byte, the data byte of a two-byte command, or a pixel byte (R51, R53, R57). DEDUCED,
log entry 9. -/
inductive Rx where
  | off
  | header
  | command
  | operand
  | data
deriving DecidableEq, Repr

/-- The controller behind the Transport as far as the spec describes it (R21). -/
structure Controller where
  /-- CRAM; the byte of page pg and column col is at pg*132 + col. An unlisted byte is the free value of
  `Controller.cramRead` (R23, U5; log entry 7). -/
  cram : Memory
  /-- CPAGE, the page register. -/
  cpage : BitVec 3
  /-- CCOL, the column cursor. -/
  ccol : Byte
  /-- The place in the frame. -/
  rx : Rx
deriving DecidableEq, Repr

/-- What the host presents: a request word (R59), or a single framebuffer byte through the optional external
write port (R107), whose index has the 11 bits of R30. -/
inductive Input where
  | request (w : Request)
  | fbWrite (i : BitVec 11) (b : Byte)
deriving DecidableEq, Repr

/-- The whole state. -/
structure State where
  /-- MODE (R10). -/
  mode : Mode
  /-- BUS_ADDR (R11). -/
  busAddr : BusAddr
  /-- DEBUG_EN (R12). -/
  debugEn : Bool
  /-- FB (R13); an unlisted byte has no value (R23, log entry 6). -/
  fb : Memory
  /-- TXN_OPEN (R15). -/
  txnOpen : Bool
  /-- SEQ, with ARG and the counters of R17. -/
  seq : Sequencer
  /-- TRACE (R20), oldest first. -/
  trace : List Event
  /-- DBG (R22), oldest first; each entry is the opaque text of a notice. -/
  dbg : List String
  /-- The responses returned so far, oldest first (R18). -/
  responses : List Response
  /-- The controller (R21). -/
  ctl : Controller
  /-- The host's remaining inputs, the next one first (R189; log entry 15). -/
  requests : List Input
  /-- The Transport's next results, as far as they are named; then `Config.transportResult` (R71; log entry 2). -/
  draws : List Result
  /-- The number of Transport calls that returned a result: the index of the free values. The model's own field. -/
  calls : Nat
  /-- Whether the external framebuffer write port is fitted (`fb_external_write`, R5; log entry 16). -/
  fbWritePort : Bool
deriving DecidableEq, Repr

/-- Reasons the machine stops with a fault: a byte or a frame in a position the spec gives no meaning. None is reached
from a state that satisfies the invariant of Safety.lean; each is safe (the machine stops, nothing is claimed past it). -/
inductive Fault where
  /-- A byte of a frame while TXN_OPEN = 0; raised by every byte instruction. Safe. -/
  | noOpenTransaction
  /-- A byte in a place of the frame that is not its own: an address byte that is not written byte 0, a control byte that
  is not written byte 1, a command byte in a data stream, a pixel byte in a command stream (R44, R51); raised by every
  byte instruction. Safe. -/
  | wrongPosition
  /-- A frame while TXN_OPEN = 1: frames never nest (R79); raised by the two frame primitives. Safe. -/
  | frameInsideFrame
  /-- An address byte other than BUS_ADDR's (R47, R62); raised by ADDRESS and the two frame primitives. Safe. -/
  | foreignAddress
  /-- SEQ points at a frame its operation does not have (R16); raised by the step. Safe. -/
  | sequencerOutOfScript
deriving DecidableEq, Repr

/-- The situations the spec gives no meaning (R173); each is safe. -/
inductive Refusal where
  /-- An instruction without a meaning in this model; raised by `exec` alone. Safe. -/
  | notModelled (mnemonic : String)
  /-- A request while SEQ is not Idle (R46, R182); raised by every host operation. Safe. -/
  | requestWhileBusy
  /-- INIT in Ready with an address other than BUS_ADDR (R89); raised by INIT. Safe. -/
  | addressImmutable
  /-- A reserved request word (R61); raised by the step. Safe. -/
  | reservedRequest
  /-- A single framebuffer write where the external port is not fitted (R107, D18); raised by the step. Safe. -/
  | noWritePort
  /-- A single framebuffer write with index above 1055 (R107); raised by the step. Safe. -/
  | fbIndexOutOfRange
deriving DecidableEq, Repr

/-- The controller as the block leaves reset: the spec calls all of it unspecified (R23, R177). CRAM lists nothing;
CPAGE and CCOL are 0 and the place in the frame is `off` by DESIGN CHOICE (log entries 7, 8, 9). -/
def Controller.reset : Controller :=
  { cram := [], cpage := 0, ccol := 0, rx := .off }

/-- The state after reset (R23, R175). BUS_ADDR = 0 is a DESIGN CHOICE (log entry 4); so are the environment's
fields `requests`, `draws`, `calls`, `fbWritePort` (log entries 2, 15, 16). -/
def State.reset : State :=
  { mode := .uninitialized
    busAddr := 0
    debugEn := false
    fb := []
    txnOpen := false
    seq := .idle
    trace := []
    dbg := []
    responses := []
    ctl := Controller.reset
    requests := []
    draws := []
    calls := 0
    fbWritePort := false }

end Sys2Proof.Machine
end

