-- ==== Sys2Proof/Machine/Flags.lean ====
section
/-! DEFINITION. The status the block keeps and returns: what MODE admits (60_exceptions.md R156, R166), and the response
codes (R155). -/

namespace Sys2Proof.Machine

/-- The numeric code of a response (R155). -/
def Response.code : Response → Nat
  | .ok => 0
  | .configurationError => 1
  | .transportError => 2

/-- Whether MODE is Ready, the check of R156. -/
def State.isReady (s : State) : Bool := s.mode = .ready

/-- Whether INIT a has a meaning: in Ready only with the address already bound (R89). -/
def State.admitsInit (a : BusAddr) (s : State) : Bool := s.mode = .uninitialized || a = s.busAddr

/-- Whether the block can take a request: SEQ is Idle (R46). -/
def State.isIdle (s : State) : Bool := s.seq = .idle

end Sys2Proof.Machine
end

