-- ==== Sys2Proof/Machine/Operands.lean ====
section
/-! DEFINITION. Every operand form of the spec: the framebuffer index and its inverses (20_memory.md R31), the pixel
order (R32), and the payloads the operations send (41_init.md R86, 42_controls.md, 44_sync.md R111). The bytes of a
frame and of a command are in Decode.lean. -/

namespace Sys2Proof.Machine

/-- `index(pg, col) = pg * 132 + col` (R31). -/
def index (pg col : Nat) : Nat := pg * Config.cols + col

/-- `page(i) = i div 132` (R31). -/
def pageOf (i : Nat) : Nat := i / Config.cols

/-- `column(i) = i mod 132` (R31). -/
def columnOf (i : Nat) : Nat := i % Config.cols

/-- The RAM row of bit n of a byte in page pg, bit 0 topmost (R32). -/
def pixelRow (pg n : Nat) : Nat := pg * 8 + n

/-- The column the two column commands select: `(upper_value << 4) | lower_value` (R55). -/
def columnOfNibbles (upper lower : BitVec 4) : Byte := (upper.zeroExtend 8 <<< 4) ||| lower.zeroExtend 8

/-- INIT_PAYLOAD, the 28 bytes in the order of R86. -/
def initPayload : List Byte :=
  [0xAE, columnLower4Byte Config.colOffset, columnUpper4Byte 0, pageAddressByte 0, 0xC0, 0x00, 0x10, 0x40, 0x81,
   Config.initContrast, segmentRemapByte 1, 0xA6, 0xA8, 0x3F, 0xA4, 0xD3, 0x00, 0xD5, 0xF0, 0xD9, 0x22, 0xDA, 0x12, 0xDB, 0x20,
   0x8D, 0x14, 0xAF]

/-- The payload of SET_POWER (R95). -/
def powerPayload (on : Bool) : List Byte := [if on then 0xAF else 0xAE]

/-- The payload of SET_CONTRAST: the command and the raw value (R96). -/
def contrastPayload (v : Byte) : List Byte := [0x81, v]

/-- The payload of SET_POLARITY (R97). -/
def polarityPayload (inv : Bool) : List Byte := [if inv then 0xA7 else 0xA6]

/-- The payload of the address frame of page pg: column nibbles 0 and 0, then the page (R111). -/
def addressPayload (pg : Nat) : List Byte := [0x00 ||| 0, 0x10 ||| 0, pageAddressByte (BitVec.ofNat 3 pg)]

/-- The written bytes of a frame: address byte, control byte, payload (R51). -/
def frameBytes (a : BusAddr) (kind : StreamKind) (payload : List Byte) : List Byte :=
  addressByte a :: kind.controlByte :: payload

end Sys2Proof.Machine
end

