-- ==== Sys2Proof/Machine/Ops.lean ====
section
/-! DEFINITION. The named operations the meanings share: memory, the controller's reaction to a byte, the three
Transport calls with the sequencer position, raising an error (60_exceptions.md R162), the frame procedure
(40_encoder_framing.md R74) and the operations' common shape. -/

namespace Sys2Proof

/-! ### Memory -/

/-- The byte at an address, or no value. -/
def Memory.read : Memory → Nat → Option Byte
  | [], _ => none
  | c :: m, i => if c.1 = i then some c.2 else Memory.read m i

/-- `MemWrite`: the byte at one address, kept in rising order. -/
def Memory.write : Memory → Nat → Byte → Memory
  | [], i, b => [(i, b)]
  | c :: m, i, b =>
    if i < c.1 then (i, b) :: c :: m else if i = c.1 then (i, b) :: m else c :: Memory.write m i b

/-- All 1056 bytes at once, byte i being `f i`. -/
def Memory.tabulate (f : Nat → Byte) : Memory := (List.range Config.fbSize).map fun i => (i, f i)

/-- The canonical form: addresses strictly rising and inside the 1056 that exist (R14, R34). -/
def Memory.wf (m : Memory) : Bool :=
  decide (m.Pairwise fun c d => c.1 < d.1) && m.all fun c => decide (c.1 < Config.fbSize)

end Sys2Proof

namespace Sys2Proof.Machine

/-- `MemRead(FB, i, 1)`. A byte that holds no value reads as a free value (R13, R23; log entry 6). -/
def fbRead (fb : Memory) (i : Nat) : Byte := (fb.read i).getD (Config.unwrittenByte i)

/-- The 132 bytes of framebuffer page pg in ascending column order (R112). -/
def pageBytes (fb : Memory) (pg : Nat) : List Byte :=
  (List.range Config.cols).map fun col => fbRead fb (index pg col)

/-! ### The controller (environment) -/

/-- `CRAM[pg][col]` (R21). A byte that nothing has written since power-on is a free value (R23, R173, U5; log entry 7). -/
def Controller.cramRead (c : Controller) (pg col : Nat) : Byte :=
  (c.cram.read (index pg col)).getD (Config.powerOnByte (index pg col))

/-- A data byte past column 131: CRAM and CCOL take free values, CPAGE stays (R38, U1; log entry 11). -/
def Controller.overflow (n : Nat) (c : Controller) : Controller :=
  { c with cram := Memory.tabulate (Config.overflowByte n), ccol := Config.overflowColumn n }

/-- A pixel byte, delivered by Transport call n (R37, R147). -/
def Controller.takePixel (n : Nat) (d : Byte) (c : Controller) : Controller :=
  if c.ccol.toNat ≤ Config.maxColumn then
    { c with cram := c.cram.write (index c.cpage.toNat c.ccol.toNat) d, ccol := c.ccol + 1 }
  else c.overflow n

/-- What a command does to the controller: the three addressing commands move the cursor (R129 to R131), every
other command is opaque and changes nothing (R148). COMMON_SCAN_DIRECTION is one byte long, so 0x00 and 0x10 after it are
the two column commands (R65), whatever frame carries the three bytes; that CCOL is 0x00 right after them, and not
left open as V56 and R148 leave it, is a DESIGN CHOICE (log entry 10). INIT leaves CCOL open when it completes. -/
def Controller.obey (i : Instr) (c : Controller) : Controller :=
  match i with
  | .columnLower4 n => { c with ccol := (c.ccol &&& 0xF0) ||| n.zeroExtend 8 }
  | .columnUpper4 n => { c with ccol := (n.zeroExtend 8 <<< 4) ||| (c.ccol &&& 0x0F) }
  | .pageAddress p => { c with cpage := p }
  | .commonScanDirection | .displayStartLine | .segmentRemap _ | .displayNormal | .displayReversed
  | .entireDisplayOn | .displayOff | .displayOn => c
  | .contrastMode _ | .multiplexRatio _ | .displayOffset _ | .oscillatorFreq _ | .prechargeDischarge _
  | .commonPadsConfig _ | .commonPadsVoltage _ | .chargePump _ => c
  | .init _ | .setPower _ | .setContrast _ | .setPolarity _ | .fill _ | .sync | .setDebug _ | .clear
  | .sendCmdStream _ _ | .sendDataStream _ _ | .address _ | .controlCmdStream | .controlDataStream | .data _ => c

/-- A command byte: the opener of a two-byte command makes the next byte its data (R57); a byte outside the
vocabulary changes nothing (R37, R39; log entry 14). After 0xC0 the bytes 0x00 and 0x10 are taken by the table reading of
R65, so CCOL is 0x00 there: DESIGN CHOICE, log entry 10. -/
def Controller.takeCommand (b : Byte) (c : Controller) : Controller :=
  if isTwoByteOpener b then { c with rx := .operand }
  else
    match decodeOneByte b with
    | some i => c.obey i
    | none => c

/-- A payload byte, taken for what the place in the frame says (R53, R57). Before the control byte there is no payload
byte; those places are not reached. -/
def Controller.takePayload (n : Nat) (b : Byte) (c : Controller) : Controller :=
  match c.rx with
  | .off | .header => c
  | .command => c.takeCommand b
  | .operand => { c with rx := .command }
  | .data => c.takePixel n b

/-- The address byte selects the device (R146) and moves no contents; the control byte comes next (R51). -/
def Controller.takeAddress (c : Controller) : Controller := { c with rx := .header }

/-- The control byte decides how every payload byte up to the close is read (R53). -/
def Controller.takeControl (kind : StreamKind) (c : Controller) : Controller :=
  match kind with
  | .command => { c with rx := .command }
  | .data => { c with rx := .data }

/-- The cursor after a failed command frame is not known (R163, U3; log entry 12). -/
def Controller.loseCursor (n : Nat) (c : Controller) : Controller :=
  { c with cpage := Config.lostPage n, ccol := Config.lostColumn n }

/-- Image and cursor after a failed synchronization or data frame are not known (R116, U2; log entry 12). -/
def Controller.loseAll (n : Nat) (c : Controller) : Controller :=
  { c with cram := Memory.tabulate (Config.lostByte n), cpage := Config.lostPage n, ccol := Config.lostColumn n }

/-! ### Logs, results, and the sequencer position -/

/-- Append an event to TRACE (R20). -/
def State.log (e : Event) (s : State) : State := { s with trace := s.trace ++ [e] }

/-- `trace(e)`: one opaque notice to DBG if DEBUG_EN = 1, nothing otherwise (R121). -/
def State.notify (e : Notice) (s : State) : State :=
  if s.debugEn then { s with dbg := s.dbg ++ [Config.traceText e] } else s

/-- Return a response to the host (R155). -/
def State.respond (r : Response) (s : State) : State := { s with responses := s.responses ++ [r] }

/-- The result the Transport gives the call that is k calls ahead (R71). -/
def State.resultAhead (s : State) (k : Nat) : Result :=
  (s.draws[k]?).getD (Config.transportResult (s.calls + k))

/-- Take the next result: one named result fewer, one call more. -/
def State.drawn (s : State) : State := { s with draws := s.draws.drop 1, calls := s.calls + 1 }

/-- A successful call advances k by one (R16). -/
def Sequencer.nextCall : Sequencer → Sequencer
  | .idle => .idle
  | .running op f k => .running op f (k + 1)

/-- The close advances f by one and sets k to 0 (R16). -/
def Sequencer.nextFrame : Sequencer → Sequencer
  | .idle => .idle
  | .running op f _ => .running op (f + 1) 0

/-- The controller's place in the frame. -/
def State.withRx (rx : Rx) (s : State) : State := { s with ctl := { s.ctl with rx := rx } }

/-! ### Errors -/

/-- `T.close()`: the event, TXN_OPEN cleared, and the controller past the frame (R15, R70). -/
def closeTransaction (s : State) : State := ({ s.log .closed with txnOpen := false }).withRx .off

/-- What the controller holds after a failed SYNC is not known, whichever call failed (R116, U2); an operation other
than SYNC adds nothing here. -/
def loseImageOfSync (s : State) : State :=
  match s.seq with
  | .running .sync _ _ => { s with ctl := s.ctl.loseAll s.calls }
  | .running (.init _) _ _ | .running (.setPower _) _ _ | .running (.setContrast _) _ _
  | .running (.setPolarity _) _ _ | .running (.stream _ _) _ _ | .idle => s

/-- `raise E` (R162), the one operation that takes an error: close the transaction if it is open, SEQ to Idle, return
the response. Nothing else of the block changes, nothing is rolled back (for INIT: log entry 22), and there is no return
from it (R164). -/
def raiseError (e : Response) (s : State) : State :=
  let t := if s.txnOpen then closeTransaction s else s
  { t with seq := .idle }.respond e

/-- Whether the running operation is one of the three controls, whose frames hold opaque commands only. -/
def Sequencer.isControl : Sequencer → Bool
  | .running (.setPower _) _ _ | .running (.setContrast _) _ _ | .running (.setPolarity _) _ _ => true
  | .running (.init _) _ _ | .running .sync _ _ | .running (.stream _ _) _ _ | .idle => false

/-- A byte whose write failed: the controller may have acted on any part of the frame up to and including it (R76,
U3). A data stream leaves image and cursor unknown, a command stream the cursor; the header and the opaque commands
of a control move neither (R148). Log entry 12. -/
def loseFrame (s : State) : State :=
  match s.ctl.rx with
  | .off | .header => s
  | .command | .operand => if s.seq.isControl then s else { s with ctl := s.ctl.loseCursor s.calls }
  | .data => { s with ctl := s.ctl.loseAll s.calls }

/-! ### The Transport calls -/

/-- Where a sequence of calls stands: it goes on, or an error has ended the operation. -/
inductive Flow where
  | go (s : State)
  | stop (s : State)

/-- The state, whichever way the calls went. -/
def Flow.state : Flow → State
  | .go s => s
  | .stop s => s

/-- The next calls, unless an error has ended the operation. -/
def Flow.andThen (x : Flow) (f : State → Flow) : Flow :=
  match x with
  | .go s => f s
  | .stop s => .stop s

/-- The end of an operation: what it does after its last call, unless an error has ended it. -/
def Flow.finish (x : Flow) (f : State → State) : State :=
  match x with
  | .go s => f s
  | .stop s => s

/-- `T.open()` (R70, R74, R75); a call always returns (log entry 3). -/
def transportOpen (s : State) : Flow :=
  let r := s.resultAhead 0
  let t := s.drawn.log (.opened r)
  match r with
  | .ok => .go ({ t with txnOpen := true, seq := t.seq.nextCall }.withRx .off)
  | .fail => .stop (raiseError .transportError (loseImageOfSync t))

/-- `T.write(b)` (R70, R74, R76); a byte whose result is Ok is delivered to the controller, which takes it as `take`
says, `take` being given the number of the call (log entry 5). -/
def transportWrite (b : Byte) (take : Nat → Controller → Controller) (s : State) : Flow :=
  let r := s.resultAhead 0
  let t := s.drawn.log (.wrote b r)
  match r with
  | .ok => .go { t with ctl := take s.calls t.ctl, seq := t.seq.nextCall }
  | .fail => .stop (raiseError .transportError (loseImageOfSync (loseFrame t)))

/-- The address byte of BUS_ADDR (R52). The controller it selects is the one at BUS_ADDR (R47, R169). -/
def writeAddress (s : State) : Flow := transportWrite (addressByte s.busAddr) (fun _ c => c.takeAddress) s

/-- The control byte (R53). -/
def writeControl (kind : StreamKind) (s : State) : Flow :=
  transportWrite kind.controlByte (fun _ c => c.takeControl kind) s

/-- One payload byte. -/
def writePayload (b : Byte) (s : State) : Flow := transportWrite b (fun n c => c.takePayload n b) s

/-- The payload bytes in list order (R42). -/
def writePayloads : List Byte → State → Flow
  | [], s => .go s
  | b :: rest, s => (writePayload b s).andThen (writePayloads rest)

/-- `T.close()` at the end of a frame: SEQ moves to the next frame (R16, R74). -/
def transportClose (s : State) : State :=
  let t := closeTransaction s
  { t with seq := t.seq.nextFrame }

/-- The rest of a frame after its open (R74). -/
def sendBody (kind : StreamKind) (payload : List Byte) (s : State) : Flow :=
  (((writeAddress s).andThen (writeControl kind)).andThen (writePayloads payload)).andThen fun t =>
    .go (transportClose t)

/-- `send_stream(ctrl, bytes)` (R74), the frame procedure both primitives share. -/
def sendStream (kind : StreamKind) (payload : List Byte) (s : State) : Flow :=
  (transportOpen s).andThen (sendBody kind payload)

/-! ### Scripts: the frames of an operation (R7, R16) -/

/-- How many frames an operation sends (R16: only SYNC has more than one). -/
def BusOp.frames : BusOp → Nat
  | .init _ | .setPower _ | .setContrast _ | .setPolarity _ | .stream _ _ => 1
  | .sync => Config.framesPerSync

/-- Frame f of an operation; SYNC's even frames are address frames and its odd frames data frames of page f >> 1
(R110, R17). -/
def BusOp.frame (op : BusOp) (fb : Memory) (f : Nat) : StreamKind × List Byte :=
  match op with
  | .init _ => (.command, initPayload)
  | .setPower on => (.command, powerPayload on)
  | .setContrast v => (.command, contrastPayload v)
  | .setPolarity inv => (.command, polarityPayload inv)
  | .sync => if f % 2 = 0 then (.command, addressPayload (f / 2)) else (.data, pageBytes fb (f / 2))
  | .stream kind payload => (kind, payload)

/-- SEQ at the first call of an operation. -/
def startOp (op : BusOp) (s : State) : State := { s with seq := .running op 0 0 }

/-- What an operation does before its first call: INIT unbinds MODE, binds BUS_ADDR and zero-fills FB (R85, R88,
R90; no call prepares the Transport, R91); each marked operation notes its trace event (R121); SEQ starts (R16). -/
def beginOp (op : BusOp) (s : State) : State :=
  match op with
  | .init a =>
    startOp op
      (State.notify .init
        { s with mode := .uninitialized, busAddr := a, fb := Memory.tabulate fun _ => 0x00 })
  | .setPower on => startOp op (s.notify (.power on))
  | .setContrast v => startOp op (s.notify (.contrast v))
  | .setPolarity inv => startOp op (s.notify (.polarity inv))
  | .sync => startOp op (s.notify .sync)
  | .stream _ _ => startOp op s

/-- After the last frame: SEQ to Idle and the response OK (R16, R162). INIT sets MODE to Ready (R85) and leaves CCOL
unknown (R148, log entry 10). A primitive on its own has no response (log entry 13). -/
def finishOp (op : BusOp) (s : State) : State :=
  match op with
  | .init _ =>
    { s with seq := .idle, mode := .ready, ctl := { s.ctl with ccol := Config.initColumn s.calls } }.respond .ok
  | .setPower _ | .setContrast _ | .setPolarity _ | .sync => { s with seq := .idle }.respond .ok
  | .stream _ _ => { s with seq := .idle }

/-- If SEQ has passed the last frame of its operation, the operation ends. -/
def settle (s : State) : State :=
  match s.seq with
  | .idle => s
  | .running op f k => if k = 0 ∧ op.frames ≤ f then finishOp op s else s

/-! ### The common shape of a host operation -/

/-- A host operation is taken only while SEQ is Idle (R46). -/
def whenIdle (s : State) (t : State) : Host.Outcome State Fault Refusal :=
  if s.isIdle then .next t else .refused .requestWhileBusy

/-- An operation of one command frame, from its beginning to its end. -/
def runOneFrame (op : BusOp) (payload : List Byte) (s : State) : State :=
  (sendStream .command payload (beginOp op s)).finish (finishOp op)

/-- The check of R156, the first thing a checked operation does. -/
def whenReady (s : State) (t : State) : State :=
  if s.isReady then t else raiseError .configurationError s

/-- A frame primitive writes the frame its header describes: none is open (R79), and the header carries BUS_ADDR
(R47, R51; log entry 13). -/
def whenFrameAllowed (a : BusAddr) (s : State) (t : State) : Host.Outcome State Fault Refusal :=
  if s.txnOpen then .fault .frameInsideFrame else if a = s.busAddr then .next t else .fault .foreignAddress

/-- A byte of a frame is written only inside a transaction and only in its own place of the frame: the address byte as
written byte 0, the control byte as written byte 1, a command or pixel byte in a stream of its kind (R44, R51, R53;
log entry 13). -/
def whenByteAt (rx : Rx) (s : State) (t : State) : Host.Outcome State Fault Refusal :=
  if s.txnOpen then if s.ctl.rx = rx then .next t else .fault .wrongPosition else .fault .noOpenTransaction

end Sys2Proof.Machine
end

