-- ==== Sys2Proof/Machine/Commands.lean ====
section
/-! DEFINITION. The command bytes, one definition per row (46_controller_commands.md). Each writes the bytes of its command
into the open command stream, one Transport call a byte; what a delivered byte does to the controller is
`Controller.takePayload`, which moves the cursor for the three addressing commands and nothing for the opaque ones (R148). -/

namespace Sys2Proof.Machine

/-- The bytes of one command, written where a command byte may stand (R54). -/
def writeCommand (bytes : List Byte) (s : State) : Host.Outcome State Fault Refusal :=
  whenByteAt .command s (writePayloads bytes s).state

/-- DISPLAY_OFF (R127). -/
def execDisplayOff (s : State) : Host.Outcome State Fault Refusal := writeCommand [0xAE] s

/-- DISPLAY_ON (R128). -/
def execDisplayOn (s : State) : Host.Outcome State Fault Refusal := writeCommand [0xAF] s

/-- COLUMN_LOWER_4 (R129): the low nibble of CCOL. -/
def execColumnLower4 (n : BitVec 4) (s : State) : Host.Outcome State Fault Refusal := writeCommand [columnLower4Byte n] s

/-- COLUMN_UPPER_4 (R130): the high nibble of CCOL. -/
def execColumnUpper4 (n : BitVec 4) (s : State) : Host.Outcome State Fault Refusal := writeCommand [columnUpper4Byte n] s

/-- PAGE_ADDRESS (R131): CPAGE. -/
def execPageAddress (p : BitVec 3) (s : State) : Host.Outcome State Fault Refusal := writeCommand [pageAddressByte p] s

/-- COMMON_SCAN_DIRECTION (R132): opaque. -/
def execCommonScanDirection (s : State) : Host.Outcome State Fault Refusal := writeCommand [0xC0] s

/-- DISPLAY_START_LINE (R133): opaque. -/
def execDisplayStartLine (s : State) : Host.Outcome State Fault Refusal := writeCommand [0x40] s

/-- SEGMENT_REMAP (R135): opaque. -/
def execSegmentRemap (r : BitVec 1) (s : State) : Host.Outcome State Fault Refusal := writeCommand [segmentRemapByte r] s

/-- DISPLAY_NORMAL (R136). -/
def execDisplayNormal (s : State) : Host.Outcome State Fault Refusal := writeCommand [0xA6] s

/-- DISPLAY_REVERSED (R137). -/
def execDisplayReversed (s : State) : Host.Outcome State Fault Refusal := writeCommand [0xA7] s

/-- ENTIRE_DISPLAY_ON (R139): opaque. -/
def execEntireDisplayOn (s : State) : Host.Outcome State Fault Refusal := writeCommand [0xA4] s

/-- CONTRAST_MODE and its value (R134): opaque. -/
def execContrastMode (d : Byte) (s : State) : Host.Outcome State Fault Refusal := writeCommand [0x81, d] s

/-- MULTIPLEX_RATIO and its data byte (R138): opaque. -/
def execMultiplexRatio (d : Byte) (s : State) : Host.Outcome State Fault Refusal := writeCommand [0xA8, d] s

/-- DISPLAY_OFFSET and its data byte (R140): opaque. -/
def execDisplayOffset (d : Byte) (s : State) : Host.Outcome State Fault Refusal := writeCommand [0xD3, d] s

/-- OSCILLATOR_FREQ and its data byte (R141): opaque. -/
def execOscillatorFreq (d : Byte) (s : State) : Host.Outcome State Fault Refusal := writeCommand [0xD5, d] s

/-- PRECHARGE_DISCHARGE and its data byte (R142): opaque. -/
def execPrechargeDischarge (d : Byte) (s : State) : Host.Outcome State Fault Refusal := writeCommand [0xD9, d] s

/-- COMMON_PADS_CONFIG and its data byte (R143): opaque. -/
def execCommonPadsConfig (d : Byte) (s : State) : Host.Outcome State Fault Refusal := writeCommand [0xDA, d] s

/-- COMMON_PADS_VOLTAGE and its data byte (R144): opaque. -/
def execCommonPadsVoltage (d : Byte) (s : State) : Host.Outcome State Fault Refusal := writeCommand [0xDB, d] s

/-- CHARGE_PUMP and its data byte (R145): opaque. -/
def execChargePump (d : Byte) (s : State) : Host.Outcome State Fault Refusal := writeCommand [0x8D, d] s

end Sys2Proof.Machine
end

