-- ==== Sys2Proof/Machine/Controls.lean ====
section
/-! DEFINITION. SET_POWER, SET_CONTRAST, SET_POLARITY (42_controls.md R95 to R99). -/

namespace Sys2Proof.Machine

/-- SET_POWER on or off (R95). -/
def execSetPower (on : Bool) (s : State) : Host.Outcome State Fault Refusal :=
  whenIdle s (whenReady s (runOneFrame (.setPower on) (powerPayload on) s))

/-- SET_CONTRAST v (R96). -/
def execSetContrast (v : Byte) (s : State) : Host.Outcome State Fault Refusal :=
  whenIdle s (whenReady s (runOneFrame (.setContrast v) (contrastPayload v) s))

/-- SET_POLARITY normal or inverted (R97). -/
def execSetPolarity (inv : Bool) (s : State) : Host.Outcome State Fault Refusal :=
  whenIdle s (whenReady s (runOneFrame (.setPolarity inv) (polarityPayload inv) s))

end Sys2Proof.Machine
end

