-- ==== Sys2Proof/Machine/Debug.lean ====
section
/-! DEFINITION. SET_DEBUG (45_config_debug.md R120). -/

namespace Sys2Proof.Machine

/-- SET_DEBUG en (R120): in either mode, no check, no transport call. -/
def execSetDebug (en : Bool) (s : State) : Host.Outcome State Fault Refusal :=
  whenIdle s ({ s with debugEn := en }.respond .ok)

end Sys2Proof.Machine
end

