-- ==== Sys2Proof/Machine/Framebuffer.lean ====
section
/-! DEFINITION. FILL and CLEAR (43_framebuffer.md R105, R106), and the optional external write port (R107). -/

namespace Sys2Proof.Machine

/-- Every byte of FB becomes p, with no transport call (R105); the 1056 writes are one step (R33). -/
def fillWith (p : Byte) (s : State) : State :=
  (State.notify (.fill p) { s with fb := Memory.tabulate fun _ => p }).respond .ok

/-- FILL p (R105). -/
def execFill (p : Byte) (s : State) : Host.Outcome State Fault Refusal :=
  whenIdle s (whenReady s (fillWith p s))

/-- CLEAR is FILL 0x00 (R106). -/
def execClear (s : State) : Host.Outcome State Fault Refusal :=
  whenIdle s (whenReady s (fillWith 0x00 s))

/-- One framebuffer byte through the external write port, where it is fitted: in Ready `FB[i] <- b`, no transport
call; ConfigurationError in Uninitialized; no meaning for i > 1055 (R107; log entry 16). -/
def externalWrite (i : BitVec 11) (b : Byte) (s : State) : Host.Outcome State Fault Refusal :=
  if !s.fbWritePort then .refused .noWritePort
  else if Config.fbSize ≤ i.toNat then .refused .fbIndexOutOfRange
  else whenIdle s (whenReady s ({ s with fb := s.fb.write i.toNat b }.respond .ok))

end Sys2Proof.Machine
end

