-- ==== Sys2Proof/Machine/Framing.lean ====
section
/-! DEFINITION. The two frame primitives (40_encoder_framing.md R72, R73) and the bytes of a frame that are no command:
address byte, control bytes, pixel byte (46_controller_commands.md R146, R125, R126, R147). -/

namespace Sys2Proof.Machine

/-- SEND_CMD_STREAM (R72): `send_stream(0x00, bytes)`. -/
def execSendCmdStream (a : BusAddr) (payload : List Byte) (s : State) : Host.Outcome State Fault Refusal :=
  whenFrameAllowed a s (sendStream .command payload s).state

/-- SEND_DATA_STREAM (R73): `send_stream(0x40, bytes)`. -/
def execSendDataStream (a : BusAddr) (payload : List Byte) (s : State) : Host.Outcome State Fault Refusal :=
  whenFrameAllowed a s (sendStream .data payload s).state

/-- The address byte (R146): written byte 0, the address BUS_ADDR with the write bit cleared. -/
def execAddress (a : BusAddr) (s : State) : Host.Outcome State Fault Refusal :=
  if s.txnOpen && a != s.busAddr then .fault .foreignAddress else whenByteAt .off s (writeAddress s).state

/-- The control byte 0x00 (R125), written byte 1: every payload byte up to the close is a command byte. -/
def execControlCmdStream (s : State) : Host.Outcome State Fault Refusal :=
  whenByteAt .header s (writeControl .command s).state

/-- The control byte 0x40 (R126), written byte 1: every payload byte up to the close is a pixel byte. -/
def execControlDataStream (s : State) : Host.Outcome State Fault Refusal :=
  whenByteAt .header s (writeControl .data s).state

/-- A pixel byte (R147). -/
def execData (d : Byte) (s : State) : Host.Outcome State Fault Refusal :=
  whenByteAt .data s (writePayload d s).state

end Sys2Proof.Machine
end

