-- ==== Sys2Proof/Machine/Init.lean ====
section
/-! DEFINITION. INIT (41_init.md R85 to R91). -/

namespace Sys2Proof.Machine

/-- INIT a (R85): in both modes, except in Ready with another address (R89); one command frame with INIT_PAYLOAD (R86);
MODE is Ready only after the frame has closed (R88). -/
def execInit (a : BusAddr) (s : State) : Host.Outcome State Fault Refusal :=
  if s.isIdle && !s.admitsInit a then .refused .addressImmutable
  else whenIdle s (runOneFrame (.init a) initPayload s)

end Sys2Proof.Machine
end

