-- ==== Sys2Proof/Machine/Sync.lean ====
section
/-! DEFINITION. SYNC, the page-addressed framebuffer streamer (44_sync.md R110 to R117). -/

namespace Sys2Proof.Machine

/-- The two frames of one page: the address frame (R111), then the data frame (R112). -/
def syncPage (pg : Nat) (s : State) : Flow :=
  (sendStream .command (addressPayload pg) s).andThen fun t => sendStream .data (pageBytes t.fb pg) t

/-- The pages in the order given. -/
def syncPages : List Nat → State → Flow
  | [], s => .go s
  | pg :: rest, s => (syncPage pg s).andThen (syncPages rest)

/-- SYNC (R110): the eight pages in ascending order. -/
def execSync (s : State) : Host.Outcome State Fault Refusal :=
  whenIdle s
    (whenReady s ((syncPages [0, 1, 2, 3, 4, 5, 6, 7] (beginOp .sync s)).finish (finishOp .sync)))

end Sys2Proof.Machine
end

