-- ==== Sys2Proof/Machine/Dispatch.lean ====
section
/-! DEFINITION. exec: one arm per instruction, one direct call of its meaning. -/

namespace Sys2Proof.Machine

def exec (i : Instr) (s : State) : Host.Outcome State Fault Refusal :=
  match i with
  | .init a => Sys2Proof.Machine.execInit a s
  | .setPower on => Sys2Proof.Machine.execSetPower on s
  | .setContrast v => Sys2Proof.Machine.execSetContrast v s
  | .setPolarity inv => Sys2Proof.Machine.execSetPolarity inv s
  | .fill p => Sys2Proof.Machine.execFill p s
  | .sync => Sys2Proof.Machine.execSync s
  | .setDebug en => Sys2Proof.Machine.execSetDebug en s
  | .clear => Sys2Proof.Machine.execClear s
  | .sendCmdStream a payload => Sys2Proof.Machine.execSendCmdStream a payload s
  | .sendDataStream a payload => Sys2Proof.Machine.execSendDataStream a payload s
  | .address a => Sys2Proof.Machine.execAddress a s
  | .controlCmdStream => Sys2Proof.Machine.execControlCmdStream s
  | .controlDataStream => Sys2Proof.Machine.execControlDataStream s
  | .data d => Sys2Proof.Machine.execData d s
  | .displayOff => Sys2Proof.Machine.execDisplayOff s
  | .displayOn => Sys2Proof.Machine.execDisplayOn s
  | .columnLower4 n => Sys2Proof.Machine.execColumnLower4 n s
  | .columnUpper4 n => Sys2Proof.Machine.execColumnUpper4 n s
  | .pageAddress p => Sys2Proof.Machine.execPageAddress p s
  | .commonScanDirection => Sys2Proof.Machine.execCommonScanDirection s
  | .displayStartLine => Sys2Proof.Machine.execDisplayStartLine s
  | .segmentRemap r => Sys2Proof.Machine.execSegmentRemap r s
  | .displayNormal => Sys2Proof.Machine.execDisplayNormal s
  | .displayReversed => Sys2Proof.Machine.execDisplayReversed s
  | .entireDisplayOn => Sys2Proof.Machine.execEntireDisplayOn s
  | .contrastMode d => Sys2Proof.Machine.execContrastMode d s
  | .multiplexRatio d => Sys2Proof.Machine.execMultiplexRatio d s
  | .displayOffset d => Sys2Proof.Machine.execDisplayOffset d s
  | .oscillatorFreq d => Sys2Proof.Machine.execOscillatorFreq d s
  | .prechargeDischarge d => Sys2Proof.Machine.execPrechargeDischarge d s
  | .commonPadsConfig d => Sys2Proof.Machine.execCommonPadsConfig d s
  | .commonPadsVoltage d => Sys2Proof.Machine.execCommonPadsVoltage d s
  | .chargePump d => Sys2Proof.Machine.execChargePump d s

end Sys2Proof.Machine
end

