-- ==== Sys2Proof/Machine/Fetch.lean ====
section
/-! DEFINITION. What SEQ points at (10_state.md R16): while it is Idle the host's next input, otherwise the next call of
the running operation. A byte of a frame is decoded by its position (30_encoding.md R51, R56, R57). -/

namespace Sys2Proof.Machine

/-- What the machine does next. -/
inductive Fetched where
  /-- Nothing: the block waits for a request (R175). -/
  | waiting
  /-- A request word that stands for no instruction (R61). -/
  | reserved
  /-- A single framebuffer byte at the external write port (R107). -/
  | fbByte (i : BitVec 11) (b : Byte)
  /-- An instruction. -/
  | instr (i : Instr)
  /-- k = 0: `T.open()`. -/
  | openCall
  /-- A payload byte that starts no command of its own: the data byte of a two-byte command, or a byte outside the
  vocabulary (the encoder does not inspect its bytes, R72). -/
  | rawByte (b : Byte)
  /-- Past the last byte: `T.close()`. -/
  | closeCall
  /-- A frame the operation does not have. -/
  | outOfScript
deriving DecidableEq, Repr

/-- The decoded instruction, or the byte as it stands where the decoder knows none. -/
def fetchedByte (c : Code) (b : Byte) : Fetched :=
  match decode c with
  | .ok i => .instr i
  | .error _ => .rawByte b

/-- The next payload byte of a command frame, or the whole command it starts (R57; log entry 13). -/
def fetchCommand (rx : Rx) (b : Byte) (rest : List Byte) : Fetched :=
  if rx = .operand then .rawByte b
  else
    match decodeCommand (b :: rest) with
    | .ok (i, _) => .instr i
    | .error _ => .rawByte b

/-- Position k of a frame (R16). A primitive run on its own is one instruction at its first call. -/
def fetchInFrame (op : BusOp) (kind : StreamKind) (payload : List Byte) (k : Nat) (s : State) : Fetched :=
  match k with
  | 0 =>
    match op with
    | .stream _ _ =>
      match decode (.frame (frameBytes s.busAddr kind payload)) with
      | .ok i => .instr i
      | .error _ => .openCall
    | .init _ | .setPower _ | .setContrast _ | .setPolarity _ | .sync => .openCall
  | 1 => fetchedByte (.addressByte (addressByte s.busAddr)) (addressByte s.busAddr)
  | 2 => fetchedByte (.controlByte kind.controlByte) kind.controlByte
  | j + 3 =>
    match payload.drop j with
    | [] => .closeCall
    | b :: rest =>
      match kind with
      | .data => fetchedByte (.pixelByte b) b
      | .command => fetchCommand s.ctl.rx b rest

/-- The host's next input. -/
def fetchInput : List Input → Fetched
  | [] => .waiting
  | .request w :: _ =>
    match decode (.request w) with
    | .ok i => .instr i
    | .error _ => .reserved
  | .fbWrite i b :: _ => .fbByte i b

/-- What SEQ points at. -/
def fetch (s : State) : Fetched :=
  match s.seq with
  | .idle => fetchInput s.requests
  | .running op f k =>
    if f < op.frames then fetchInFrame op (op.frame s.fb f).1 (op.frame s.fb f).2 k s else .outOfScript

/-- The host's input is taken from its list while SEQ is Idle; a running operation takes none. -/
def takeInput (s : State) : State :=
  match s.seq with
  | .idle => { s with requests := s.requests.drop 1 }
  | .running _ _ _ => s

/-- The operation ends with the close of its last frame, in the same step. -/
def settleOutcome (x : Host.Outcome State Fault Refusal) : Host.Outcome State Fault Refusal :=
  match x with
  | .next t => .next (settle t)
  | .fault r => .fault r
  | .refused r => .refused r

/-- The host presents a request, with SEQ Idle so that it is fetched next. -/
def placeRequest (w : Request) (s : State) : State :=
  { s with seq := .idle, requests := .request w :: s.requests }

/-- SEQ at the first call of a frame primitive run on its own, with the address its header carries. -/
def placeFrame (kind : StreamKind) (a : BusAddr) (payload : List Byte) (s : State) : State :=
  { s with seq := .running (.stream kind payload) 0 0, busAddr := a, txnOpen := false }

/-- SEQ at position k of an open frame, the controller at its place in it. -/
def placeByte (kind : StreamKind) (payload : List Byte) (k : Nat) (rx : Rx) (s : State) : State :=
  ({ s with seq := .running (.stream kind payload) 0 k, txnOpen := true }).withRx rx

/-- SEQ, or the host's input, so that the instruction is fetched next. -/
def placeInstr (i : Instr) (s : State) : State :=
  match i with
  | .sendCmdStream a payload => placeFrame .command a payload s
  | .sendDataStream a payload => placeFrame .data a payload s
  | .address a => placeByte .command [] 1 .off { s with busAddr := a }
  | .controlCmdStream => placeByte .command [] 2 .header s
  | .controlDataStream => placeByte .data [] 2 .header s
  | .data d => placeByte .data [d] 3 .data s
  | .init _ | .setPower _ | .setContrast _ | .setPolarity _ | .fill _ | .sync | .setDebug _ | .clear
  | .displayOff | .displayOn | .columnLower4 _ | .columnUpper4 _ | .pageAddress _ | .commonScanDirection
  | .displayStartLine | .segmentRemap _ | .displayNormal | .displayReversed | .entireDisplayOn | .contrastMode _
  | .multiplexRatio _ | .displayOffset _ | .oscillatorFreq _ | .prechargeDischarge _ | .commonPadsConfig _
  | .commonPadsVoltage _ | .chargePump _ =>
    match encode i with
    | .request w => placeRequest w s
    | .command bytes => placeByte .command bytes 3 .command s
    | .frame _ | .addressByte _ | .controlByte _ | .pixelByte _ => s

/-- A table word that is no instruction, presented to the host's port so that it is fetched next. A 12-bit word is the
request word it is; a word of another width is no request word, and the reserved word 0xFFF stands for it, so that the
step refuses it (R61). DESIGN CHOICE, log entry 19. -/
def placeRejected (nbits w : Nat) (s : State) : State :=
  placeRequest (if nbits = 12 then BitVec.ofNat 12 w else 0xFFF) s

end Sys2Proof.Machine
end

