-- ==== Sys2Proof/Machine/Step.lean ====
section
/-! DEFINITION. One step of the machine (00_scope.md R7): a whole operation while SEQ is Idle and the host presents a
request, one Transport call (or one two-byte command) while an operation is under way. Log entry 1. -/

namespace Sys2Proof.Machine

/-- One step: do what SEQ points at. -/
def step (s : State) : Host.Outcome State Fault Refusal :=
  match fetch s with
  | .waiting => .next s
  | .reserved => .refused .reservedRequest
  | .fbByte i b => externalWrite i b (takeInput s)
  | .instr i => settleOutcome (exec i (takeInput s))
  | .openCall => if s.txnOpen then .fault .frameInsideFrame else .next (transportOpen s).state
  | .rawByte b => if s.txnOpen then .next (settle (writePayload b s).state) else .fault .noOpenTransaction
  | .closeCall => if s.txnOpen then .next (settle (transportClose s)) else .fault .noOpenTransaction
  | .outOfScript => .fault .sequencerOutOfScript

/-- The state with the table's word w as what SEQ points at; a word that is no instruction is one the step refuses (how it
is presented is a DESIGN CHOICE, log entry 19). -/
def State.withFetchWord (s : State) (nbits w : Nat) : State :=
  match decodeTableWord nbits w with
  | some i => placeInstr i s
  | none => placeRejected nbits w s

end Sys2Proof.Machine
end

