-- ==== Sys2Proof/Safety.lean ====
section
/-! DEFINITION. The terms claims are stated in: what the Transport answers, the traces of frames (40_encoder_framing.md
R79), the host's operations, and the invariant of a safe run. -/

namespace Sys2Proof.Machine

/-! ### What the Transport answers (R71) -/

/-- The next n Transport calls that return a result all return Ok. -/
def State.allOk (s : State) (n : Nat) : Prop := ∀ k, k < n → s.resultAhead k = .ok

/-- The first failing result is the one j calls ahead. -/
def State.failsAt (s : State) (j : Nat) : Prop := s.allOk j ∧ s.resultAhead j = .fail

/-- The results still to come after n more calls. -/
def State.afterCalls (s : State) (n : Nat) : State := { s with draws := s.draws.drop n, calls := s.calls + n }

/-! ### What the controller has taken, and where SEQ stands, after delivered bytes -/

/-- The controller after the payload bytes, the first delivered by Transport call n. -/
def Controller.takePayloads : Nat → List Byte → Controller → Controller
  | _, [], c => c
  | n, b :: rest, c => Controller.takePayloads (n + 1) rest (c.takePayload n b)

/-- The controller after a complete frame whose open was Transport call n (R51). -/
def Controller.takeFrame (n : Nat) (kind : StreamKind) (payload : List Byte) (c : Controller) : Controller :=
  { Controller.takePayloads (n + 3) payload (c.takeControl kind) with rx := .off }

/-- SEQ after n successful calls of a frame (R16). -/
def Sequencer.advance (n : Nat) : Sequencer → Sequencer
  | .idle => .idle
  | .running op f k => .running op f (k + n)

/-! ### The traces of frames (R79) -/

/-- A complete frame with these written bytes. -/
def frameTrace (written : List Byte) : List Event :=
  .opened .ok :: (written.map fun b => .wrote b .ok) ++ [.closed]

/-- The state after a successful `T.open()` (R74). -/
def State.afterOpen (s : State) : State :=
  { s with draws := s.draws.drop 1, calls := s.calls + 1, trace := s.trace ++ [.opened .ok], txnOpen := true,
           seq := s.seq.nextCall, ctl := { s.ctl with rx := .off } }

/-- The state after the bytes w were written, every result Ok, and left the controller at c (R74). -/
def State.afterBytes (s : State) (w : List Byte) (c : Controller) : State :=
  { s with draws := s.draws.drop w.length, calls := s.calls + w.length,
           trace := s.trace ++ w.map fun b => .wrote b .ok, seq := s.seq.advance w.length, ctl := c }

/-- The state after one complete frame with the written bytes w, which left the controller at c (R74): n written
bytes take n + 1 results, TXN_OPEN is 0, SEQ is at the next frame, and nothing else of the block has changed. -/
def State.afterFrame (s : State) (w : List Byte) (c : Controller) : State :=
  { s with draws := s.draws.drop (w.length + 1), calls := s.calls + (w.length + 1),
           trace := s.trace ++ frameTrace w, txnOpen := false, seq := s.seq.nextFrame,
           ctl := { c with rx := .off } }

/-- A frame cut at written byte j: the bytes before it, the failed write, the close. -/
def cutTrace : List Byte → Nat → List Event
  | [], _ => []
  | b :: _, 0 => [.wrote b .fail, .closed]
  | b :: rest, j + 1 => .wrote b .ok :: cutTrace rest j

/-- Frames sent one after the other until the result j calls ahead fails: an open that fails leaves only its event, a
failed write cuts its frame, and no later frame is started. A complete frame of n written bytes takes n + 1 results. -/
def abortTrace : List (List Byte) → Nat → List Event
  | [], _ => []
  | w :: rest, j =>
    if j = 0 then [.opened .fail]
    else if j ≤ w.length then .opened .ok :: cutTrace w (j - 1)
    else frameTrace w ++ abortTrace rest (j - (w.length + 1))

/-- The written bytes of every frame of an operation that sends to address a (R16, R51). -/
def BusOp.writtenFrames (op : BusOp) (a : BusAddr) (fb : Memory) : List (List Byte) :=
  (List.range op.frames).map fun f => frameBytes a (op.frame fb f).1 (op.frame fb f).2

/-- How many events of TRACE are opens, writes, closes. -/
def countOpens (t : List Event) : Nat := t.countP fun | .opened _ => true | .wrote _ _ | .closed => false

/-- How many events of TRACE are writes. -/
def countWrites (t : List Event) : Nat := t.countP fun | .wrote _ _ => true | .opened _ | .closed => false

/-- How many events of TRACE are closes. -/
def countCloses (t : List Event) : Nat := t.countP fun | .closed => true | .opened _ | .wrote _ _ => false

/-- The command-frame payloads the block can emit (R62). -/
def EmittablePayload (p : List Byte) : Prop :=
  p = initPayload ∨ p = [0xAE] ∨ p = [0xAF] ∨ (∃ v, p = [0x81, v]) ∨ p = [0xA6] ∨ p = [0xA7] ∨
    ∃ pg : BitVec 3, p = [0x00, 0x10, pageAddressByte pg]

/-- The written bytes of a frame the block can emit (R58, R62). -/
def EmittableFrame (w : List Byte) : Prop :=
  ∃ a : BusAddr, (∃ p, EmittablePayload p ∧ w = frameBytes a .command p) ∨
    ∃ p : List Byte, p.length = Config.cols ∧ w = frameBytes a .data p

/-! ### What an operation keeps, and how an error leaves it -/

/-- The fields no call and no error changes: MODE, BUS_ADDR, DEBUG_EN, FB, DBG and the host's inputs. -/
structure Kept (s t : State) : Prop where
  mode : t.mode = s.mode
  busAddr : t.busAddr = s.busAddr
  debugEn : t.debugEn = s.debugEn
  fb : t.fb = s.fb
  dbg : t.dbg = s.dbg
  requests : t.requests = s.requests
  fbWritePort : t.fbWritePort = s.fbWritePort

/-- The state of an operation that an error has ended (R162): what `Kept` says, one TRANSPORT_ERROR, SEQ Idle,
TXN_OPEN 0. -/
structure Aborted (s t : State) : Prop extends Kept s t where
  responses : t.responses = s.responses ++ [.transportError]
  seq : t.seq = .idle
  txnOpen : t.txnOpen = false

/-- The state with other debug state: the flag and the log (R122). -/
def State.withDebug (s : State) (en : Bool) (log : List String) : State := { s with debugEn := en, dbg := log }

/-- Two outcomes that differ in the debug state at most (R122). -/
def SameButDebug : Host.Outcome State Fault Refusal → Host.Outcome State Fault Refusal → Prop
  | .next s, .next t => s.withDebug false [] = t.withDebug false []
  | .fault r, .fault q => r = q
  | .refused r, .refused q => r = q
  | .next _, .fault _ | .next _, .refused _ | .fault _, .next _ | .fault _, .refused _ | .refused _, .next _
  | .refused _, .fault _ => False

/-! ### Classes of instructions -/

/-- The bytes an instruction of layer C writes, and the place in the frame it writes them at; none for a host
operation or a frame primitive (R51, R54). -/
def byteRow (i : Instr) : Option (List Byte × Rx) :=
  match encode i with
  | .addressByte b => some ([b], .off)
  | .controlByte b => some ([b], .header)
  | .pixelByte b => some ([b], .data)
  | .command bytes => some (bytes, .command)
  | .request _ | .frame _ => none

/-- The seven operations of the host and the pseudo-operation CLEAR (R2, R63, R64). -/
def isHostOp : Instr → Bool
  | .init _ | .setPower _ | .setContrast _ | .setPolarity _ | .fill _ | .sync | .setDebug _ | .clear => true
  | .sendCmdStream _ _ | .sendDataStream _ _ | .address _ | .controlCmdStream | .controlDataStream | .data _ => false
  | .displayOff | .displayOn | .columnLower4 _ | .columnUpper4 _ | .pageAddress _ | .commonScanDirection => false
  | .displayStartLine | .segmentRemap _ | .displayNormal | .displayReversed | .entireDisplayOn => false
  | .contrastMode _ | .multiplexRatio _ | .displayOffset _ | .oscillatorFreq _ | .prechargeDischarge _ => false
  | .commonPadsConfig _ | .commonPadsVoltage _ | .chargePump _ => false

/-- The operations that check MODE (R156), CLEAR as FILL. -/
def isChecked : Instr → Bool
  | .setPower _ | .setContrast _ | .setPolarity _ | .fill _ | .sync | .clear => true
  | .init _ | .setDebug _ => false
  | .sendCmdStream _ _ | .sendDataStream _ _ | .address _ | .controlCmdStream | .controlDataStream | .data _ => false
  | .displayOff | .displayOn | .columnLower4 _ | .columnUpper4 _ | .pageAddress _ | .commonScanDirection => false
  | .displayStartLine | .segmentRemap _ | .displayNormal | .displayReversed | .entireDisplayOn => false
  | .contrastMode _ | .multiplexRatio _ | .displayOffset _ | .oscillatorFreq _ | .prechargeDischarge _ => false
  | .commonPadsConfig _ | .commonPadsVoltage _ | .chargePump _ => false

/-- The instructions that write data bytes to the controller (R58, R126): SYNC, the data stream and its byte. -/
def sendsData : Instr → Bool
  | .sync | .sendDataStream _ _ | .data _ => true
  | .init _ | .setPower _ | .setContrast _ | .setPolarity _ | .fill _ | .setDebug _ | .clear => false
  | .sendCmdStream _ _ | .address _ | .controlCmdStream | .controlDataStream => false
  | .displayOff | .displayOn | .columnLower4 _ | .columnUpper4 _ | .pageAddress _ | .commonScanDirection => false
  | .displayStartLine | .segmentRemap _ | .displayNormal | .displayReversed | .entireDisplayOn => false
  | .contrastMode _ | .multiplexRatio _ | .displayOffset _ | .oscillatorFreq _ | .prechargeDischarge _ => false
  | .commonPadsConfig _ | .commonPadsVoltage _ | .chargePump _ => false

/-- The rows that are a command of a command frame (R54). -/
def isCommand (i : Instr) : Bool := !(commandBytes i).isEmpty

/-! ### The invariant of a safe run -/

/-- Where TRACE stands: between frames, inside one, or past a failed write that still owes its close (R79). -/
inductive BusPhase where
  | between
  | inFrame
  | cut
deriving DecidableEq, Repr

/-- The only ways TRACE can go on (R79): frames never nest, a close follows every open that succeeded, nothing is
written after a failed write. -/
def BusPhase.after : BusPhase → Event → Option BusPhase
  | .between, .opened .ok => some .inFrame
  | .between, .opened .fail => some .between
  | .between, .wrote _ _ => none
  | .between, .closed => none
  | .inFrame, .opened _ => none
  | .inFrame, .wrote _ .ok => some .inFrame
  | .inFrame, .wrote _ .fail => some .cut
  | .inFrame, .closed => some .between
  | .cut, .opened _ => none
  | .cut, .wrote _ _ => none
  | .cut, .closed => some .between

/-- The phase after a list of events, or none if some event may not stand where it stands. -/
def phaseAfter : BusPhase → List Event → Option BusPhase
  | p, [] => some p
  | p, e :: t =>
    match p.after e with
    | some q => phaseAfter q t
    | none => none

/-- The controller's place after a command byte (R57). -/
def Rx.afterCommandByte (rx : Rx) (b : Byte) : Rx :=
  match rx with
  | .off => .off
  | .header => .header
  | .command => if isTwoByteOpener b then .operand else .command
  | .operand => .command
  | .data => .data

/-- The controller's place at position k of a frame (R16, R51, R53, R57). -/
def rxAt (kind : StreamKind) (payload : List Byte) (k : Nat) : Rx :=
  match k with
  | 0 | 1 => .off
  | 2 => .header
  | j + 3 =>
    match kind with
    | .data => .data
    | .command => (payload.take j).foldl Rx.afterCommandByte .command

/-- What the block's registers hold while an operation runs: INIT has bound them (R85), the checked operations run in
Ready (R156), and a primitive's frame fits SEQ (R16). -/
def BusOp.bound (op : BusOp) (s : State) : Prop :=
  match op with
  | .init a => s.mode = .uninitialized ∧ s.busAddr = a ∧ s.fb.length = Config.fbSize
  | .setPower _ | .setContrast _ | .setPolarity _ | .sync => s.mode = .ready
  | .stream _ payload => payload.length ≤ maxPayload

/-- SEQ is inside its script, and TXN_OPEN and the controller's place are those of its position (R15, R16). -/
def State.placed (s : State) : Prop :=
  match s.seq with
  | .idle => s.txnOpen = false ∧ s.ctl.rx = .off
  | .running op f k =>
    f < op.frames ∧ k ≤ (op.frame s.fb f).2.length + 3 ∧ s.txnOpen = decide (0 < k) ∧
      s.ctl.rx = rxAt (op.frame s.fb f).1 (op.frame s.fb f).2 k ∧ op.bound s

/-- The invariant: both memories are in canonical form, FB is complete in Ready (R13, R14), TRACE has only the shapes
of R79 and stands inside a frame exactly while TXN_OPEN = 1, and SEQ is placed. -/
structure State.Inv (s : State) : Prop where
  fbWf : s.fb.wf = true
  cramWf : s.ctl.cram.wf = true
  fbComplete : s.mode = .ready → s.fb.length = Config.fbSize
  shape : phaseAfter .between s.trace = some (if s.txnOpen then .inFrame else .between)
  placed : s.placed

/-- A step is safe when it does not end in a fault: a refusal is the spec's own (R173). -/
def SafeOutcome (x : Host.Outcome State Fault Refusal) : Prop := ∀ r, x ≠ .fault r

end Sys2Proof.Machine
end

