-- ==== Sys2Proof/Certificates/Slice0/Obligations.lean ====
section
/-! DEFINITION. The statements for the provers. Where a statement rests on the model's choice (a log entry under
notes/assumptions), its docstring says so. -/

open Sys2Proof Sys2Proof.Machine

/-! ### Encoding and decoding -/

/-- Every instruction's code decodes to it, with every operand at every value; CLEAR's word decodes as FILL 0x00
(R64). The command and frame encodings are the source's; the request word is the spec's own choice (R59). -/
def Obligations.DecodeEncodeAgree : Prop := ∀ i : Instr, decode (encode i) = .ok i.core

/-- A code has at most one reading: what decodes to an instruction is that instruction's code. -/
def Obligations.DecodedIsEncoded : Prop := ∀ (c : Code) (i : Instr), decode c = .ok i → encode i = c

/-- R61: exactly the reserved words are rejected, and the machine refuses them. -/
def Obligations.ReservedRequestsRefused : Prop :=
  (∀ w : Request, decode (.request w) = .error .reservedRequest ↔
      (7 ≤ (requestOp w).toNat ∨ (requestOp w = 0 ∧ (requestArg w).getLsbD 7 = true) ∨
        ((requestOp w = 1 ∨ requestOp w = 3 ∨ requestOp w = 6) ∧ (requestArg w).extractLsb' 1 7 ≠ 0) ∨
        (requestOp w = 5 ∧ requestArg w ≠ 0))) ∧
    ∀ (s : State) (w : Request) (rest : List Input), s.seq = .idle → s.requests = .request w :: rest →
      decode (.request w) = .error .reservedRequest → step s = .refused .reservedRequest

/-- Words written out from the spec's encodings (R51 to R59, 95_test_vectors.md sections 2, 3 and 9) decode to the
instructions they stand for. -/
def Obligations.SampleWordsDecode : Prop :=
  decode (.request 0x03C) = .ok (.init 0x3C) ∧ decode (.request 0x101) = .ok (.setPower true) ∧
    decode (.request 0x280) = .ok (.setContrast 0x80) ∧ decode (.request 0x301) = .ok (.setPolarity true) ∧
    decode (.request 0x4A5) = .ok (.fill 0xA5) ∧ decode (.request 0x400) = .ok (.fill 0x00) ∧
    decode (.request 0x500) = .ok .sync ∧ decode (.request 0x601) = .ok (.setDebug true) ∧
    decode (.frame [0x78, 0x00, 0xAF]) = .ok (.sendCmdStream 0x3C [0xAF]) ∧
    decode (.frame [0x78, 0x40, 0x01, 0x80]) = .ok (.sendDataStream 0x3C [0x01, 0x80]) ∧
    decode (.addressByte 0xAA) = .ok (.address 0x55) ∧ decode (.controlByte 0x40) = .ok .controlDataStream ∧
    decode (.command [0x02]) = .ok (.columnLower4 2) ∧ decode (.command [0xB5]) = .ok (.pageAddress 5) ∧
    decode (.command [0x81, 0x81]) = .ok (.contrastMode 0x81)

/-- The length rule R57: a payload made of commands parses into exactly those commands, whatever the data bytes of
the two-byte ones. -/
def Obligations.CommandPayloadParses : Prop :=
  ∀ l : List Instr, (∀ i ∈ l, isCommand i = true) → decodeCommands (l.flatMap commandBytes) = .ok l

/-- INIT's payload is 28 bytes and parses into 20 commands, 12 of one byte and 8 of two (R65). -/
def Obligations.InitPayloadParses : Prop :=
  initPayload.length = 28 ∧
    ∃ l, decodeCommands initPayload = .ok l ∧ l.length = 20 ∧
      (l.countP fun i => (commandBytes i).length = 1) = 12 ∧ (l.countP fun i => (commandBytes i).length = 2) = 8

/-- R52: the address byte is the bus address shifted left by one with bit 0 clear, in every frame. -/
def Obligations.AddressByteForm : Prop :=
  (∀ a : BusAddr, addressByte a = ((a.zeroExtend 8) <<< 1) &&& 0xFE ∧ (addressByte a).toNat = 2 * a.toNat ∧
      (addressByte a).getLsbD 0 = false) ∧
    (∀ a kind payload, (frameBytes a kind payload).head? = some (addressByte a)) ∧
    addressByte 0x3C = 0x78 ∧ addressByte 0 = 0x00 ∧ addressByte 127 = 0xFE

/-- R31: the index of a page and column exists, and page and column are recovered from it. -/
def Obligations.FramebufferLayout : Prop :=
  (∀ pg col, pg ≤ 7 → col ≤ 131 →
      index pg col = pg * 132 + col ∧ index pg col ≤ 1055 ∧ pageOf (index pg col) = pg ∧
        columnOf (index pg col) = col) ∧
    ∀ i, i ≤ 1055 → pageOf i = i / 132 ∧ columnOf i = i % 132 ∧ pageOf i ≤ 7 ∧ columnOf i ≤ 131 ∧
      index (pageOf i) (columnOf i) = i

/-! ### Reset and the step -/

/-- What the spec gives for reset (R23, R175): MODE, DEBUG_EN, TXN_OPEN, SEQ, empty logs, and no byte of FB or of the
controller RAM holding a value: a cell of CRAM reads as a free value (R173, U5; log entry 7). BUS_ADDR, CPAGE and CCOL
have no value in the spec; the model's 0 is not stated here. -/
def Obligations.ResetState : Prop :=
  State.reset.mode = .uninitialized ∧ State.reset.debugEn = false ∧ State.reset.txnOpen = false ∧
    State.reset.seq = .idle ∧ State.reset.trace = [] ∧ State.reset.dbg = [] ∧
    (∀ i, State.reset.fb.read i = none) ∧ (∀ i, State.reset.ctl.cram.read i = none) ∧
    ∀ pg col, State.reset.ctl.cramRead pg col = Config.powerOnByte (index pg col)

/-- With SEQ Idle and no request the block waits: the step changes nothing (R175). -/
def Obligations.WaitsForRequest : Prop :=
  ∀ s : State, s.seq = .idle → s.requests = [] → step s = .next s

/-- With SEQ Idle a step takes the host's next request and is exec of the instruction it decodes to. That a whole
operation is one step is the model's choice among those of R7 (log entry 1). -/
def Obligations.StepRunsRequest : Prop :=
  ∀ (s : State) (w : Request) (rest : List Input) (i : Instr), s.seq = .idle → s.requests = .request w :: rest →
    decode (.request w) = .ok i → step s = exec i { s with requests := rest }

/-- While an operation is under way a step runs the byte SEQ points at, decoded by its position (R16, R51, R57), and
ends the operation if its last frame has closed. A frame primitive run on its own is one instruction at its first
call (log entry 13). -/
def Obligations.StepRunsFrameBytes : Prop :=
  ∀ (s : State) (op : BusOp) (f : Nat) (kind : StreamKind) (payload : List Byte), f < op.frames →
    op.frame s.fb f = (kind, payload) →
    (s.seq = .running op f 0 → op = .stream kind payload →
        step s = settleOutcome (exec (frameInstr kind s.busAddr payload) s)) ∧
      (s.seq = .running op f 1 → step s = settleOutcome (exec (.address s.busAddr) s)) ∧
      (s.seq = .running op f 2 → kind = .command → step s = settleOutcome (exec .controlCmdStream s)) ∧
      (s.seq = .running op f 2 → kind = .data → step s = settleOutcome (exec .controlDataStream s)) ∧
      (∀ j d rest, s.seq = .running op f (j + 3) → kind = .data → payload.drop j = d :: rest →
        step s = settleOutcome (exec (.data d) s)) ∧
      ∀ j i rest, s.seq = .running op f (j + 3) → kind = .command → s.ctl.rx ≠ .operand →
        decodeCommand (payload.drop j) = .ok (i, rest) → step s = settleOutcome (exec i s)

/-- The calls of a running operation that are no instruction (R16): `T.open()` at k = 0 of a host operation's frame,
the data byte of a two-byte command whose opener has been written, and `T.close()` past the last byte. -/
def Obligations.StepMakesCalls : Prop :=
  ∀ (s : State) (op : BusOp) (f : Nat) (kind : StreamKind) (payload : List Byte), f < op.frames →
    op.frame s.fb f = (kind, payload) →
    (s.seq = .running op f 0 → (∀ k p, op ≠ .stream k p) → s.txnOpen = false →
        step s = .next (transportOpen s).state) ∧
      (∀ j d rest, s.seq = .running op f (j + 3) → kind = .command → s.ctl.rx = .operand →
        payload.drop j = d :: rest → s.txnOpen = true → step s = .next (settle (writePayload d s).state)) ∧
      ∀ j, s.seq = .running op f (j + 3) → payload.length ≤ j → s.txnOpen = true →
        step s = .next (settle (transportClose s))

/-- R46: a host operation while SEQ is not Idle has no meaning. -/
def Obligations.RequestWhileBusyRefused : Prop :=
  ∀ (i : Instr) (s : State), isHostOp i = true → s.seq ≠ .idle → exec i s = .refused .requestWhileBusy

/-! ### INIT -/

/-- INIT with every result Ok, first or repeated (R85, R86, R90): the one frame of 30 written bytes, MODE Ready,
BUS_ADDR bound, FB zero-filled, response OK; CRAM is untouched, CPAGE is 0, CCOL is the free value of log entry 10
(R148), and nothing else changes. That a byte written Ok is delivered, which U4 asks for CPAGE = 0, is the model's
assumption (log entry 5). -/
def Obligations.InitCompletes : Prop :=
  ∀ (a : BusAddr) (s : State), s.seq = .idle → s.mode = .uninitialized ∨ s.busAddr = a → s.allOk 31 →
    exec (.init a) s =
        .next { s with mode := .ready, busAddr := a, fb := Memory.tabulate fun _ => 0x00, txnOpen := false,
                       dbg := (s.notify .init).dbg, draws := s.draws.drop 31, calls := s.calls + 31,
                       trace := s.trace ++ frameTrace
                         [addressByte a, 0x00, 0xAE, 0x02, 0x10, 0xB0, 0xC0, 0x00, 0x10, 0x40, 0x81, 0x7F, 0xA1, 0xA6,
                          0xA8, 0x3F, 0xA4, 0xD3, 0x00, 0xD5, 0xF0, 0xD9, 0x22, 0xDA, 0x12, 0xDB, 0x20, 0x8D, 0x14, 0xAF],
                       responses := s.responses ++ [.ok],
                       ctl := { cram := s.ctl.cram, cpage := 0, ccol := Config.initColumn (s.calls + 31),
                                rx := .off } } ∧
      ∀ i, i ≤ 1055 → fbRead (Memory.tabulate fun _ => 0x00) i = 0x00

/-- INIT in which some result fails (R88; keeping the address and FB is the model's choice, log entry 22): it ends in
Uninitialized with TRANSPORT_ERROR, the address bound and FB zero-filled, a prefix of its frame in TRACE, closed if it was
opened, and CRAM untouched. -/
def Obligations.InitFails : Prop :=
  ∀ (a : BusAddr) (s : State) (j : Nat), s.seq = .idle → s.mode = .uninitialized ∨ s.busAddr = a →
    s.txnOpen = false → j < 31 → s.failsAt j →
    ∃ t, exec (.init a) s = .next t ∧ t.mode = .uninitialized ∧ t.busAddr = a ∧
      t.fb = (Memory.tabulate fun _ => 0x00) ∧ t.debugEn = s.debugEn ∧ t.txnOpen = false ∧ t.seq = .idle ∧
      t.responses = s.responses ++ [.transportError] ∧
      t.trace = s.trace ++ abortTrace [frameBytes a .command initPayload] j ∧ t.ctl.cram = s.ctl.cram ∧
      t.requests = s.requests ∧ t.dbg = (s.notify .init).dbg ∧ t.fbWritePort = s.fbWritePort

/-- INIT in Ready with another address has no meaning (R89). -/
def Obligations.InitOtherAddressRefused : Prop :=
  ∀ (a : BusAddr) (s : State), s.seq = .idle → s.mode = .ready → s.busAddr ≠ a →
    exec (.init a) s = .refused .addressImmutable

/-- A repeated INIT does exactly what a first INIT does (R89): in Ready with the bound address it does what it does in
the same state with MODE Uninitialized. -/
def Obligations.RepeatedInitIsFirstInit : Prop :=
  ∀ s : State, exec (.init s.busAddr) s = exec (.init s.busAddr) { s with mode := .uninitialized }

/-! ### The controls -/

/-- SET_POWER in Ready with every result Ok (R95): the one frame, the response OK, nothing else of the block and
nothing of the controller's image and cursor. -/
def Obligations.SetPowerCompletes : Prop :=
  ∀ (on : Bool) (s : State), s.seq = .idle → s.mode = .ready → s.allOk 4 →
    exec (.setPower on) s =
      .next { s with txnOpen := false, dbg := (s.notify (.power on)).dbg, draws := s.draws.drop 4,
                     calls := s.calls + 4, responses := s.responses ++ [.ok],
                     trace := s.trace ++ frameTrace [addressByte s.busAddr, 0x00, if on then 0xAF else 0xAE],
                     ctl := { s.ctl with rx := .off } }

/-- SET_CONTRAST in Ready with every result Ok (R96): the command and the raw value, whatever it is. -/
def Obligations.SetContrastCompletes : Prop :=
  ∀ (v : Byte) (s : State), s.seq = .idle → s.mode = .ready → s.allOk 5 →
    exec (.setContrast v) s =
      .next { s with txnOpen := false, dbg := (s.notify (.contrast v)).dbg, draws := s.draws.drop 5,
                     calls := s.calls + 5, responses := s.responses ++ [.ok],
                     trace := s.trace ++ frameTrace [addressByte s.busAddr, 0x00, 0x81, v],
                     ctl := { s.ctl with rx := .off } }

/-- SET_POLARITY in Ready with every result Ok (R97). -/
def Obligations.SetPolarityCompletes : Prop :=
  ∀ (inv : Bool) (s : State), s.seq = .idle → s.mode = .ready → s.allOk 4 →
    exec (.setPolarity inv) s =
      .next { s with txnOpen := false, dbg := (s.notify (.polarity inv)).dbg, draws := s.draws.drop 4,
                     calls := s.calls + 4, responses := s.responses ++ [.ok],
                     trace := s.trace ++ frameTrace [addressByte s.busAddr, 0x00, if inv then 0xA7 else 0xA6],
                     ctl := { s.ctl with rx := .off } }

/-- A control in which some result fails answers TRANSPORT_ERROR and leaves MODE Ready and FB as they were (R99); its
frame is cut where R75 and R76 say. R99 says of the controller only that it may or may not have taken the command: that
its image and cursor are as before rests on the commands being opaque (R148) and on log entry 12. -/
def Obligations.ControlFails : Prop :=
  ∀ (i : Instr) (payload : List Byte) (s : State) (j : Nat),
    (∃ on, i = .setPower on ∧ payload = [if on then 0xAF else 0xAE]) ∨
        (∃ v, i = .setContrast v ∧ payload = [0x81, v]) ∨
        (∃ inv, i = .setPolarity inv ∧ payload = [if inv then 0xA7 else 0xA6]) →
    s.seq = .idle → s.mode = .ready → s.txnOpen = false → j < payload.length + 3 → s.failsAt j →
    ∃ t, exec i s = .next t ∧ t.mode = .ready ∧ t.fb = s.fb ∧ t.busAddr = s.busAddr ∧ t.debugEn = s.debugEn ∧
      t.txnOpen = false ∧ t.seq = .idle ∧ t.responses = s.responses ++ [.transportError] ∧
      t.trace = s.trace ++ abortTrace [frameBytes s.busAddr .command payload] j ∧
      t.ctl = { s.ctl with rx := t.ctl.rx } ∧ t.requests = s.requests ∧ t.fbWritePort = s.fbWritePort

/-- R156: SET_POWER, SET_CONTRAST, SET_POLARITY, FILL and SYNC (and CLEAR) in Uninitialized answer CONFIGURATION_ERROR;
no state is written and no call is made. INIT and SET_DEBUG never answer it. -/
def Obligations.ConfigurationErrorBeforeInit : Prop :=
  (∀ (i : Instr) (s : State), isChecked i = true → s.seq = .idle → s.txnOpen = false → s.mode = .uninitialized →
    exec i s = .next { s with responses := s.responses ++ [.configurationError] }) ∧
    ∀ (i : Instr) (s t : State), (∃ a, i = .init a) ∨ (∃ en, i = .setDebug en) → exec i s = .next t →
      t.responses ≠ s.responses ++ [.configurationError]

/-! ### FILL, CLEAR and the external write port -/

/-- FILL p (R105) and CLEAR as FILL 0x00 (R106). In Ready every one of the 1056 bytes of FB is the pattern, the response
is OK, no call is made whatever the Transport would answer, and nothing else changes; in Uninitialized
CONFIGURATION_ERROR and nothing else. CLEAR is FILL 0x00 in every state, and leaves the framebuffer that an INIT which
returns OK leaves. -/
def Obligations.FillCompletes : Prop :=
  (∀ (p : Byte) (s : State), s.seq = .idle → s.mode = .ready →
    exec (.fill p) s =
        .next { s with fb := Memory.tabulate fun _ => p, dbg := (s.notify (.fill p)).dbg,
                       responses := s.responses ++ [.ok] } ∧
      exec .clear s =
        .next { s with fb := Memory.tabulate fun _ => 0x00, dbg := (s.notify (.fill 0x00)).dbg,
                       responses := s.responses ++ [.ok] }) ∧
    (∀ p : Byte, (Memory.tabulate fun _ => p).length = 1056 ∧
      ∀ i, i ≤ 1055 → fbRead (Memory.tabulate fun _ => p) i = p) ∧
    (∀ (p : Byte) (s : State), s.seq = .idle → s.txnOpen = false → s.mode = .uninitialized →
      exec (.fill p) s = .next { s with responses := s.responses ++ [.configurationError] }) ∧
    (∀ s : State, exec .clear s = exec (.fill 0x00) s) ∧
    ∀ (a : BusAddr) (s t : State), exec (.init a) s = .next t → t.responses = s.responses ++ [.ok] →
      t.fb = Memory.tabulate fun _ => 0x00

/-- The optional write port (R107; log entry 16): where it is fitted, in Ready, the one byte changes and the response
is OK; in Uninitialized CONFIGURATION_ERROR; an index above 1055 has no meaning. -/
def Obligations.ExternalWritePort : Prop :=
  ∀ (s : State) (i : BitVec 11) (b : Byte) (rest : List Input), s.seq = .idle → s.txnOpen = false →
    s.requests = .fbWrite i b :: rest → s.fbWritePort = true →
    (i.toNat ≤ 1055 → s.mode = .ready →
        step s = .next { s with requests := rest, fb := s.fb.write i.toNat b, responses := s.responses ++ [.ok] } ∧
          fbRead (s.fb.write i.toNat b) i.toNat = b ∧
          ∀ j, j ≠ i.toNat → fbRead (s.fb.write i.toNat b) j = fbRead s.fb j) ∧
      (i.toNat ≤ 1055 → s.mode = .uninitialized →
        step s = .next { s with requests := rest, responses := s.responses ++ [.configurationError] }) ∧
      (1055 < i.toNat → step s = .refused .fbIndexOutOfRange)

/-! ### SYNC -/

/-- SYNC in Ready with every result Ok (R110 to R113): sixteen frames, address frame then data frame of pages 0 to 7,
each data frame the 132 bytes of its page in ascending column order; 16 opens, 1112 writes, 16 closes; response OK; FB,
MODE and BUS_ADDR as before. -/
def Obligations.SyncCompletes : Prop :=
  ∀ s : State, s.seq = .idle → s.mode = .ready → s.allOk 1128 →
    ∃ c events,
      exec .sync s =
          .next { s with txnOpen := false, dbg := (s.notify .sync).dbg, draws := s.draws.drop 1128,
                         calls := s.calls + 1128, responses := s.responses ++ [.ok], trace := s.trace ++ events,
                         ctl := c } ∧
        (events = (List.range 8).flatMap fun pg =>
          frameTrace [addressByte s.busAddr, 0x00, 0x00, 0x10, BitVec.ofNat 8 (0xB0 + pg)] ++
            frameTrace (addressByte s.busAddr :: 0x40 :: (List.range 132).map fun col => fbRead s.fb (pg * 132 + col))) ∧
        countOpens events = 16 ∧ countWrites events = 1112 ∧ countCloses events = 16

/-- What a successful SYNC achieves (R116, R36): the controller RAM equals the framebuffer, whatever RAM and cursor
were before; CPAGE = 7 and CCOL = 132. That a byte written Ok is delivered to the controller at BUS_ADDR is R116's own
premise and the model's assumption (log entry 5). -/
def Obligations.SyncMirrorsFramebuffer : Prop :=
  ∀ s : State, s.seq = .idle → s.mode = .ready → s.allOk 1128 →
    ∃ t, exec .sync s = .next t ∧ t.ctl.cpage = 7 ∧ t.ctl.ccol = 132 ∧
      (∀ pg col, pg ≤ 7 → col ≤ 131 → t.ctl.cramRead pg col = fbRead s.fb (index pg col)) ∧
      ∀ i, 1056 ≤ i → t.ctl.cram.read i = s.ctl.cram.read i

/-- SYNC in which some result fails (R114, R115): the frames before the failing call are complete, the failing frame
is cut and closed if it was opened, no later frame is started; TRANSPORT_ERROR; MODE stays Ready and FB is untouched.
Of the controller nothing is said: its image is unspecified (log entry 12). -/
def Obligations.SyncFails : Prop :=
  ∀ (s : State) (j : Nat), s.seq = .idle → s.mode = .ready → s.txnOpen = false → j < 1128 → s.failsAt j →
    ∃ t, exec .sync s = .next t ∧ t.mode = .ready ∧ t.fb = s.fb ∧ t.busAddr = s.busAddr ∧ t.debugEn = s.debugEn ∧
      t.txnOpen = false ∧ t.seq = .idle ∧ t.responses = s.responses ++ [.transportError] ∧
      t.trace = s.trace ++ abortTrace
        ((List.range 8).flatMap fun pg =>
          [[addressByte s.busAddr, 0x00, 0x00, 0x10, BitVec.ofNat 8 (0xB0 + pg)],
           addressByte s.busAddr :: 0x40 :: (List.range 132).map fun col => fbRead s.fb (pg * 132 + col)]) j ∧
      t.requests = s.requests ∧ t.dbg = (s.notify .sync).dbg ∧ t.fbWritePort = s.fbWritePort

/-! ### SET_DEBUG and the debug hook -/

/-- R120: SET_DEBUG writes DEBUG_EN in either mode and nothing else, the response is OK, and no other instruction
changes the setting. -/
def Obligations.SetDebugCompletes : Prop :=
  (∀ (en : Bool) (s : State), s.seq = .idle →
    exec (.setDebug en) s = .next { s with debugEn := en, responses := s.responses ++ [.ok] }) ∧
    ∀ (i : Instr) (s t : State), (∀ en, i ≠ .setDebug en) → exec i s = .next t → t.debugEn = s.debugEn

/-- R122: whatever DEBUG_EN and DBG hold, every instruction ends alike and leaves alike all but the debug state, for
every list of transport results. -/
def Obligations.DebugNonInterference : Prop :=
  ∀ (i : Instr) (s : State) (en : Bool) (log : List String),
    SameButDebug (exec i s) (exec i (s.withDebug en log))

/-! ### The frame primitives -/

/-- SEND_CMD_STREAM and SEND_DATA_STREAM with every result Ok (R72, R73, R74): one complete frame of the payload as it
is given, of any length; they check no MODE (R78); the controller has taken the frame. That bytes written Ok are
delivered is log entry 5, what payload bytes outside the vocabulary of R56 do log entry 14, what a data byte past
column 131 does log entry 11, that the header must carry BUS_ADDR log entry 13. What the bytes do to the controller is R57, R129 to R131, R147 and R148; that CCOL is 0x00 after the
bytes C0 00 10 of a command payload (R65), which V56 and R148 leave open, is the model's choice (log entry 10). -/
def Obligations.FramePrimitivesComplete : Prop :=
  ∀ (payload : List Byte) (s : State), s.txnOpen = false → s.allOk (payload.length + 3) →
    exec (.sendCmdStream s.busAddr payload) s =
        .next (s.afterFrame (addressByte s.busAddr :: 0x00 :: payload)
          (Controller.takeFrame s.calls .command payload { s.ctl with rx := .off })) ∧
      exec (.sendDataStream s.busAddr payload) s =
        .next (s.afterFrame (addressByte s.busAddr :: 0x40 :: payload)
          (Controller.takeFrame s.calls .data payload { s.ctl with rx := .off }))

/-- If `T.open()` fails, no byte is written and no close is made; TRACE gains exactly `Open(Fail)` (R75); the operation
ends with TRANSPORT_ERROR and SEQ Idle (R74, R162). That a primitive run on its own ends like an operation is the model's
choice (log entry 13). -/
def Obligations.OpenFailureEndsFrame : Prop :=
  ∀ (kind : StreamKind) (payload : List Byte) (s : State), s.txnOpen = false → s.resultAhead 0 = .fail →
    ∃ t, exec (frameInstr kind s.busAddr payload) s = .next t ∧ t.trace = s.trace ++ [.opened .fail] ∧ Aborted s t

/-- If the write of byte j of a frame fails, no later byte is written and one close is made; TRACE gains `Open(Ok)`, the
successful writes, the failed write, `Close`; address byte and control byte alike (R76); the operation ends with
TRANSPORT_ERROR and SEQ Idle (R74, R162). That a primitive run on its own ends like an operation is the model's choice
(log entry 13). -/
def Obligations.WriteFailureEndsFrame : Prop :=
  ∀ (kind : StreamKind) (payload : List Byte) (s : State) (j : Nat), s.txnOpen = false → j < payload.length + 2 →
    s.failsAt (j + 1) →
    ∃ t b, exec (frameInstr kind s.busAddr payload) s = .next t ∧
      (addressByte s.busAddr :: kind.controlByte :: payload)[j]? = some b ∧
      t.trace = s.trace ++ .opened .ok ::
        (((addressByte s.busAddr :: kind.controlByte :: payload).take j).map fun w => .wrote w .ok) ++
          [.wrote b .fail, .closed] ∧ Aborted s t

/-! ### The bytes of a frame -/

/-- The header bytes, delivered (R146, R125, R126): as written byte 0 the address byte of BUS_ADDR leaves the controller's
contents as they are; as written byte 1 the control byte decides how the payload is read. That a byte written Ok is
delivered is log entry 5, that the controller has a place in the frame log entry 9. -/
def Obligations.HeaderBytesComplete : Prop :=
  ∀ s : State, s.txnOpen = true → s.resultAhead 0 = .ok →
    (s.ctl.rx = .off →
        exec (.address s.busAddr) s = .next (s.afterBytes [addressByte s.busAddr] { s.ctl with rx := .header })) ∧
      (s.ctl.rx = .header →
        exec .controlCmdStream s = .next (s.afterBytes [0x00] { s.ctl with rx := .command }) ∧
          exec .controlDataStream s = .next (s.afterBytes [0x40] { s.ctl with rx := .data }))

/-- The three addressing commands, delivered: COLUMN_LOWER_4 (R129), COLUMN_UPPER_4 (R130), PAGE_ADDRESS (R131). That a
byte written Ok is delivered is log entry 5; that the effect is the same after COMMON_SCAN_DIRECTION, where V56 leaves the
column open, is the model's choice (log entry 10). -/
def Obligations.AddressingCommandsComplete : Prop :=
  ∀ s : State, s.txnOpen = true → s.ctl.rx = .command → s.resultAhead 0 = .ok →
    (∀ n : BitVec 4, exec (.columnLower4 n) s =
        .next (s.afterBytes [0x00 ||| n.zeroExtend 8] { s.ctl with ccol := (s.ctl.ccol &&& 0xF0) ||| n.zeroExtend 8 })) ∧
      (∀ n : BitVec 4, exec (.columnUpper4 n) s =
        .next (s.afterBytes [0x10 ||| n.zeroExtend 8]
          { s.ctl with ccol := (n.zeroExtend 8 <<< 4) ||| (s.ctl.ccol &&& 0x0F) })) ∧
      ∀ p : BitVec 3, exec (.pageAddress p) s =
        .next (s.afterBytes [0xB0 ||| p.zeroExtend 8] { s.ctl with cpage := p })

/-- DATA, delivered (R147, R37, R38): with CCOL at most 131 the byte goes to CRAM[CPAGE][CCOL], every other byte of
CRAM stays, CCOL advances and CPAGE stays; with CCOL past 131 CRAM and CCOL take the free values of log entry 11 and
CPAGE stays. That a byte written Ok is delivered is log entry 5. -/
def Obligations.DataByteCompletes : Prop :=
  ∀ (d : Byte) (s : State), s.txnOpen = true → s.ctl.rx = .data → s.resultAhead 0 = .ok →
    ∃ c, exec (.data d) s = .next (s.afterBytes [d] c) ∧ c.cpage = s.ctl.cpage ∧ c.rx = .data ∧
      (s.ctl.ccol.toNat ≤ 131 →
        c.ccol = s.ctl.ccol + 1 ∧ c.cramRead s.ctl.cpage.toNat s.ctl.ccol.toNat = d ∧
          ∀ i, i ≠ index s.ctl.cpage.toNat s.ctl.ccol.toNat → c.cram.read i = s.ctl.cram.read i) ∧
      (131 < s.ctl.ccol.toNat →
        c.ccol = Config.overflowColumn s.calls ∧
          ∀ i, i ≤ 1055 → c.cram.read i = some (Config.overflowByte s.calls i))

/-- The one-byte opaque commands, delivered: the byte is in TRACE and the controller's RAM, page and column are as
before (R127, R128, R132, R133, R135 to R137, R139, R148). That a byte written Ok is delivered is log entry 5. -/
def Obligations.OneByteOpaqueComplete : Prop :=
  ∀ s : State, s.txnOpen = true → s.ctl.rx = .command → s.resultAhead 0 = .ok →
    exec .displayOff s = .next (s.afterBytes [0xAE] s.ctl) ∧ exec .displayOn s = .next (s.afterBytes [0xAF] s.ctl) ∧
      exec .commonScanDirection s = .next (s.afterBytes [0xC0] s.ctl) ∧
      exec .displayStartLine s = .next (s.afterBytes [0x40] s.ctl) ∧
      (∀ r : BitVec 1, exec (.segmentRemap r) s = .next (s.afterBytes [0xA0 ||| r.zeroExtend 8] s.ctl)) ∧
      exec .displayNormal s = .next (s.afterBytes [0xA6] s.ctl) ∧
      exec .displayReversed s = .next (s.afterBytes [0xA7] s.ctl) ∧
      exec .entireDisplayOn s = .next (s.afterBytes [0xA4] s.ctl)

/-- The two-byte opaque commands, delivered: both bytes are in TRACE, the data byte is no command whatever its value
(R57), and the controller's RAM, page and column are as before (R134, R138, R140 to R145, R148). That bytes written Ok are
delivered is log entry 5. -/
def Obligations.TwoByteOpaqueComplete : Prop :=
  ∀ (d : Byte) (s : State), s.txnOpen = true → s.ctl.rx = .command → s.allOk 2 →
    exec (.contrastMode d) s = .next (s.afterBytes [0x81, d] s.ctl) ∧
      exec (.multiplexRatio d) s = .next (s.afterBytes [0xA8, d] s.ctl) ∧
      exec (.displayOffset d) s = .next (s.afterBytes [0xD3, d] s.ctl) ∧
      exec (.oscillatorFreq d) s = .next (s.afterBytes [0xD5, d] s.ctl) ∧
      exec (.prechargeDischarge d) s = .next (s.afterBytes [0xD9, d] s.ctl) ∧
      exec (.commonPadsConfig d) s = .next (s.afterBytes [0xDA, d] s.ctl) ∧
      exec (.commonPadsVoltage d) s = .next (s.afterBytes [0xDB, d] s.ctl) ∧
      exec (.chargePump d) s = .next (s.afterBytes [0x8D, d] s.ctl)

/-- Every byte of layer C whose write fails ends the operation (R76, R162): the bytes before it, the failed write, the
close, TRANSPORT_ERROR, SEQ Idle, TXN_OPEN 0. -/
def Obligations.ByteFailureEndsOperation : Prop :=
  ∀ (i : Instr) (w : List Byte) (rx : Rx) (s : State) (j : Nat), byteRow i = some (w, rx) → s.txnOpen = true →
    s.ctl.rx = rx → (∀ a, i = .address a → a = s.busAddr) → j < w.length → s.failsAt j →
    ∃ t, exec i s = .next t ∧ t.trace = s.trace ++ cutTrace w j ∧ t.ctl.rx = .off ∧ Aborted s t

/-- Where the bytes and the frame primitives stop: outside a transaction; in a place of the frame that is not their own (a
control byte before the address byte, a second address byte, a command byte in a data stream, a pixel byte in a command
stream); inside another frame; with an address other than BUS_ADDR. The spec gives these positions no meaning (R44, R47,
R51, R79); that they are faults is the model's choice (log entry 13). -/
def Obligations.MisplacedBytesFault : Prop :=
  (∀ (i : Instr) (w : List Byte) (rx : Rx) (s : State), byteRow i = some (w, rx) → s.txnOpen = false →
      exec i s = .fault .noOpenTransaction) ∧
    (∀ (i : Instr) (w : List Byte) (rx : Rx) (s : State), byteRow i = some (w, rx) → s.txnOpen = true →
      (∀ a, i = .address a → a = s.busAddr) → s.ctl.rx ≠ rx → exec i s = .fault .wrongPosition) ∧
    (∀ (kind : StreamKind) (a : BusAddr) (payload : List Byte) (s : State), s.txnOpen = true →
      exec (frameInstr kind a payload) s = .fault .frameInsideFrame) ∧
    (∀ (kind : StreamKind) (a : BusAddr) (payload : List Byte) (s : State), s.txnOpen = false → a ≠ s.busAddr →
      exec (frameInstr kind a payload) s = .fault .foreignAddress) ∧
    ∀ (a : BusAddr) (s : State), s.txnOpen = true → a ≠ s.busAddr → exec (.address a) s = .fault .foreignAddress

/-! ### Rules of the whole machine -/

/-- R155: an operation that ends returns exactly one response and leaves SEQ Idle; CONFIGURATION_ERROR is returned
exactly by a checked operation in Uninitialized, TRANSPORT_ERROR by INIT, the three controls and SYNC alone. -/
def Obligations.OneResponsePerOperation : Prop :=
  ∀ (i : Instr) (s t : State), isHostOp i = true → exec i s = .next t →
    ∃ r, t.responses = s.responses ++ [r] ∧ t.seq = .idle ∧
      (r = .configurationError ↔ isChecked i = true ∧ s.mode = .uninitialized) ∧
      (r = .transportError → i ≠ .clear ∧ (∀ p, i ≠ .fill p) ∧ ∀ en, i ≠ .setDebug en)

/-- Who writes the block's registers (R10 to R13, R115, R166): MODE and BUS_ADDR by INIT alone, DEBUG_EN by SET_DEBUG
alone, FB by INIT, FILL and CLEAR alone, whatever the Transport answers. -/
def Obligations.RegisterWriters : Prop :=
  ∀ (i : Instr) (s t : State), exec i s = .next t →
    ((∀ a, i ≠ .init a) → t.mode = s.mode ∧ t.busAddr = s.busAddr) ∧
      ((∀ en, i ≠ .setDebug en) → t.debugEn = s.debugEn) ∧
      ((∀ a, i ≠ .init a) → (∀ p, i ≠ .fill p) → i ≠ .clear → t.fb = s.fb)

/-- INIT's modes (R88, R166): it ends in Ready exactly when its response is OK, else in Uninitialized, with its operand
bound and FB zero-filled (R85, R90); that a failed INIT keeps both is the model's choice (log entry 22). -/
def Obligations.InitModes : Prop :=
  ∀ (a : BusAddr) (s t : State), exec (.init a) s = .next t →
    t.busAddr = a ∧ t.fb = (Memory.tabulate fun _ => 0x00) ∧
      ((t.mode = .ready ∧ t.responses = s.responses ++ [.ok]) ∨
        (t.mode = .uninitialized ∧ t.responses = s.responses ++ [.transportError]))

/-- CRAM changes only under data frames (R39): every instruction that sends no data byte leaves it as it was, whatever
the Transport answers, and so does the controller that takes any command frame. While SYNC is under way this holds of a
call that does not fail; a failing call of SYNC leaves CRAM unknown, whichever it is (log entry 12). -/
def Obligations.CommandFramesKeepCram : Prop :=
  (∀ (i : Instr) (s t : State), sendsData i = false → exec i s = .next t →
      (∀ f k, s.seq ≠ .running .sync f k) ∨ t.responses ≠ s.responses ++ [.transportError] →
      t.ctl.cram = s.ctl.cram) ∧
    ∀ (n : Nat) (payload : List Byte) (c : Controller), (Controller.takeFrame n .command payload c).cram = c.cram

/-- R62: the host cannot make the block emit anything but the listed frames: what an operation adds to TRACE is a
sequence of them, complete or cut by a failing call. -/
def Obligations.OnlyListedFramesEmitted : Prop :=
  ∀ (i : Instr) (s t : State), isHostOp i = true → s.txnOpen = false → exec i s = .next t →
    ∃ ws : List (List Byte), (∀ w ∈ ws, EmittableFrame w) ∧
      (t.trace = s.trace ++ ws.flatMap frameTrace ∨ ∃ j, t.trace = s.trace ++ abortTrace ws j)

/-! ### The invariant -/

/-- Every step keeps the invariant: memories in canonical form, FB complete in Ready, TRACE in the shapes of R79, SEQ
inside its script with TXN_OPEN and the controller's place as its position says (R14 to R16). -/
def Obligations.StepKeepsInvariant : Prop :=
  ∀ s t : State, s.Inv → step s = .next t → t.Inv

/-- The invariant holds after reset. -/
def Obligations.ResetInvariant : Prop := State.reset.Inv

/-- Under the invariant a step never ends in a fault: the block has no stuck state (R173). Every refusal stands where the
host's next input has no meaning: a reserved word, INIT in Ready with another address, a framebuffer write with an index
above 1055, or one where the port is not fitted. The last is the model's own (log entry 16), the others are R173's. -/
def Obligations.NoFaultUnderInvariant : Prop :=
  ∀ s : State, s.Inv →
    SafeOutcome (step s) ∧
      ∀ r, step s = .refused r →
        s.seq = .idle ∧ ∃ x rest, s.requests = x :: rest ∧
          ((r = .reservedRequest ∧ ∃ w, x = .request w ∧ decode (.request w) = .error .reservedRequest) ∨
            (r = .addressImmutable ∧ s.mode = .ready ∧
              ∃ w a, x = .request w ∧ decode (.request w) = .ok (.init a) ∧ a ≠ s.busAddr) ∨
            (r = .fbIndexOutOfRange ∧ s.fbWritePort = true ∧ ∃ i b, x = .fbWrite i b ∧ 1055 < i.toNat) ∨
            (r = .noWritePort ∧ s.fbWritePort = false ∧ ∃ i b, x = .fbWrite i b))

/-- R7: run call by call from its first call, an operation reaches the state that exec gives it as one big step, for
every list of transport results. -/
def Obligations.CallByCallIsOneStep : Prop :=
  ∀ (i : Instr) (op : BusOp) (s : State),
    (∃ a, i = .init a ∧ op = .init a) ∨ (∃ on, i = .setPower on ∧ op = .setPower on) ∨
        (∃ v, i = .setContrast v ∧ op = .setContrast v) ∨ (∃ inv, i = .setPolarity inv ∧ op = .setPolarity inv) ∨
        (i = .sync ∧ op = .sync) →
    s.Inv → s.seq = .idle → (isChecked i = true → s.mode = .ready) →
    (∀ a, i = .init a → s.mode = .uninitialized ∨ s.busAddr = a) →
    ∃ n t, exec i s = .next t ∧ Sys2Proof.core.run n (beginOp op s) = .next t
end

