-- ==== Sys2Proof/Laws/Memory.lean ====
section
/-! SUPPORT. The laws of memory: a read after a write, the canonical form, and a memory built all at once. -/

namespace Sys2Proof

theorem Memory.read_write_same (m : Memory) (i : Nat) (b : Byte) : (m.write i b).read i = some b := by
  induction m with
  | nil => simp [Memory.write, Memory.read]
  | cons c m ih =>
    unfold Memory.write
    split
    · simp [Memory.read]
    · split
      · simp [Memory.read]
      · rename_i h
        simp [Memory.read, ih, Ne.symm h]

theorem Memory.read_write_other (m : Memory) {i j : Nat} (b : Byte) (h : j ≠ i) :
    (m.write i b).read j = m.read j := by
  induction m with
  | nil => simp [Memory.write, Memory.read, Ne.symm h]
  | cons c m ih =>
    unfold Memory.write
    split
    · simp [Memory.read, Ne.symm h]
    · split
      · rename_i h'
        subst h'
        simp [Memory.read, Ne.symm h]
      · simp [Memory.read, ih]

theorem Memory.read_write (m : Memory) (i j : Nat) (b : Byte) :
    (m.write i b).read j = if j = i then some b else m.read j := by
  split
  · rename_i h
    rw [h, read_write_same]
  · exact read_write_other m b ‹_›

/-- The cells of a memory after a write: the new one, or cells it had. -/
theorem Memory.mem_write {m : Memory} {i : Nat} {b : Byte} {c : Host.Cell} (h : c ∈ m.write i b) :
    c = (i, b) ∨ c ∈ m := by
  induction m with
  | nil => simpa [Memory.write] using h
  | cons d m ih =>
    unfold Memory.write at h
    split at h
    · simpa using h
    · split at h
      · rcases List.mem_cons.1 h with h | h
        · exact .inl h
        · exact .inr (List.mem_cons_of_mem _ h)
      · rcases List.mem_cons.1 h with h | h
        · exact .inr (h ▸ List.mem_cons_self)
        · exact (ih h).imp id (List.mem_cons_of_mem _)

theorem Memory.wf_iff (m : Memory) :
    m.wf = true ↔ m.Pairwise (fun c d => c.1 < d.1) ∧ ∀ c ∈ m, c.1 < Config.fbSize := by
  simp [Memory.wf]

theorem Memory.rising_write {m : Memory} (h : m.Pairwise fun c d => c.1 < d.1) (i : Nat) (b : Byte) :
    (m.write i b).Pairwise fun c d => c.1 < d.1 := by
  induction m with
  | nil => simp [Memory.write]
  | cons c m ih =>
    obtain ⟨hc, hm⟩ := List.pairwise_cons.1 h
    unfold Memory.write
    split
    · rename_i hi
      refine List.pairwise_cons.2 ⟨fun d hd => ?_, h⟩
      rcases List.mem_cons.1 hd with rfl | hd
      · exact hi
      · exact hi.trans (hc d hd)
    · split
      · rename_i hi
        exact List.pairwise_cons.2 ⟨fun d hd => by simpa [hi] using hc d hd, hm⟩
      · refine List.pairwise_cons.2 ⟨fun d hd => ?_, ih hm⟩
        rcases Memory.mem_write hd with rfl | hd
        · simp only
          omega
        · exact hc d hd

/-- A write inside the 1056 addresses keeps the canonical form. -/
theorem Memory.wf_write {m : Memory} {i : Nat} (h : m.wf = true) (hi : i < Config.fbSize) (b : Byte) :
    (m.write i b).wf = true := by
  rw [Memory.wf_iff] at h ⊢
  refine ⟨Memory.rising_write h.1 i b, fun c hc => ?_⟩
  rcases Memory.mem_write hc with rfl | hc
  · exact hi
  · exact h.2 c hc

theorem Memory.wf_nil : Memory.wf [] = true := rfl

@[simp] theorem Memory.length_tabulate (f : Nat → Byte) : (Memory.tabulate f).length = Config.fbSize := by
  simp [Memory.tabulate]

theorem Memory.wf_tabulate (f : Nat → Byte) : (Memory.tabulate f).wf = true := by
  rw [Memory.wf_iff]
  constructor
  · rw [Memory.tabulate, List.pairwise_map]
    exact List.pairwise_lt_range
  · intro c hc
    obtain ⟨i, hi, rfl⟩ := List.mem_map.1 hc
    exact List.mem_range.1 hi

/-- A memory that has the cell (i, b) and no other cell at i reads b there. -/
theorem Memory.read_map_of_mem (f : Nat → Byte) (l : List Nat) (i : Nat) :
    Memory.read (l.map fun j => (j, f j)) i = if i ∈ l then some (f i) else none := by
  induction l with
  | nil => simp [Memory.read]
  | cons j l ih =>
    by_cases h : j = i
    · simp [Memory.read, h]
    · simp [Memory.read, ih, h, Ne.symm h]

theorem Memory.read_tabulate (f : Nat → Byte) (i : Nat) :
    (Memory.tabulate f).read i = if i < Config.fbSize then some (f i) else none := by
  rw [Memory.tabulate, Memory.read_map_of_mem]
  simp

/-- Cells in strictly rising order below n are at most n. -/
theorem Memory.length_le_of_rising {m : Memory} {n : Nat} (h : m.Pairwise fun c d => c.1 < d.1)
    (hb : ∀ c ∈ m, c.1 < n) : m.length ≤ n := by
  have hnd : (m.map Prod.fst).Nodup := by
    rw [List.Nodup, List.pairwise_map]
    exact h.imp fun hlt => Nat.ne_of_lt hlt
  have hsub : m.map Prod.fst ⊆ List.range n := by
    intro i hi
    obtain ⟨c, hc, rfl⟩ := List.mem_map.1 hi
    exact List.mem_range.2 (hb c hc)
  simpa using (List.subperm_of_subset hnd hsub).length_le

theorem Memory.length_write_ge (m : Memory) (i : Nat) (b : Byte) : m.length ≤ (m.write i b).length := by
  induction m with
  | nil => simp
  | cons c m ih =>
    unfold Memory.write
    split
    · simp
    · split
      · simp
      · simpa using ih

/-- A write to a complete framebuffer leaves it complete: its size never changes (R14). -/
theorem Memory.length_write_full {m : Memory} {i : Nat} (h : m.wf = true) (hl : m.length = Config.fbSize)
    (hi : i < Config.fbSize) (b : Byte) : (m.write i b).length = Config.fbSize := by
  have hw := (Memory.wf_iff _).1 (Memory.wf_write h hi b)
  have h1 := Memory.length_le_of_rising hw.1 hw.2
  have h2 := Memory.length_write_ge m i b
  omega

/-- No value stands at an address below every cell. -/
theorem Memory.read_of_lt {m : Memory} {i : Nat} (h : ∀ c ∈ m, i < c.1) : m.read i = none := by
  induction m with
  | nil => rfl
  | cons c m ih =>
    have hc : c.1 ≠ i := Nat.ne_of_gt (h c List.mem_cons_self)
    simp [Memory.read, hc, ih fun d hd => h d (List.mem_cons_of_mem _ hd)]

/-- Two memories in canonical form that read alike are the same data. -/
theorem Memory.ext_of_read {m n : Memory} (hm : m.wf = true) (hn : n.wf = true)
    (h : ∀ i, m.read i = n.read i) : m = n := by
  rw [Memory.wf_iff] at hm hn
  replace hm := hm.1
  replace hn := hn.1
  induction m generalizing n with
  | nil =>
    cases n with
    | nil => rfl
    | cons d n => simpa [Memory.read] using h d.1
  | cons c m ih =>
    cases n with
    | nil => simpa [Memory.read] using h c.1
    | cons d n =>
      obtain ⟨hc, hm'⟩ := List.pairwise_cons.1 hm
      obtain ⟨hd, hn'⟩ := List.pairwise_cons.1 hn
      have hcd : c.1 = d.1 := by
        rcases Nat.lt_trichotomy c.1 d.1 with hlt | heq | hgt
        · have := h c.1
          rw [Memory.read_of_lt (m := d :: n)] at this
          · simp [Memory.read] at this
          · intro e he
            rcases List.mem_cons.1 he with rfl | he
            · exact hlt
            · exact hlt.trans (hd e he)
        · exact heq
        · have := h d.1
          rw [Memory.read_of_lt (m := c :: m)] at this
          · simp [Memory.read] at this
          · intro e he
            rcases List.mem_cons.1 he with rfl | he
            · exact hgt
            · exact hgt.trans (hc e he)
      have hb : c.2 = d.2 := by
        have := h c.1
        simpa [Memory.read, hcd] using this
      have htail : ∀ i, Memory.read m i = Memory.read n i := by
        intro i
        by_cases hi : c.1 = i
        · subst hi
          rw [Memory.read_of_lt hc, Memory.read_of_lt (by rw [hcd]; exact hd)]
        · have := h i
          have hi' : d.1 ≠ i := hcd ▸ hi
          simpa [Memory.read, hi, hi'] using this
      rw [ih htail hm' hn', Prod.ext hcd hb]

end Sys2Proof
end

