-- ==== Sys2Proof/Laws/State.lean ====
section
/-! SUPPORT. What each update of the state does to each field: one lemma per field, so that no later proof unfolds a
record update. -/

namespace Sys2Proof.Machine

@[simp] theorem log_mode (e : Event) (s : State) : (State.log e s).mode = s.mode := rfl
@[simp] theorem log_busAddr (e : Event) (s : State) : (State.log e s).busAddr = s.busAddr := rfl
@[simp] theorem log_debugEn (e : Event) (s : State) : (State.log e s).debugEn = s.debugEn := rfl
@[simp] theorem log_fb (e : Event) (s : State) : (State.log e s).fb = s.fb := rfl
@[simp] theorem log_txnOpen (e : Event) (s : State) : (State.log e s).txnOpen = s.txnOpen := rfl
@[simp] theorem log_seq (e : Event) (s : State) : (State.log e s).seq = s.seq := rfl
@[simp] theorem log_trace (e : Event) (s : State) : (State.log e s).trace = s.trace ++ [e] := rfl
@[simp] theorem log_dbg (e : Event) (s : State) : (State.log e s).dbg = s.dbg := rfl
@[simp] theorem log_responses (e : Event) (s : State) : (State.log e s).responses = s.responses := rfl
@[simp] theorem log_ctl (e : Event) (s : State) : (State.log e s).ctl = s.ctl := rfl
@[simp] theorem log_requests (e : Event) (s : State) : (State.log e s).requests = s.requests := rfl
@[simp] theorem log_draws (e : Event) (s : State) : (State.log e s).draws = s.draws := rfl
@[simp] theorem log_calls (e : Event) (s : State) : (State.log e s).calls = s.calls := rfl
@[simp] theorem log_fbWritePort (e : Event) (s : State) : (State.log e s).fbWritePort = s.fbWritePort := rfl

@[simp] theorem respond_mode (r : Response) (s : State) : (State.respond r s).mode = s.mode := rfl
@[simp] theorem respond_busAddr (r : Response) (s : State) : (State.respond r s).busAddr = s.busAddr := rfl
@[simp] theorem respond_debugEn (r : Response) (s : State) : (State.respond r s).debugEn = s.debugEn := rfl
@[simp] theorem respond_fb (r : Response) (s : State) : (State.respond r s).fb = s.fb := rfl
@[simp] theorem respond_txnOpen (r : Response) (s : State) : (State.respond r s).txnOpen = s.txnOpen := rfl
@[simp] theorem respond_seq (r : Response) (s : State) : (State.respond r s).seq = s.seq := rfl
@[simp] theorem respond_trace (r : Response) (s : State) : (State.respond r s).trace = s.trace := rfl
@[simp] theorem respond_dbg (r : Response) (s : State) : (State.respond r s).dbg = s.dbg := rfl
@[simp] theorem respond_responses (r : Response) (s : State) : (State.respond r s).responses = s.responses ++ [r] := rfl
@[simp] theorem respond_ctl (r : Response) (s : State) : (State.respond r s).ctl = s.ctl := rfl
@[simp] theorem respond_requests (r : Response) (s : State) : (State.respond r s).requests = s.requests := rfl
@[simp] theorem respond_draws (r : Response) (s : State) : (State.respond r s).draws = s.draws := rfl
@[simp] theorem respond_calls (r : Response) (s : State) : (State.respond r s).calls = s.calls := rfl
@[simp] theorem respond_fbWritePort (r : Response) (s : State) : (State.respond r s).fbWritePort = s.fbWritePort := rfl

@[simp] theorem drawn_mode (s : State) : (State.drawn s).mode = s.mode := rfl
@[simp] theorem drawn_busAddr (s : State) : (State.drawn s).busAddr = s.busAddr := rfl
@[simp] theorem drawn_debugEn (s : State) : (State.drawn s).debugEn = s.debugEn := rfl
@[simp] theorem drawn_fb (s : State) : (State.drawn s).fb = s.fb := rfl
@[simp] theorem drawn_txnOpen (s : State) : (State.drawn s).txnOpen = s.txnOpen := rfl
@[simp] theorem drawn_seq (s : State) : (State.drawn s).seq = s.seq := rfl
@[simp] theorem drawn_trace (s : State) : (State.drawn s).trace = s.trace := rfl
@[simp] theorem drawn_dbg (s : State) : (State.drawn s).dbg = s.dbg := rfl
@[simp] theorem drawn_responses (s : State) : (State.drawn s).responses = s.responses := rfl
@[simp] theorem drawn_ctl (s : State) : (State.drawn s).ctl = s.ctl := rfl
@[simp] theorem drawn_requests (s : State) : (State.drawn s).requests = s.requests := rfl
@[simp] theorem drawn_draws (s : State) : (State.drawn s).draws = s.draws.drop 1 := rfl
@[simp] theorem drawn_calls (s : State) : (State.drawn s).calls = s.calls + 1 := rfl
@[simp] theorem drawn_fbWritePort (s : State) : (State.drawn s).fbWritePort = s.fbWritePort := rfl

@[simp] theorem withRx_mode (rx : Rx) (s : State) : (State.withRx rx s).mode = s.mode := rfl
@[simp] theorem withRx_busAddr (rx : Rx) (s : State) : (State.withRx rx s).busAddr = s.busAddr := rfl
@[simp] theorem withRx_debugEn (rx : Rx) (s : State) : (State.withRx rx s).debugEn = s.debugEn := rfl
@[simp] theorem withRx_fb (rx : Rx) (s : State) : (State.withRx rx s).fb = s.fb := rfl
@[simp] theorem withRx_txnOpen (rx : Rx) (s : State) : (State.withRx rx s).txnOpen = s.txnOpen := rfl
@[simp] theorem withRx_seq (rx : Rx) (s : State) : (State.withRx rx s).seq = s.seq := rfl
@[simp] theorem withRx_trace (rx : Rx) (s : State) : (State.withRx rx s).trace = s.trace := rfl
@[simp] theorem withRx_dbg (rx : Rx) (s : State) : (State.withRx rx s).dbg = s.dbg := rfl
@[simp] theorem withRx_responses (rx : Rx) (s : State) : (State.withRx rx s).responses = s.responses := rfl
@[simp] theorem withRx_ctl (rx : Rx) (s : State) : (State.withRx rx s).ctl = { s.ctl with rx := rx } := rfl
@[simp] theorem withRx_requests (rx : Rx) (s : State) : (State.withRx rx s).requests = s.requests := rfl
@[simp] theorem withRx_draws (rx : Rx) (s : State) : (State.withRx rx s).draws = s.draws := rfl
@[simp] theorem withRx_calls (rx : Rx) (s : State) : (State.withRx rx s).calls = s.calls := rfl
@[simp] theorem withRx_fbWritePort (rx : Rx) (s : State) : (State.withRx rx s).fbWritePort = s.fbWritePort := rfl

@[simp] theorem startOp_mode (op : BusOp) (s : State) : (startOp op s).mode = s.mode := rfl
@[simp] theorem startOp_busAddr (op : BusOp) (s : State) : (startOp op s).busAddr = s.busAddr := rfl
@[simp] theorem startOp_debugEn (op : BusOp) (s : State) : (startOp op s).debugEn = s.debugEn := rfl
@[simp] theorem startOp_fb (op : BusOp) (s : State) : (startOp op s).fb = s.fb := rfl
@[simp] theorem startOp_txnOpen (op : BusOp) (s : State) : (startOp op s).txnOpen = s.txnOpen := rfl
@[simp] theorem startOp_seq (op : BusOp) (s : State) : (startOp op s).seq = .running op 0 0 := rfl
@[simp] theorem startOp_trace (op : BusOp) (s : State) : (startOp op s).trace = s.trace := rfl
@[simp] theorem startOp_dbg (op : BusOp) (s : State) : (startOp op s).dbg = s.dbg := rfl
@[simp] theorem startOp_responses (op : BusOp) (s : State) : (startOp op s).responses = s.responses := rfl
@[simp] theorem startOp_ctl (op : BusOp) (s : State) : (startOp op s).ctl = s.ctl := rfl
@[simp] theorem startOp_requests (op : BusOp) (s : State) : (startOp op s).requests = s.requests := rfl
@[simp] theorem startOp_draws (op : BusOp) (s : State) : (startOp op s).draws = s.draws := rfl
@[simp] theorem startOp_calls (op : BusOp) (s : State) : (startOp op s).calls = s.calls := rfl
@[simp] theorem startOp_fbWritePort (op : BusOp) (s : State) : (startOp op s).fbWritePort = s.fbWritePort := rfl

@[simp] theorem closeTransaction_mode (s : State) : (closeTransaction s).mode = s.mode := rfl
@[simp] theorem closeTransaction_busAddr (s : State) : (closeTransaction s).busAddr = s.busAddr := rfl
@[simp] theorem closeTransaction_debugEn (s : State) : (closeTransaction s).debugEn = s.debugEn := rfl
@[simp] theorem closeTransaction_fb (s : State) : (closeTransaction s).fb = s.fb := rfl
@[simp] theorem closeTransaction_txnOpen (s : State) : (closeTransaction s).txnOpen = false := rfl
@[simp] theorem closeTransaction_seq (s : State) : (closeTransaction s).seq = s.seq := rfl
@[simp] theorem closeTransaction_trace (s : State) : (closeTransaction s).trace = s.trace ++ [.closed] := rfl
@[simp] theorem closeTransaction_dbg (s : State) : (closeTransaction s).dbg = s.dbg := rfl
@[simp] theorem closeTransaction_responses (s : State) : (closeTransaction s).responses = s.responses := rfl
@[simp] theorem closeTransaction_ctl (s : State) : (closeTransaction s).ctl = { s.ctl with rx := .off } := rfl
@[simp] theorem closeTransaction_requests (s : State) : (closeTransaction s).requests = s.requests := rfl
@[simp] theorem closeTransaction_draws (s : State) : (closeTransaction s).draws = s.draws := rfl
@[simp] theorem closeTransaction_calls (s : State) : (closeTransaction s).calls = s.calls := rfl
@[simp] theorem closeTransaction_fbWritePort (s : State) : (closeTransaction s).fbWritePort = s.fbWritePort := rfl

@[simp] theorem transportClose_mode (s : State) : (transportClose s).mode = s.mode := rfl
@[simp] theorem transportClose_busAddr (s : State) : (transportClose s).busAddr = s.busAddr := rfl
@[simp] theorem transportClose_debugEn (s : State) : (transportClose s).debugEn = s.debugEn := rfl
@[simp] theorem transportClose_fb (s : State) : (transportClose s).fb = s.fb := rfl
@[simp] theorem transportClose_txnOpen (s : State) : (transportClose s).txnOpen = false := rfl
@[simp] theorem transportClose_seq (s : State) : (transportClose s).seq = s.seq.nextFrame := rfl
@[simp] theorem transportClose_trace (s : State) : (transportClose s).trace = s.trace ++ [.closed] := rfl
@[simp] theorem transportClose_dbg (s : State) : (transportClose s).dbg = s.dbg := rfl
@[simp] theorem transportClose_responses (s : State) : (transportClose s).responses = s.responses := rfl
@[simp] theorem transportClose_ctl (s : State) : (transportClose s).ctl = { s.ctl with rx := .off } := rfl
@[simp] theorem transportClose_requests (s : State) : (transportClose s).requests = s.requests := rfl
@[simp] theorem transportClose_draws (s : State) : (transportClose s).draws = s.draws := rfl
@[simp] theorem transportClose_calls (s : State) : (transportClose s).calls = s.calls := rfl
@[simp] theorem transportClose_fbWritePort (s : State) : (transportClose s).fbWritePort = s.fbWritePort := rfl

@[simp] theorem afterCalls_mode (s : State) (n : Nat) : (State.afterCalls s n).mode = s.mode := rfl
@[simp] theorem afterCalls_busAddr (s : State) (n : Nat) : (State.afterCalls s n).busAddr = s.busAddr := rfl
@[simp] theorem afterCalls_debugEn (s : State) (n : Nat) : (State.afterCalls s n).debugEn = s.debugEn := rfl
@[simp] theorem afterCalls_fb (s : State) (n : Nat) : (State.afterCalls s n).fb = s.fb := rfl
@[simp] theorem afterCalls_txnOpen (s : State) (n : Nat) : (State.afterCalls s n).txnOpen = s.txnOpen := rfl
@[simp] theorem afterCalls_seq (s : State) (n : Nat) : (State.afterCalls s n).seq = s.seq := rfl
@[simp] theorem afterCalls_trace (s : State) (n : Nat) : (State.afterCalls s n).trace = s.trace := rfl
@[simp] theorem afterCalls_dbg (s : State) (n : Nat) : (State.afterCalls s n).dbg = s.dbg := rfl
@[simp] theorem afterCalls_responses (s : State) (n : Nat) : (State.afterCalls s n).responses = s.responses := rfl
@[simp] theorem afterCalls_ctl (s : State) (n : Nat) : (State.afterCalls s n).ctl = s.ctl := rfl
@[simp] theorem afterCalls_requests (s : State) (n : Nat) : (State.afterCalls s n).requests = s.requests := rfl
@[simp] theorem afterCalls_draws (s : State) (n : Nat) : (State.afterCalls s n).draws = s.draws.drop n := rfl
@[simp] theorem afterCalls_calls (s : State) (n : Nat) : (State.afterCalls s n).calls = s.calls + n := rfl
@[simp] theorem afterCalls_fbWritePort (s : State) (n : Nat) : (State.afterCalls s n).fbWritePort = s.fbWritePort := rfl

@[simp] theorem afterOpen_mode (s : State) : (State.afterOpen s).mode = s.mode := rfl
@[simp] theorem afterOpen_busAddr (s : State) : (State.afterOpen s).busAddr = s.busAddr := rfl
@[simp] theorem afterOpen_debugEn (s : State) : (State.afterOpen s).debugEn = s.debugEn := rfl
@[simp] theorem afterOpen_fb (s : State) : (State.afterOpen s).fb = s.fb := rfl
@[simp] theorem afterOpen_txnOpen (s : State) : (State.afterOpen s).txnOpen = true := rfl
@[simp] theorem afterOpen_seq (s : State) : (State.afterOpen s).seq = s.seq.nextCall := rfl
@[simp] theorem afterOpen_trace (s : State) : (State.afterOpen s).trace = s.trace ++ [.opened .ok] := rfl
@[simp] theorem afterOpen_dbg (s : State) : (State.afterOpen s).dbg = s.dbg := rfl
@[simp] theorem afterOpen_responses (s : State) : (State.afterOpen s).responses = s.responses := rfl
@[simp] theorem afterOpen_ctl (s : State) : (State.afterOpen s).ctl = { s.ctl with rx := .off } := rfl
@[simp] theorem afterOpen_requests (s : State) : (State.afterOpen s).requests = s.requests := rfl
@[simp] theorem afterOpen_draws (s : State) : (State.afterOpen s).draws = s.draws.drop 1 := rfl
@[simp] theorem afterOpen_calls (s : State) : (State.afterOpen s).calls = s.calls + 1 := rfl
@[simp] theorem afterOpen_fbWritePort (s : State) : (State.afterOpen s).fbWritePort = s.fbWritePort := rfl

@[simp] theorem afterBytes_mode (s : State) (w : List Byte) (c : Controller) : (State.afterBytes s w c).mode = s.mode := rfl
@[simp] theorem afterBytes_busAddr (s : State) (w : List Byte) (c : Controller) : (State.afterBytes s w c).busAddr = s.busAddr := rfl
@[simp] theorem afterBytes_debugEn (s : State) (w : List Byte) (c : Controller) : (State.afterBytes s w c).debugEn = s.debugEn := rfl
@[simp] theorem afterBytes_fb (s : State) (w : List Byte) (c : Controller) : (State.afterBytes s w c).fb = s.fb := rfl
@[simp] theorem afterBytes_txnOpen (s : State) (w : List Byte) (c : Controller) : (State.afterBytes s w c).txnOpen = s.txnOpen := rfl
@[simp] theorem afterBytes_seq (s : State) (w : List Byte) (c : Controller) : (State.afterBytes s w c).seq = s.seq.advance w.length := rfl
@[simp] theorem afterBytes_trace (s : State) (w : List Byte) (c : Controller) : (State.afterBytes s w c).trace = s.trace ++ w.map fun b => .wrote b .ok := rfl
@[simp] theorem afterBytes_dbg (s : State) (w : List Byte) (c : Controller) : (State.afterBytes s w c).dbg = s.dbg := rfl
@[simp] theorem afterBytes_responses (s : State) (w : List Byte) (c : Controller) : (State.afterBytes s w c).responses = s.responses := rfl
@[simp] theorem afterBytes_ctl (s : State) (w : List Byte) (c : Controller) : (State.afterBytes s w c).ctl = c := rfl
@[simp] theorem afterBytes_requests (s : State) (w : List Byte) (c : Controller) : (State.afterBytes s w c).requests = s.requests := rfl
@[simp] theorem afterBytes_draws (s : State) (w : List Byte) (c : Controller) : (State.afterBytes s w c).draws = s.draws.drop w.length := rfl
@[simp] theorem afterBytes_calls (s : State) (w : List Byte) (c : Controller) : (State.afterBytes s w c).calls = s.calls + w.length := rfl
@[simp] theorem afterBytes_fbWritePort (s : State) (w : List Byte) (c : Controller) : (State.afterBytes s w c).fbWritePort = s.fbWritePort := rfl

@[simp] theorem afterFrame_mode (s : State) (w : List Byte) (c : Controller) : (State.afterFrame s w c).mode = s.mode := rfl
@[simp] theorem afterFrame_busAddr (s : State) (w : List Byte) (c : Controller) : (State.afterFrame s w c).busAddr = s.busAddr := rfl
@[simp] theorem afterFrame_debugEn (s : State) (w : List Byte) (c : Controller) : (State.afterFrame s w c).debugEn = s.debugEn := rfl
@[simp] theorem afterFrame_fb (s : State) (w : List Byte) (c : Controller) : (State.afterFrame s w c).fb = s.fb := rfl
@[simp] theorem afterFrame_txnOpen (s : State) (w : List Byte) (c : Controller) : (State.afterFrame s w c).txnOpen = false := rfl
@[simp] theorem afterFrame_seq (s : State) (w : List Byte) (c : Controller) : (State.afterFrame s w c).seq = s.seq.nextFrame := rfl
@[simp] theorem afterFrame_trace (s : State) (w : List Byte) (c : Controller) : (State.afterFrame s w c).trace = s.trace ++ frameTrace w := rfl
@[simp] theorem afterFrame_dbg (s : State) (w : List Byte) (c : Controller) : (State.afterFrame s w c).dbg = s.dbg := rfl
@[simp] theorem afterFrame_responses (s : State) (w : List Byte) (c : Controller) : (State.afterFrame s w c).responses = s.responses := rfl
@[simp] theorem afterFrame_ctl (s : State) (w : List Byte) (c : Controller) : (State.afterFrame s w c).ctl = { c with rx := .off } := rfl
@[simp] theorem afterFrame_requests (s : State) (w : List Byte) (c : Controller) : (State.afterFrame s w c).requests = s.requests := rfl
@[simp] theorem afterFrame_draws (s : State) (w : List Byte) (c : Controller) : (State.afterFrame s w c).draws = s.draws.drop (w.length + 1) := rfl
@[simp] theorem afterFrame_calls (s : State) (w : List Byte) (c : Controller) : (State.afterFrame s w c).calls = s.calls + (w.length + 1) := rfl
@[simp] theorem afterFrame_fbWritePort (s : State) (w : List Byte) (c : Controller) : (State.afterFrame s w c).fbWritePort = s.fbWritePort := rfl

/-- `trace(e)` touches DBG alone (R121). -/
theorem notify_eq (e : Notice) (s : State) :
    s.notify e = { s with dbg := if s.debugEn then s.dbg ++ [Config.traceText e] else s.dbg } := by
  unfold State.notify
  split <;> rfl

@[simp] theorem notify_mode (e : Notice) (s : State) : (s.notify e).mode = s.mode := by rw [notify_eq]
@[simp] theorem notify_busAddr (e : Notice) (s : State) : (s.notify e).busAddr = s.busAddr := by rw [notify_eq]
@[simp] theorem notify_debugEn (e : Notice) (s : State) : (s.notify e).debugEn = s.debugEn := by rw [notify_eq]
@[simp] theorem notify_fb (e : Notice) (s : State) : (s.notify e).fb = s.fb := by rw [notify_eq]
@[simp] theorem notify_txnOpen (e : Notice) (s : State) : (s.notify e).txnOpen = s.txnOpen := by rw [notify_eq]
@[simp] theorem notify_seq (e : Notice) (s : State) : (s.notify e).seq = s.seq := by rw [notify_eq]
@[simp] theorem notify_trace (e : Notice) (s : State) : (s.notify e).trace = s.trace := by rw [notify_eq]
@[simp] theorem notify_dbg (e : Notice) (s : State) :
    (s.notify e).dbg = if s.debugEn then s.dbg ++ [Config.traceText e] else s.dbg := by rw [notify_eq]
@[simp] theorem notify_responses (e : Notice) (s : State) : (s.notify e).responses = s.responses := by rw [notify_eq]
@[simp] theorem notify_ctl (e : Notice) (s : State) : (s.notify e).ctl = s.ctl := by rw [notify_eq]
@[simp] theorem notify_requests (e : Notice) (s : State) : (s.notify e).requests = s.requests := by rw [notify_eq]
@[simp] theorem notify_draws (e : Notice) (s : State) : (s.notify e).draws = s.draws := by rw [notify_eq]
@[simp] theorem notify_calls (e : Notice) (s : State) : (s.notify e).calls = s.calls := by rw [notify_eq]
@[simp] theorem notify_fbWritePort (e : Notice) (s : State) : (s.notify e).fbWritePort = s.fbWritePort := by rw [notify_eq]

/-! ### The results still to come -/

@[simp] theorem resultAhead_drawn (s : State) (k : Nat) : s.drawn.resultAhead k = s.resultAhead (k + 1) := by
  simp [State.resultAhead, Nat.add_comm, Nat.add_left_comm]

/-- What a result is depends on the named results and the number of calls alone. -/
theorem resultAhead_congr {s t : State} (hd : t.draws = s.draws) (hc : t.calls = s.calls) (k : Nat) :
    t.resultAhead k = s.resultAhead k := by
  simp [State.resultAhead, hd, hc]

/-- The results after n calls are those n further ahead. -/
theorem resultAhead_afterCalls (s : State) (n k : Nat) :
    (s.afterCalls n).resultAhead k = s.resultAhead (n + k) := by
  simp [State.resultAhead, Nat.add_assoc]

theorem afterCalls_zero (s : State) : s.afterCalls 0 = s := by
  simp [State.afterCalls]

theorem afterCalls_add (s : State) (m n : Nat) : (s.afterCalls m).afterCalls n = s.afterCalls (m + n) := by
  simp [State.afterCalls, Nat.add_assoc]

theorem drawn_eq_afterCalls (s : State) : s.drawn = s.afterCalls 1 := rfl

end Sys2Proof.Machine
end

