-- ==== Sys2Proof/Laws/Transport.lean ====
section
/-! SUPPORT. What the Transport calls, the frame procedure and the raising of an error do: said once for each, so that
a proof about an operation cites these and unfolds nothing below them. -/

namespace Sys2Proof.Machine

/-! ### Flow -/

@[simp] theorem go_andThen (s : State) (f : State → Flow) : (Flow.go s).andThen f = f s := rfl
@[simp] theorem stop_andThen (s : State) (f : State → Flow) : (Flow.stop s).andThen f = .stop s := rfl
@[simp] theorem go_finish (s : State) (f : State → State) : (Flow.go s).finish f = f s := rfl
@[simp] theorem stop_finish (s : State) (f : State → State) : (Flow.stop s).finish f = s := rfl
@[simp] theorem go_state (s : State) : (Flow.go s).state = s := rfl
@[simp] theorem stop_state (s : State) : (Flow.stop s).state = s := rfl

/-- Calls that went on went on twice. -/
theorem andThen_eq_go {x : Flow} {f : State → Flow} {t : State} (h : x.andThen f = .go t) :
    ∃ u, x = .go u ∧ f u = .go t := by
  cases x with
  | go u => exact ⟨u, rfl, h⟩
  | stop u => cases h

/-- Calls that stopped stopped in the first part or in the second. -/
theorem andThen_eq_stop {x : Flow} {f : State → Flow} {t : State} (h : x.andThen f = .stop t) :
    x = .stop t ∨ ∃ u, x = .go u ∧ f u = .stop t := by
  cases x with
  | go u => exact .inr ⟨u, rfl, h⟩
  | stop u => exact .inl h

/-! ### The sequencer -/

@[simp] theorem advance_zero (q : Sequencer) : q.advance 0 = q := by cases q <;> rfl
@[simp] theorem advance_nextCall (q : Sequencer) (n : Nat) : q.nextCall.advance n = q.advance (n + 1) := by
  cases q <;> simp [Sequencer.nextCall, Sequencer.advance, Nat.add_comm, Nat.add_left_comm]
@[simp] theorem nextFrame_nextCall (q : Sequencer) : q.nextCall.nextFrame = q.nextFrame := by cases q <;> rfl
@[simp] theorem nextFrame_advance (q : Sequencer) (n : Nat) : (q.advance n).nextFrame = q.nextFrame := by
  cases q <;> rfl

/-! ### Results -/

theorem allOk_zero {s : State} : s.allOk 0 := fun _ h => absurd h (Nat.not_lt_zero _)

theorem allOk_mono {s : State} {m n : Nat} (h : s.allOk n) (hmn : m ≤ n) : s.allOk m :=
  fun k hk => h k (Nat.lt_of_lt_of_le hk hmn)

/-- The first of n + 1 results is Ok, and the n after it. -/
theorem allOk_succ {s : State} {n : Nat} : s.allOk (n + 1) ↔ s.resultAhead 0 = .ok ∧ s.drawn.allOk n := by
  constructor
  · intro h
    exact ⟨h 0 (Nat.succ_pos n), fun k hk => by simpa using h (k + 1) (Nat.succ_lt_succ hk)⟩
  · rintro ⟨h0, h⟩ k hk
    cases k with
    | zero => exact h0
    | succ k => simpa using h k (Nat.lt_of_succ_lt_succ hk)

/-- Results depend on the named results and the number of calls alone. -/
theorem allOk_congr {s t : State} (hd : t.draws = s.draws) (hc : t.calls = s.calls) {n : Nat} :
    t.allOk n ↔ s.allOk n := by
  simp only [State.allOk, resultAhead_congr hd hc]

theorem allOk_afterCalls {s : State} {m n : Nat} (h : s.allOk (m + n)) : (s.afterCalls m).allOk n := by
  intro k hk
  rw [resultAhead_afterCalls]
  exact h _ (by omega)

theorem failsAt_congr {s t : State} (hd : t.draws = s.draws) (hc : t.calls = s.calls) {j : Nat} :
    t.failsAt j ↔ s.failsAt j := by
  simp only [State.failsAt, allOk_congr hd hc, resultAhead_congr hd hc]

theorem failsAt_zero {s : State} : s.failsAt 0 ↔ s.resultAhead 0 = .fail :=
  ⟨fun h => h.2, fun h => ⟨allOk_zero, h⟩⟩

theorem failsAt_succ {s : State} {j : Nat} :
    s.failsAt (j + 1) ↔ s.resultAhead 0 = .ok ∧ s.drawn.failsAt j := by
  simp only [State.failsAt, allOk_succ, resultAhead_drawn, and_assoc]

theorem failsAt_afterCalls {s : State} {m j : Nat} (h : s.failsAt (m + j)) : (s.afterCalls m).failsAt j :=
  ⟨allOk_afterCalls h.1, by rw [resultAhead_afterCalls]; exact h.2⟩

/-- Of n results, all are Ok or some first one fails. -/
theorem allOk_or_failsAt (s : State) (n : Nat) : s.allOk n ∨ ∃ j, j < n ∧ s.failsAt j := by
  induction n with
  | zero => exact .inl allOk_zero
  | succ n ih =>
    rcases ih with h | ⟨j, hj, hf⟩
    · cases hr : s.resultAhead n with
      | ok =>
        refine .inl fun k hk => ?_
        rcases Nat.lt_succ_iff_lt_or_eq.1 hk with hk | rfl
        · exact h k hk
        · exact hr
      | fail => exact .inr ⟨n, Nat.lt_succ_self n, h, hr⟩
    · exact .inr ⟨j, Nat.lt_succ_of_lt hj, hf⟩

/-! ### What no Transport call touches -/

theorem Kept.refl (s : State) : Kept s s := ⟨rfl, rfl, rfl, rfl, rfl, rfl, rfl⟩

theorem Kept.trans {s t u : State} (h : Kept s t) (h' : Kept t u) : Kept s u :=
  ⟨h'.mode.trans h.mode, h'.busAddr.trans h.busAddr, h'.debugEn.trans h.debugEn, h'.fb.trans h.fb,
    h'.dbg.trans h.dbg, h'.requests.trans h.requests, h'.fbWritePort.trans h.fbWritePort⟩

/-! ### Raising an error (R162) -/

/-- `raise E` with a transaction open. -/
theorem raiseError_open {s : State} (e : Response) (h : s.txnOpen = true) :
    raiseError e s =
      { s with txnOpen := false, seq := .idle, trace := s.trace ++ [.closed], responses := s.responses ++ [e],
               ctl := { s.ctl with rx := .off } } := by
  simp [raiseError, h, closeTransaction, State.log, State.withRx, State.respond]

/-- `raise E` with no transaction open. -/
theorem raiseError_closed {s : State} (e : Response) (h : s.txnOpen = false) :
    raiseError e s = { s with seq := .idle, responses := s.responses ++ [e] } := by
  simp [raiseError, h, State.respond]

/-- An error leaves MODE, BUS_ADDR, DEBUG_EN, FB and the inputs as they are: nothing is rolled back. -/
theorem raiseError_kept (e : Response) (s : State) : Kept s (raiseError e s) := by
  cases h : s.txnOpen
  · rw [raiseError_closed e h]
    exact ⟨rfl, rfl, rfl, rfl, rfl, rfl, rfl⟩
  · rw [raiseError_open e h]
    exact ⟨rfl, rfl, rfl, rfl, rfl, rfl, rfl⟩

@[simp] theorem raiseError_seq (e : Response) (s : State) : (raiseError e s).seq = .idle := by
  simp [raiseError, State.respond]

@[simp] theorem raiseError_txnOpen (e : Response) (s : State) : (raiseError e s).txnOpen = false := by
  cases h : s.txnOpen
  · rw [raiseError_closed e h]
    exact h
  · rw [raiseError_open e h]

@[simp] theorem raiseError_responses (e : Response) (s : State) :
    (raiseError e s).responses = s.responses ++ [e] := by
  cases h : s.txnOpen
  · rw [raiseError_closed e h]
  · rw [raiseError_open e h]

theorem raiseError_cram (e : Response) (s : State) : (raiseError e s).ctl.cram = s.ctl.cram := by
  cases h : s.txnOpen
  · rw [raiseError_closed e h]
  · rw [raiseError_open e h]

@[simp] theorem raiseError_draws (e : Response) (s : State) : (raiseError e s).draws = s.draws := by
  cases h : s.txnOpen
  · rw [raiseError_closed e h]
  · rw [raiseError_open e h]

@[simp] theorem raiseError_calls (e : Response) (s : State) : (raiseError e s).calls = s.calls := by
  cases h : s.txnOpen
  · rw [raiseError_closed e h]
  · rw [raiseError_open e h]

theorem loseAll_rx (n : Nat) (c : Controller) : (c.loseAll n).rx = c.rx := by simp only [Controller.loseAll]

theorem loseCursor_rx (n : Nat) (c : Controller) : (c.loseCursor n).rx = c.rx := by
  simp only [Controller.loseCursor]

/-- The controller's contents aside, nothing: what is not known after a failed SYNC (R116). -/
theorem loseImageOfSync_eq (s : State) :
    ∃ c, c.rx = s.ctl.rx ∧ loseImageOfSync s = { s with ctl := c } := by
  unfold loseImageOfSync
  split
  · exact ⟨s.ctl.loseAll s.calls, loseAll_rx _ _, by simp only⟩
  all_goals exact ⟨s.ctl, rfl, rfl⟩

/-- The controller's contents aside, nothing: what is not known after a failed frame (R76). -/
theorem loseFrame_eq (s : State) : ∃ c, c.rx = s.ctl.rx ∧ loseFrame s = { s with ctl := c } := by
  unfold loseFrame
  split
  · exact ⟨s.ctl, rfl, rfl⟩
  · exact ⟨s.ctl, rfl, rfl⟩
  · split
    · exact ⟨s.ctl, rfl, rfl⟩
    · exact ⟨s.ctl.loseCursor s.calls, loseCursor_rx _ _, by simp only⟩
  · split
    · exact ⟨s.ctl, rfl, rfl⟩
    · exact ⟨s.ctl.loseCursor s.calls, loseCursor_rx _ _, by simp only⟩
  · exact ⟨s.ctl.loseAll s.calls, loseAll_rx _ _, by simp only⟩

/-- The state an error is raised on after a failed write differs from the one before in the controller's contents
alone. -/
theorem lost_eq (s : State) : ∃ c, c.rx = s.ctl.rx ∧ loseImageOfSync (loseFrame s) = { s with ctl := c } := by
  obtain ⟨c, hc, h⟩ := loseFrame_eq s
  obtain ⟨d, hd, h'⟩ := loseImageOfSync_eq (loseFrame s)
  exact ⟨d, by rw [hd, h]; exact hc, by rw [h', h]⟩

/-! ### One call -/

/-- `T.open()` that succeeds (R74). -/
theorem transportOpen_ok {s : State} (h : s.resultAhead 0 = .ok) : transportOpen s = .go s.afterOpen := by
  simp only [transportOpen, h]
  rfl

/-- `T.open()` that fails (R75): no close is owed. -/
theorem transportOpen_fail {s : State} (h : s.resultAhead 0 = .fail) :
    transportOpen s = .stop (raiseError .transportError (loseImageOfSync (s.drawn.log (.opened .fail)))) := by
  simp [transportOpen, h]

/-- `T.write(b)` that succeeds (R74). -/
theorem transportWrite_ok {s : State} {b : Byte} {take : Nat → Controller → Controller}
    (h : s.resultAhead 0 = .ok) : transportWrite b take s = .go (s.afterBytes [b] (take s.calls s.ctl)) := by
  simp only [transportWrite, h]
  cases hq : s.seq <;>
    simp [State.log, State.drawn, State.afterBytes, Sequencer.nextCall, Sequencer.advance, hq]

/-- Bytes written after bytes written. -/
theorem afterBytes_afterBytes (s : State) (v w : List Byte) (c d : Controller) :
    (s.afterBytes v c).afterBytes w d = s.afterBytes (v ++ w) d := by
  cases hq : s.seq <;>
    simp [State.afterBytes, Sequencer.advance, hq, Nat.add_assoc]

theorem afterBytes_nil (s : State) : s.afterBytes [] s.ctl = s := by
  simp [State.afterBytes]

/-- A frame is its open, its bytes and its close. -/
theorem transportClose_afterBytes_afterOpen (s : State) (w : List Byte) (c : Controller) :
    transportClose (s.afterOpen.afterBytes w c) = s.afterFrame w c := by
  cases hq : s.seq <;>
    simp [transportClose, closeTransaction, State.log, State.withRx, State.afterBytes, State.afterOpen,
      State.afterFrame, frameTrace, Sequencer.advance, Sequencer.nextCall, Sequencer.nextFrame, hq, Nat.add_assoc,
      Nat.add_comm 1]

/-- The results after a first Ok are those of the state after that call. -/
theorem allOk_afterBytes_one {s : State} {n : Nat} {b : Byte} {c : Controller} (h : s.drawn.allOk n) :
    (s.afterBytes [b] c).allOk n := (allOk_congr rfl rfl).2 h

theorem failsAt_afterBytes_one {s : State} {j : Nat} {b : Byte} {c : Controller} (h : s.drawn.failsAt j) :
    (s.afterBytes [b] c).failsAt j := (failsAt_congr rfl rfl).2 h

theorem allOk_afterOpen {s : State} {n : Nat} (h : s.drawn.allOk n) : s.afterOpen.allOk n :=
  (allOk_congr rfl rfl).2 h

theorem failsAt_afterOpen {s : State} {j : Nat} (h : s.drawn.failsAt j) : s.afterOpen.failsAt j :=
  (failsAt_congr rfl rfl).2 h

theorem kept_afterBytes (s : State) (w : List Byte) (c : Controller) : Kept s (s.afterBytes w c) :=
  ⟨rfl, rfl, rfl, rfl, rfl, rfl, rfl⟩

theorem kept_afterOpen (s : State) : Kept s s.afterOpen := ⟨rfl, rfl, rfl, rfl, rfl, rfl, rfl⟩

theorem kept_afterFrame (s : State) (w : List Byte) (c : Controller) : Kept s (s.afterFrame w c) :=
  ⟨rfl, rfl, rfl, rfl, rfl, rfl, rfl⟩

/-- `T.write(b)` that fails (R76). -/
theorem transportWrite_fail {s : State} {b : Byte} {take : Nat → Controller → Controller}
    (h : s.resultAhead 0 = .fail) :
    transportWrite b take s =
      .stop (raiseError .transportError (loseImageOfSync (loseFrame (s.drawn.log (.wrote b .fail))))) := by
  simp [transportWrite, h]

/-- What an aborted operation says of the state before it, it says of an earlier state with the same registers. -/
theorem Aborted.of_kept {s t u : State} (h : Kept s t) (hr : t.responses = s.responses) (ha : Aborted t u) :
    Aborted s u :=
  ⟨h.trans ha.toKept, by rw [ha.responses, hr], ha.seq, ha.txnOpen⟩

/-- A failed write with a transaction open: the failed event, the close, the error (R76). -/
theorem transportWrite_aborts {s : State} (b : Byte) (take : Nat → Controller → Controller)
    (h : s.resultAhead 0 = .fail) (ho : s.txnOpen = true) :
    ∃ t, transportWrite b take s = .stop t ∧ Aborted s t ∧ t.ctl.rx = .off ∧
      t.trace = s.trace ++ [.wrote b .fail, .closed] := by
  rw [transportWrite_fail h]
  obtain ⟨c, -, hc⟩ := lost_eq (s.drawn.log (.wrote b .fail))
  rw [hc, raiseError_open _ (by simpa using ho)]
  exact ⟨_, rfl, ⟨⟨rfl, rfl, rfl, rfl, rfl, rfl, rfl⟩, rfl, rfl, rfl⟩, rfl, by simp⟩

/-- A failed open outside a transaction: the failed event and the error, no close (R75). -/
theorem transportOpen_aborts {s : State} (h : s.resultAhead 0 = .fail) (ho : s.txnOpen = false) :
    ∃ t, transportOpen s = .stop t ∧ Aborted s t ∧ t.ctl.rx = s.ctl.rx ∧
      t.trace = s.trace ++ [.opened .fail] := by
  rw [transportOpen_fail h]
  obtain ⟨c, hx, hc⟩ := loseImageOfSync_eq (s.drawn.log (.opened .fail))
  rw [hc, raiseError_closed _ (by simpa using ho)]
  exact ⟨_, rfl, ⟨⟨rfl, rfl, rfl, rfl, rfl, rfl, rfl⟩, rfl, rfl, ho⟩, hx, rfl⟩

/-! ### A frame whose every call succeeds -/

/-- The control byte fixes the place, so what the address byte left it at does not matter. -/
@[simp] theorem takeControl_takeAddress (kind : StreamKind) (c : Controller) :
    c.takeAddress.takeControl kind = c.takeControl kind := by
  cases kind <;> rfl

/-- The payload bytes, all Ok. -/
theorem writePayloads_ok (p : List Byte) {s : State} (h : s.allOk p.length) :
    writePayloads p s = .go (s.afterBytes p (Controller.takePayloads s.calls p s.ctl)) := by
  induction p generalizing s with
  | nil => rw [writePayloads, Controller.takePayloads, afterBytes_nil]
  | cons b p ih =>
    obtain ⟨h0, h1⟩ := allOk_succ.1 h
    rw [writePayloads, writePayload, transportWrite_ok h0, go_andThen, ih (allOk_afterBytes_one h1),
      afterBytes_afterBytes]
    rfl

/-- The rest of a frame after its open, all Ok. -/
theorem sendBody_ok (kind : StreamKind) (p : List Byte) {s : State} (h : s.allOk (p.length + 2)) :
    sendBody kind p s =
      .go (transportClose (s.afterBytes (frameBytes s.busAddr kind p)
        (Controller.takePayloads (s.calls + 2) p (s.ctl.takeControl kind)))) := by
  obtain ⟨h0, h1⟩ := allOk_succ.1 h
  obtain ⟨h2, h3⟩ := allOk_succ.1 (allOk_afterBytes_one (b := addressByte s.busAddr) (c := s.ctl.takeAddress) h1)
  unfold sendBody writeAddress
  rw [transportWrite_ok h0, go_andThen, writeControl, transportWrite_ok h2, go_andThen,
    writePayloads_ok p (allOk_afterBytes_one h3), go_andThen, afterBytes_afterBytes, afterBytes_afterBytes]
  rfl

/-- `send_stream` with every result Ok (R74): one complete frame, and the controller has taken it. -/
theorem sendStream_ok (kind : StreamKind) (p : List Byte) {s : State} (h : s.allOk (p.length + 3)) :
    sendStream kind p s =
      .go (s.afterFrame (frameBytes s.busAddr kind p)
        (Controller.takeFrame s.calls kind p { s.ctl with rx := .off })) := by
  obtain ⟨h0, h1⟩ := allOk_succ.1 h
  rw [sendStream, transportOpen_ok h0, go_andThen, sendBody_ok kind p (allOk_afterOpen h1),
    transportClose_afterBytes_afterOpen]
  simp only [afterOpen_calls, afterOpen_busAddr, afterOpen_ctl, Controller.takeFrame, State.afterFrame,
    Nat.add_assoc, Nat.reduceAdd]

/-! ### A frame in which a call fails -/

/-- A payload byte fails: the trace is cut there and the operation is over (R76). -/
theorem writePayloads_fails (p : List Byte) {s : State} {j : Nat} (h : s.failsAt j) (hj : j < p.length)
    (ho : s.txnOpen = true) :
    ∃ t, writePayloads p s = .stop t ∧ Aborted s t ∧ t.ctl.rx = .off ∧ t.trace = s.trace ++ cutTrace p j := by
  induction p generalizing s j with
  | nil => exact absurd hj (Nat.not_lt_zero _)
  | cons b p ih =>
    cases j with
    | zero =>
      obtain ⟨t, ht, ha, hr, htr⟩ :=
        transportWrite_aborts b (fun n c => c.takePayload n b) (failsAt_zero.1 h) ho
      exact ⟨t, by rw [writePayloads, writePayload, ht, stop_andThen], ha, hr, by simpa [cutTrace] using htr⟩
    | succ j =>
      obtain ⟨h0, h1⟩ := failsAt_succ.1 h
      rw [writePayloads, writePayload, transportWrite_ok h0, go_andThen]
      obtain ⟨t, ht, ha, hr, htr⟩ := ih (failsAt_afterBytes_one h1) (Nat.lt_of_succ_lt_succ hj) ho
      exact ⟨t, ht, ha.of_kept (kept_afterBytes _ _ _) rfl, hr, by rw [htr]; simp [cutTrace]⟩

/-- A byte of a frame after its open fails (R76). -/
theorem sendBody_fails (kind : StreamKind) (p : List Byte) {s : State} {j : Nat} (h : s.failsAt j)
    (hj : j < p.length + 2) (ho : s.txnOpen = true) :
    ∃ t, sendBody kind p s = .stop t ∧ Aborted s t ∧ t.ctl.rx = .off ∧
      t.trace = s.trace ++ cutTrace (frameBytes s.busAddr kind p) j := by
  cases j with
  | zero =>
    obtain ⟨t, ht, ha, hr, htr⟩ :=
      transportWrite_aborts (addressByte s.busAddr) (fun _ c => c.takeAddress) (failsAt_zero.1 h) ho
    exact ⟨t, by rw [sendBody, writeAddress, ht]; rfl, ha, hr, by simpa [cutTrace, frameBytes] using htr⟩
  | succ j =>
    obtain ⟨h0, h1⟩ := failsAt_succ.1 h
    replace h1 := failsAt_afterBytes_one (b := addressByte s.busAddr) (c := s.ctl.takeAddress) h1
    rw [sendBody, writeAddress, transportWrite_ok h0, go_andThen]
    cases j with
    | zero =>
      obtain ⟨t, ht, ha, hr, htr⟩ :=
        transportWrite_aborts kind.controlByte (fun _ c => c.takeControl kind) (failsAt_zero.1 h1) ho
      exact ⟨t, by rw [writeControl, ht]; rfl, ha.of_kept (kept_afterBytes _ _ _) rfl, hr,
        by rw [htr]; simp [cutTrace, frameBytes]⟩
    | succ j =>
      obtain ⟨h2, h3⟩ := failsAt_succ.1 h1
      rw [writeControl, transportWrite_ok h2, go_andThen, afterBytes_afterBytes]
      replace h3 := failsAt_afterBytes_one (b := kind.controlByte) (c := s.ctl.takeControl kind) h3
      rw [afterBytes_afterBytes] at h3
      obtain ⟨t, ht, ha, hr, htr⟩ := writePayloads_fails p h3 (by omega) ho
      exact ⟨t, by simp only [afterBytes_ctl, takeControl_takeAddress, ht, stop_andThen], ha.of_kept (kept_afterBytes _ _ _) rfl, hr,
        by rw [htr]; simp [cutTrace, frameBytes]⟩

/-- `send_stream` in which the call j ahead fails (R75, R76): TRACE gains what `abortTrace` says. -/
theorem sendStream_fails (kind : StreamKind) (p : List Byte) {s : State} {j : Nat} (h : s.failsAt j)
    (hj : j < p.length + 3) (ho : s.txnOpen = false) :
    ∃ t, sendStream kind p s = .stop t ∧ Aborted s t ∧ (s.ctl.rx = .off → t.ctl.rx = .off) ∧
      t.trace = s.trace ++ abortTrace [frameBytes s.busAddr kind p] j := by
  cases j with
  | zero =>
    obtain ⟨t, ht, ha, hrx, htr⟩ := transportOpen_aborts (failsAt_zero.1 h) ho
    exact ⟨t, by rw [sendStream, ht, stop_andThen], ha, fun hr => hrx.trans hr, by simpa [abortTrace] using htr⟩
  | succ j =>
    obtain ⟨h0, h1⟩ := failsAt_succ.1 h
    rw [sendStream, transportOpen_ok h0, go_andThen]
    obtain ⟨t, ht, ha, hrx, htr⟩ := sendBody_fails kind p (failsAt_afterOpen h1) (by omega) rfl
    have hl : j + 1 ≤ (frameBytes s.busAddr kind p).length := by simp [frameBytes]; omega
    exact ⟨t, ht, ha.of_kept (kept_afterOpen _) rfl, fun _ => hrx, by rw [htr]; simp [abortTrace, hl]⟩

/-- `send_stream` either completes its frame or ends its operation, whatever the Transport answers. -/
theorem sendStream_cases (kind : StreamKind) (p : List Byte) (s : State) (ho : s.txnOpen = false) :
    (s.allOk (p.length + 3) ∧
      sendStream kind p s =
        .go (s.afterFrame (frameBytes s.busAddr kind p)
          (Controller.takeFrame s.calls kind p { s.ctl with rx := .off }))) ∨
    ∃ j t, j < p.length + 3 ∧ s.failsAt j ∧ sendStream kind p s = .stop t ∧ Aborted s t ∧
      (s.ctl.rx = .off → t.ctl.rx = .off) ∧ t.trace = s.trace ++ abortTrace [frameBytes s.busAddr kind p] j := by
  rcases allOk_or_failsAt s (p.length + 3) with h | ⟨j, hj, h⟩
  · exact .inl ⟨h, sendStream_ok kind p h⟩
  · obtain ⟨t, ht, ha, hx, htr⟩ := sendStream_fails kind p h hj ho
    exact .inr ⟨j, t, hj, h, ht, ha, hx, htr⟩

end Sys2Proof.Machine
end

