-- ==== Sys2Proof/Laws/Controller.lean ====
section
/-! SUPPORT. What the controller takes from a frame (46_controller_commands.md): commands leave CRAM alone, an address
frame sets page and column, a data frame from column 0 writes its page. -/

namespace Sys2Proof.Machine

/-! ### One byte -/

/-- A command changes neither CRAM nor the place in the frame (R39). -/
@[simp] theorem obey_cram (i : Instr) (c : Controller) : (c.obey i).cram = c.cram := by
  cases i <;> rfl

@[simp] theorem obey_rx (i : Instr) (c : Controller) : (c.obey i).rx = c.rx := by
  cases i <;> rfl

/-- A command byte that is a whole command. -/
theorem takePayload_command {c : Controller} {b : Byte} {i : Instr} (n : Nat) (hc : c.rx = .command)
    (ho : isTwoByteOpener b = false) (hb : decodeOneByte b = some i) : c.takePayload n b = c.obey i := by
  simp [Controller.takePayload, Controller.takeCommand, hc, ho, hb]

/-- The opener of a two-byte command. -/
theorem takePayload_opener {c : Controller} {b : Byte} (n : Nat) (hc : c.rx = .command)
    (ho : isTwoByteOpener b = true) : c.takePayload n b = { c with rx := .operand } := by
  simp [Controller.takePayload, Controller.takeCommand, hc, ho]

/-- The data byte of a two-byte command is no command, whatever its value (R57). -/
theorem takePayload_operand {c : Controller} (n : Nat) (b : Byte) (hc : c.rx = .operand) :
    c.takePayload n b = { c with rx := .command } := by
  simp [Controller.takePayload, hc]

/-- A pixel byte inside the 132 columns (R37). -/
theorem takePayload_pixel {c : Controller} (n : Nat) (d : Byte) (hc : c.rx = .data)
    (hcol : c.ccol.toNat ≤ Config.maxColumn) :
    c.takePayload n d =
      { c with cram := c.cram.write (index c.cpage.toNat c.ccol.toNat) d, ccol := c.ccol + 1 } := by
  simp [Controller.takePayload, Controller.takePixel, hc, hcol]

/-- A pixel byte past the last column (R38). -/
theorem takePayload_past {c : Controller} (n : Nat) (d : Byte) (hc : c.rx = .data)
    (hcol : Config.maxColumn < c.ccol.toNat) : c.takePayload n d = c.overflow n := by
  simp [Controller.takePayload, Controller.takePixel, hc, Nat.not_le.2 hcol]

/-- The index of a cell of the controller RAM exists (R34). -/
theorem index_lt (p : BitVec 3) {col : Nat} (h : col ≤ Config.maxColumn) : index p.toNat col < Config.fbSize := by
  have := p.isLt
  simp only [index, Config.cols, Config.fbSize, Config.maxColumn] at *
  omega

/-- A payload byte keeps CRAM in canonical form. -/
theorem takePayload_wf {c : Controller} (n : Nat) (b : Byte) (h : c.cram.wf = true) :
    (c.takePayload n b).cram.wf = true := by
  unfold Controller.takePayload
  split
  · exact h
  · exact h
  · unfold Controller.takeCommand
    split
    · exact h
    · split
      · simpa using h
      · exact h
  · exact h
  · unfold Controller.takePixel
    split
    · rename_i hcol
      exact Memory.wf_write h (index_lt _ hcol) b
    · simp only [Controller.overflow]
      exact Memory.wf_tabulate _

/-- A payload byte of a command stream leaves CRAM alone, and the stream a command stream (R39). -/
theorem takePayload_command_cram {c : Controller} (n : Nat) (b : Byte) (h : c.rx = .command ∨ c.rx = .operand) :
    (c.takePayload n b).cram = c.cram ∧
      ((c.takePayload n b).rx = .command ∨ (c.takePayload n b).rx = .operand) := by
  rcases h with h | h
  · cases ho : isTwoByteOpener b
    · cases hb : decodeOneByte b with
      | none => simp [Controller.takePayload, Controller.takeCommand, h, ho, hb]
      | some i =>
        rw [takePayload_command n h ho hb]
        exact ⟨obey_cram i c, .inl (by simpa using h)⟩
    · rw [takePayload_opener n h ho]
      exact ⟨rfl, .inr rfl⟩
  · rw [takePayload_operand n b h]
    exact ⟨rfl, .inl rfl⟩

/-! ### A payload -/

theorem takePayloads_cons (n : Nat) (b : Byte) (p : List Byte) (c : Controller) :
    Controller.takePayloads n (b :: p) c = Controller.takePayloads (n + 1) p (c.takePayload n b) := rfl

theorem takePayloads_append (n : Nat) (p q : List Byte) (c : Controller) :
    Controller.takePayloads n (p ++ q) c =
      Controller.takePayloads (n + p.length) q (Controller.takePayloads n p c) := by
  induction p generalizing n c with
  | nil => rfl
  | cons b p ih => simp [Controller.takePayloads, ih, Nat.add_assoc, Nat.add_comm 1]

theorem takePayloads_wf (p : List Byte) {c : Controller} (n : Nat) (h : c.cram.wf = true) :
    (Controller.takePayloads n p c).cram.wf = true := by
  induction p generalizing n c with
  | nil => exact h
  | cons b p ih => exact ih _ (takePayload_wf n b h)

theorem takePayloads_command_cram (p : List Byte) {c : Controller} (n : Nat)
    (h : c.rx = .command ∨ c.rx = .operand) : (Controller.takePayloads n p c).cram = c.cram := by
  induction p generalizing n c with
  | nil => rfl
  | cons b p ih =>
    obtain ⟨h1, h2⟩ := takePayload_command_cram n b h
    exact (ih (n + 1) h2).trans h1

/-- A command frame leaves CRAM alone (R39). -/
theorem takeFrame_command_cram (n : Nat) (p : List Byte) (c : Controller) :
    (Controller.takeFrame n .command p c).cram = c.cram :=
  takePayloads_command_cram p (n + 3) (.inl rfl)

/-- Any frame keeps CRAM in canonical form. -/
theorem takeFrame_wf (n : Nat) (kind : StreamKind) (p : List Byte) {c : Controller} (h : c.cram.wf = true) :
    (Controller.takeFrame n kind p c).cram.wf = true := by
  cases kind <;> exact takePayloads_wf p (n + 3) h

@[simp] theorem takeFrame_rx (n : Nat) (kind : StreamKind) (p : List Byte) (c : Controller) :
    (Controller.takeFrame n kind p c).rx = .off := rfl

/-! ### The frames the operations send -/

theorem decodeOneByte_page (p : BitVec 3) : decodeOneByte (pageAddressByte p) = some (.pageAddress p) := by
  revert p
  decide

theorem opener_page (p : BitVec 3) : isTwoByteOpener (pageAddressByte p) = false := by
  revert p
  decide

/-- The two column commands with value 0 set the column to 0, whatever it was (R129, R130). -/
theorem column_zero (b : Byte) : (0 : BitVec 4).zeroExtend 8 <<< 4 ||| (b &&& 0xF0 ||| (0 : BitVec 4).zeroExtend 8) &&& 0x0F = (0 : Byte) := by
  revert b
  decide

/-- An address frame sets the column to 0 and the page to pg (R111, R129 to R131). -/
theorem takeFrame_address (n : Nat) (pg : Nat) (c : Controller) :
    Controller.takeFrame n .command (addressPayload pg) c =
      { c with cpage := BitVec.ofNat 3 pg, ccol := 0, rx := .off } := by
  have h0 : isTwoByteOpener (0x00 ||| 0 : Byte) = false := by decide
  have h1 : isTwoByteOpener (0x10 ||| 0 : Byte) = false := by decide
  have d0 : decodeOneByte (0x00 ||| 0 : Byte) = some (.columnLower4 0) := by decide
  have d1 : decodeOneByte (0x10 ||| 0 : Byte) = some (.columnUpper4 0) := by decide
  unfold Controller.takeFrame addressPayload
  rw [takePayloads_cons, takePayload_command _ rfl h0 d0, takePayloads_cons,
    takePayload_command _ (by simp [Controller.takeControl]) h1 d1, takePayloads_cons,
    takePayload_command _ (by simp [Controller.takeControl]) (opener_page _) (decodeOneByte_page _)]
  simp only [Controller.takePayloads, Controller.obey, Controller.takeControl, column_zero]

/-- The frame of SET_POWER changes nothing of the controller but its place (R148). -/
theorem takeFrame_power (n : Nat) (on : Bool) (c : Controller) :
    Controller.takeFrame n .command (powerPayload on) c = { c with rx := .off } := by
  cases on <;> rfl

/-- The frame of SET_CONTRAST likewise, whatever the value (R57, R148). -/
theorem takeFrame_contrast (n : Nat) (v : Byte) (c : Controller) :
    Controller.takeFrame n .command (contrastPayload v) c = { c with rx := .off } := rfl

/-- The frame of SET_POLARITY likewise (R148). -/
theorem takeFrame_polarity (n : Nat) (inv : Bool) (c : Controller) :
    Controller.takeFrame n .command (polarityPayload inv) c = { c with rx := .off } := by
  cases inv <;> rfl

/-- The payload of INIT is the bytes of these twenty commands (R65, R86). -/
def initCommands : List Instr :=
  [.displayOff, .columnLower4 2, .columnUpper4 0, .pageAddress 0, .commonScanDirection, .columnLower4 0,
   .columnUpper4 0, .displayStartLine, .contrastMode 0x7F, .segmentRemap 1, .displayNormal, .multiplexRatio 0x3F,
   .entireDisplayOn, .displayOffset 0x00, .oscillatorFreq 0xF0, .prechargeDischarge 0x22, .commonPadsConfig 0x12,
   .commonPadsVoltage 0x20, .chargePump 0x14, .displayOn]

theorem initPayload_eq : initPayload = initCommands.flatMap commandBytes := by decide

/-- INIT's frame leaves the page at 0 and CRAM alone (R131, R148); its column is left open by `finishOp`. -/
theorem takeFrame_init (n : Nat) (c : Controller) :
    (Controller.takeFrame n .command initPayload c).cram = c.cram ∧
      (Controller.takeFrame n .command initPayload c).cpage = 0 :=
  ⟨takeFrame_command_cram n _ c, rfl⟩

/-- A data frame that fits from the cursor on writes its bytes to the columns in order and moves nothing else (R37). -/
theorem takePayloads_pixels (p : List Byte) {c : Controller} (n : Nat) (hc : c.rx = .data)
    (hl : c.ccol.toNat + p.length ≤ Config.cols) :
    (Controller.takePayloads n p c).cpage = c.cpage ∧
      (Controller.takePayloads n p c).ccol.toNat = c.ccol.toNat + p.length ∧
      ∀ i, (Controller.takePayloads n p c).cram.read i =
        if index c.cpage.toNat c.ccol.toNat ≤ i ∧ i < index c.cpage.toNat c.ccol.toNat + p.length then
          p[i - index c.cpage.toNat c.ccol.toNat]?
        else c.cram.read i := by
  induction p generalizing n c with
  | nil => exact ⟨rfl, rfl, fun i => by simp [Controller.takePayloads]⟩
  | cons b p ih =>
    simp only [List.length_cons, Config.cols] at hl
    have hcol : c.ccol.toNat ≤ Config.maxColumn := by simp only [Config.maxColumn]; omega
    have hnext : (c.ccol + 1).toNat = c.ccol.toNat + 1 := by
      have h1 : (1 : Byte).toNat = 1 := rfl
      rw [BitVec.toNat_add, h1]
      omega
    have hidx : ∀ pg, index pg (c.ccol.toNat + 1) = index pg c.ccol.toNat + 1 := fun pg => by simp [index, Nat.add_assoc]
    rw [takePayloads_cons, takePayload_pixel n b hc hcol]
    obtain ⟨h1, h2, h3⟩ := ih (c := { c with cram := c.cram.write (index c.cpage.toNat c.ccol.toNat) b, ccol := c.ccol + 1 }) (n + 1) hc (by simp only [hnext, Config.cols]; omega)
    refine ⟨h1, ?_, fun i => ?_⟩
    · rw [h2]
      simp only [hnext, List.length_cons]
      omega
    · rw [h3]
      simp only [hnext, hidx, List.length_cons, Memory.read_write]
      by_cases h : i = index c.cpage.toNat c.ccol.toNat
      · subst h
        simp
      · by_cases h' : index c.cpage.toNat c.ccol.toNat ≤ i ∧ i < index c.cpage.toNat c.ccol.toNat + (p.length + 1)
        · obtain ⟨k, hk⟩ : ∃ k, i - index c.cpage.toNat c.ccol.toNat = k + 1 := ⟨i - index c.cpage.toNat c.ccol.toNat - 1, by omega⟩
          have hk' : i - (index c.cpage.toNat c.ccol.toNat + 1) = k := by omega
          rw [if_pos (by omega), if_pos h', hk, hk']
          simp
        · rw [if_neg (by omega), if_neg h, if_neg h']

/-- The two frames of a page put the page's bytes into CRAM, whatever the cursor was, and touch no other page (R36,
R116). -/
theorem takeFrame_page (n m pg : Nat) (hpg : pg < Config.pages) (p : List Byte) (hp : p.length = Config.cols)
    (c : Controller) :
    let d := Controller.takeFrame m .data p (Controller.takeFrame n .command (addressPayload pg) c)
    d.cpage = BitVec.ofNat 3 pg ∧ d.ccol = 132 ∧ d.rx = .off ∧
      ∀ i, d.cram.read i =
        if index pg 0 ≤ i ∧ i < index pg 0 + Config.cols then p[i - index pg 0]? else c.cram.read i := by
  have hn : (BitVec.ofNat 3 pg).toNat = pg := by
    rw [BitVec.toNat_ofNat]
    exact Nat.mod_eq_of_lt hpg
  rw [takeFrame_address]
  obtain ⟨h1, h2, h3⟩ :=
    takePayloads_pixels p (c := { c with cpage := BitVec.ofNat 3 pg, ccol := 0, rx := .data }) (m + 3) rfl
      (by rw [hp]; simp)
  refine ⟨h1, ?_, rfl, fun i => ?_⟩
  · apply BitVec.eq_of_toNat_eq
    rw [hp] at h2
    exact h2
  · have := h3 i
    rw [hn, hp] at this
    exact this

end Sys2Proof.Machine
end

