-- ==== Sys2Proof/Laws/Operations.lean ====
section
/-! SUPPORT. What an operation made of Transport calls does whatever the Transport answers, and what the eight pages of
SYNC do when every result is Ok and when some result fails. -/

namespace Sys2Proof.Machine

/-! ### The checks an instruction makes first -/

theorem whenIdle_eq_next {s t u : State} : whenIdle s t = .next u ↔ s.seq = .idle ∧ u = t := by
  by_cases h : s.seq = .idle <;> simp [whenIdle, State.isIdle, h, eq_comm]

theorem whenIdle_idle {s : State} (t : State) (h : s.seq = .idle) : whenIdle s t = .next t :=
  whenIdle_eq_next.2 ⟨h, rfl⟩

theorem whenIdle_busy {s : State} (t : State) (h : s.seq ≠ .idle) : whenIdle s t = .refused .requestWhileBusy := by
  simp [whenIdle, State.isIdle, h]

theorem whenReady_ready {s : State} (t : State) (h : s.mode = .ready) : whenReady s t = t := by
  simp [whenReady, State.isReady, h]

theorem whenReady_uninitialized {s : State} (t : State) (h : s.mode = .uninitialized) :
    whenReady s t = raiseError .configurationError s := by
  simp [whenReady, State.isReady, h]

theorem whenFrameAllowed_eq_next {a : BusAddr} {s t u : State} :
    whenFrameAllowed a s t = .next u ↔ s.txnOpen = false ∧ a = s.busAddr ∧ u = t := by
  cases h : s.txnOpen <;> by_cases ha : a = s.busAddr <;> simp [whenFrameAllowed, h, ha, eq_comm]

theorem whenByteAt_eq_next {rx : Rx} {s t u : State} :
    whenByteAt rx s t = .next u ↔ s.txnOpen = true ∧ s.ctl.rx = rx ∧ u = t := by
  cases h : s.txnOpen <;> by_cases hx : s.ctl.rx = rx <;> simp [whenByteAt, h, hx, eq_comm]

/-! ### Whatever the Transport answers -/

/-- Calls made from state s: going on, they have kept the block's registers and returned no response; stopped, they
have kept the registers and the operation has ended with TRANSPORT_ERROR (R162). -/
def Flow.Tame (s : State) : Flow → Prop
  | .go t => Kept s t ∧ t.responses = s.responses
  | .stop t => Aborted s t

theorem tame_andThen {s : State} {x : Flow} {f : State → Flow} (hx : x.Tame s) (hf : ∀ t, (f t).Tame t) :
    (x.andThen f).Tame s := by
  cases x with
  | stop t => exact hx
  | go t =>
    have h := hf t
    rw [go_andThen]
    revert h
    cases f t with
    | go u => exact fun h => ⟨hx.1.trans h.1, h.2.trans hx.2⟩
    | stop u => exact fun h => h.of_kept hx.1 hx.2

/-- An error raised after the registers were kept and no response was given. -/
theorem aborted_raiseError {s u : State} (hk : Kept s u) (hr : u.responses = s.responses) :
    Aborted s (raiseError .transportError u) :=
  ⟨hk.trans (raiseError_kept _ u), by rw [raiseError_responses, hr], raiseError_seq _ u, raiseError_txnOpen _ u⟩

theorem transportOpen_tame (s : State) : (transportOpen s).Tame s := by
  cases h : s.resultAhead 0
  · rw [transportOpen_ok h]
    exact ⟨kept_afterOpen s, rfl⟩
  · rw [transportOpen_fail h]
    obtain ⟨c, -, hc⟩ := loseImageOfSync_eq (s.drawn.log (.opened .fail))
    exact aborted_raiseError (by rw [hc]; exact ⟨rfl, rfl, rfl, rfl, rfl, rfl, rfl⟩) (by rw [hc]; rfl)

theorem transportWrite_tame (b : Byte) (take : Nat → Controller → Controller) (s : State) :
    (transportWrite b take s).Tame s := by
  cases h : s.resultAhead 0
  · rw [transportWrite_ok h]
    exact ⟨kept_afterBytes s _ _, rfl⟩
  · rw [transportWrite_fail h]
    obtain ⟨c, -, hc⟩ := lost_eq (s.drawn.log (.wrote b .fail))
    exact aborted_raiseError (by rw [hc]; exact ⟨rfl, rfl, rfl, rfl, rfl, rfl, rfl⟩) (by rw [hc]; rfl)

theorem writePayloads_tame (p : List Byte) (s : State) : (writePayloads p s).Tame s := by
  induction p generalizing s with
  | nil => exact ⟨Kept.refl s, rfl⟩
  | cons b p ih => exact tame_andThen (transportWrite_tame _ _ s) ih

theorem sendStream_tame (kind : StreamKind) (p : List Byte) (s : State) : (sendStream kind p s).Tame s :=
  tame_andThen (transportOpen_tame s) fun _ =>
    tame_andThen
      (tame_andThen (tame_andThen (transportWrite_tame _ _ _) fun _ => transportWrite_tame _ _ _) fun _ =>
        writePayloads_tame p _)
      fun _ => ⟨⟨rfl, rfl, rfl, rfl, rfl, rfl, rfl⟩, rfl⟩

theorem syncPages_tame (l : List Nat) (s : State) : (syncPages l s).Tame s := by
  induction l generalizing s with
  | nil => exact ⟨Kept.refl s, rfl⟩
  | cons pg l ih =>
    exact tame_andThen (tame_andThen (sendStream_tame _ _ s) fun _ => sendStream_tame _ _ _) ih

/-! ### The controller's RAM outside SYNC (R39) -/

/-- SEQ does not run SYNC. -/
def Sequencer.NotSync (q : Sequencer) : Prop := ∀ f k, q ≠ .running .sync f k

theorem notSync_nextCall {q : Sequencer} (h : q.NotSync) : q.nextCall.NotSync := by
  intro f k hq
  cases q with
  | idle => cases hq
  | running op g l =>
    cases hq
    exact h f l rfl

theorem notSync_advance {q : Sequencer} (n : Nat) (h : q.NotSync) : (q.advance n).NotSync := by
  intro f k hq
  cases q with
  | idle => cases hq
  | running op g l =>
    cases hq
    exact h f l rfl

/-- Outside SYNC a failing call loses nothing but what its own frame says (R116). -/
theorem loseImageOfSync_of_notSync {s : State} (h : s.seq.NotSync) : loseImageOfSync s = s := by
  unfold loseImageOfSync
  split
  · rename_i f k hq
    exact absurd hq (h f k)
  all_goals rfl

/-- A failed byte outside a data stream leaves CRAM alone. -/
theorem loseFrame_cram {s : State} (h : s.ctl.rx ≠ .data) : (loseFrame s).ctl.cram = s.ctl.cram := by
  unfold loseFrame
  split
  · rfl
  · rfl
  · split <;> rfl
  · split <;> rfl
  · exact absurd ‹_› h

theorem loseFrame_seq (s : State) : (loseFrame s).seq = s.seq := by
  obtain ⟨c, -, h⟩ := loseFrame_eq s
  rw [h]

/-- A failed write outside SYNC and outside a data stream leaves CRAM alone. -/
theorem transportWrite_fail_cram {s : State} {b : Byte} {take : Nat → Controller → Controller}
    (h : s.resultAhead 0 = .fail) (hq : s.seq.NotSync) (hx : s.ctl.rx ≠ .data) :
    (transportWrite b take s).state.ctl.cram = s.ctl.cram := by
  rw [transportWrite_fail h, stop_state, raiseError_cram,
    loseImageOfSync_of_notSync (by rw [loseFrame_seq]; exact hq), loseFrame_cram (by simpa using hx)]
  rfl

theorem writePayloads_command_cram (p : List Byte) {s : State} (hq : s.seq.NotSync)
    (hx : s.ctl.rx = .command ∨ s.ctl.rx = .operand) : (writePayloads p s).state.ctl.cram = s.ctl.cram := by
  induction p generalizing s with
  | nil => rfl
  | cons b p ih =>
    rw [writePayloads, writePayload]
    cases h : s.resultAhead 0
    · obtain ⟨h1, h2⟩ := takePayload_command_cram s.calls b hx
      rw [transportWrite_ok h, go_andThen, ih (notSync_advance _ hq) h2]
      exact h1
    · have := transportWrite_fail_cram (b := b) (take := fun n c => c.takePayload n b) h hq
        (by rcases hx with hx | hx <;> rw [hx] <;> simp)
      rw [transportWrite_fail h] at this ⊢
      exact this

/-- A command frame outside SYNC leaves CRAM alone, whatever the Transport answers (R39). -/
theorem sendStream_command_cram (p : List Byte) {s : State} (hq : s.seq.NotSync) :
    (sendStream .command p s).state.ctl.cram = s.ctl.cram := by
  rw [sendStream]
  cases h0 : s.resultAhead 0
  · rw [transportOpen_ok h0, go_andThen, sendBody, writeAddress]
    have hq1 : s.afterOpen.seq.NotSync := notSync_nextCall hq
    cases h1 : s.afterOpen.resultAhead 0
    · rw [transportWrite_ok h1, go_andThen, writeControl]
      have hq2 := notSync_advance 1 hq1
      generalize hu : s.afterOpen.afterBytes [addressByte s.afterOpen.busAddr] s.afterOpen.ctl.takeAddress = u
      have hqu : u.seq.NotSync := hu ▸ hq2
      have hxu : u.ctl.rx = .header := by rw [← hu]; rfl
      have hcu : u.ctl.cram = s.ctl.cram := by rw [← hu]; rfl
      rw [← hcu]
      cases h2 : u.resultAhead 0
      · rw [transportWrite_ok h2, go_andThen]
        have h3 := writePayloads_command_cram p
          (s := u.afterBytes [StreamKind.command.controlByte] (u.ctl.takeControl .command))
          (notSync_advance 1 hqu) (.inl rfl)
        cases h4 : writePayloads p (u.afterBytes [StreamKind.command.controlByte] (u.ctl.takeControl .command)) with
        | go t =>
          rw [h4] at h3
          rw [go_andThen, go_state, transportClose_ctl]
          exact h3
        | stop t =>
          rw [h4] at h3
          exact h3
      · have := transportWrite_fail_cram (b := StreamKind.command.controlByte)
          (take := fun _ c => c.takeControl .command) h2 hqu (by rw [hxu]; simp)
        rw [transportWrite_fail h2] at this ⊢
        exact this
    · have := transportWrite_fail_cram (b := addressByte s.afterOpen.busAddr) (take := fun _ c => c.takeAddress) h1 hq1 (by simp)
      rw [transportWrite_fail h1] at this ⊢
      exact this
  · rw [transportOpen_fail h0, stop_andThen, stop_state, raiseError_cram,
      loseImageOfSync_of_notSync (s := s.drawn.log (.opened .fail)) hq]
    rfl

/-- Payload bytes of a command stream that were all written leave CRAM alone, whatever operation they belong to (R39). -/
theorem writePayloads_command_cram_go (p : List Byte) {s t : State} (hx : s.ctl.rx = .command ∨ s.ctl.rx = .operand)
    (h : writePayloads p s = .go t) : t.ctl.cram = s.ctl.cram := by
  induction p generalizing s with
  | nil =>
    cases h
    rfl
  | cons b p ih =>
    obtain ⟨u, hu, h⟩ := andThen_eq_go h
    cases h0 : s.resultAhead 0
    · rw [writePayload, transportWrite_ok h0] at hu
      cases hu
      obtain ⟨h1, h2⟩ := takePayload_command_cram s.calls b hx
      exact (ih h2 h).trans h1
    · rw [writePayload, transportWrite_fail h0] at hu
      cases hu

/-! ### What an operation does before its first call -/

/-- Before its first call an operation has made no call and returned no response: TRACE, the responses, the
controller, the results to come and the host's inputs are as before, and TXN_OPEN is. -/
theorem beginOp_calls (op : BusOp) (s : State) :
    (beginOp op s).trace = s.trace ∧ (beginOp op s).responses = s.responses ∧ (beginOp op s).ctl = s.ctl ∧
      (beginOp op s).draws = s.draws ∧ (beginOp op s).calls = s.calls ∧ (beginOp op s).requests = s.requests ∧
      (beginOp op s).txnOpen = s.txnOpen ∧ (beginOp op s).debugEn = s.debugEn ∧
      (beginOp op s).fbWritePort = s.fbWritePort := by
  cases op <;> simp [beginOp]

@[simp] theorem beginOp_seq (op : BusOp) (s : State) : (beginOp op s).seq = .running op 0 0 := by
  cases op <;> rfl

theorem beginOp_allOk (op : BusOp) {s : State} {n : Nat} : (beginOp op s).allOk n ↔ s.allOk n :=
  allOk_congr (beginOp_calls op s).2.2.2.1 (beginOp_calls op s).2.2.2.2.1

theorem beginOp_failsAt (op : BusOp) {s : State} {j : Nat} : (beginOp op s).failsAt j ↔ s.failsAt j :=
  failsAt_congr (beginOp_calls op s).2.2.2.1 (beginOp_calls op s).2.2.2.2.1

/-! ### What an operation does after its last call -/

theorem finishOp_seq (op : BusOp) (s : State) : (finishOp op s).seq = .idle := by
  cases op <;> rfl

/-- The calls of an operation and its end: SEQ is Idle, however it ended. -/
theorem finish_seq {s : State} {x : Flow} (h : x.Tame s) (op : BusOp) : (x.finish (finishOp op)).seq = .idle := by
  cases x with
  | go t => exact finishOp_seq op t
  | stop t => exact h.seq

theorem runOneFrame_seq (op : BusOp) (p : List Byte) (s : State) : (runOneFrame op p s).seq = .idle :=
  finish_seq (sendStream_tame _ _ _) op

/-- An operation of one frame, every result Ok. -/
theorem runOneFrame_ok (op : BusOp) (p : List Byte) {s : State} (h : s.allOk (p.length + 3)) :
    runOneFrame op p s =
      finishOp op ((beginOp op s).afterFrame (frameBytes (beginOp op s).busAddr .command p)
        (Controller.takeFrame s.calls .command p { s.ctl with rx := .off })) := by
  rw [runOneFrame, sendStream_ok _ _ ((beginOp_allOk op).2 h), go_finish, (beginOp_calls op s).2.2.1,
    (beginOp_calls op s).2.2.2.2.1]

/-- An operation of one frame in which the call j ahead fails. -/
theorem runOneFrame_fails (op : BusOp) (p : List Byte) {s : State} {j : Nat} (h : s.failsAt j)
    (hj : j < p.length + 3) (ho : s.txnOpen = false) :
    sendStream .command p (beginOp op s) = .stop (runOneFrame op p s) ∧ Aborted (beginOp op s) (runOneFrame op p s) ∧
      (runOneFrame op p s).trace = s.trace ++ abortTrace [frameBytes (beginOp op s).busAddr .command p] j := by
  obtain ⟨t, ht, ha, -, htr⟩ :=
    sendStream_fails .command p ((beginOp_failsAt op).2 h) hj ((beginOp_calls op s).2.2.2.2.2.2.1.trans ho)
  rw [(beginOp_calls op s).1] at htr
  have : runOneFrame op p s = t := by rw [runOneFrame, ht, stop_finish]
  rw [this]
  exact ⟨ht, ha, htr⟩

/-! ### The pages of SYNC, every result Ok -/

@[simp] theorem length_addressPayload (pg : Nat) : (addressPayload pg).length = 3 := rfl

@[simp] theorem length_pageBytes (fb : Memory) (pg : Nat) : (pageBytes fb pg).length = 132 := by
  simp [pageBytes, Config.cols]

/-- A page is its address frame and its data frame, 141 results (R110). -/
theorem syncPage_ok (pg : Nat) {s : State} (h : s.allOk 141) :
    syncPage pg s =
      .go ((s.afterFrame (frameBytes s.busAddr .command (addressPayload pg))
          (Controller.takeFrame s.calls .command (addressPayload pg) { s.ctl with rx := .off })).afterFrame
        (frameBytes s.busAddr .data (pageBytes s.fb pg))
        (Controller.takeFrame (s.calls + 6) .data (pageBytes s.fb pg)
          (Controller.takeFrame s.calls .command (addressPayload pg) { s.ctl with rx := .off }))) := by
  have h1 : s.allOk ((addressPayload pg).length + 3) := allOk_mono h (by simp)
  have h2 : (s.afterFrame (frameBytes s.busAddr .command (addressPayload pg))
      (Controller.takeFrame s.calls .command (addressPayload pg) { s.ctl with rx := .off })).allOk
        ((pageBytes s.fb pg).length + 3) := by
    rw [length_pageBytes]
    exact (allOk_congr (s := s.afterCalls 6) rfl rfl).2 (allOk_afterCalls (m := 6) h)
  rw [syncPage, sendStream_ok _ _ h1, go_andThen, afterFrame_fb, sendStream_ok _ _ h2]
  rfl

/-- The written bytes of the two frames of a page (R111, R112). -/
def pageFrames (a : BusAddr) (fb : Memory) (pg : Nat) : List (List Byte) :=
  [frameBytes a .command (addressPayload pg), frameBytes a .data (pageBytes fb pg)]

/-- The pages one after the other, every result Ok: their frames in TRACE, and nothing else of the block moved but the
results, TXN_OPEN and SEQ. -/
theorem syncPages_ok (l : List Nat) {s : State} (h : s.allOk (141 * l.length)) :
    ∃ t, syncPages l s = .go t ∧ (l ≠ [] → t.txnOpen = false ∧ t.ctl.rx = .off) ∧
      t = { s with draws := s.draws.drop (141 * l.length), calls := s.calls + 141 * l.length, txnOpen := t.txnOpen,
                   seq := t.seq, ctl := t.ctl,
                   trace := s.trace ++ (l.flatMap (pageFrames s.busAddr s.fb)).flatMap frameTrace } := by
  induction l generalizing s with
  | nil => exact ⟨s, rfl, fun h => absurd rfl h, by simp⟩
  | cons pg l ih =>
    have h1 : s.allOk (141 + 141 * l.length) := allOk_mono h (by simp only [List.length_cons]; omega)
    rw [syncPages, syncPage_ok pg (allOk_mono h1 (by omega)), go_andThen]
    generalize hu : (s.afterFrame (frameBytes s.busAddr .command (addressPayload pg)) _).afterFrame _ _ = u
    have hd : u.draws = s.draws.drop 141 := by rw [← hu]; simp [frameBytes]
    have hc : u.calls = s.calls + 141 := by rw [← hu]; simp [frameBytes, Nat.add_assoc]
    have hu' : u = { s with draws := s.draws.drop 141, calls := s.calls + 141, txnOpen := false, seq := u.seq, ctl := u.ctl,
                            trace := s.trace ++ (pageFrames s.busAddr s.fb pg).flatMap frameTrace } := by
      rw [← hd, ← hc, ← hu]
      simp [State.afterFrame, pageFrames]
    have hr : u.ctl.rx = .off := by rw [← hu]; rfl
    obtain ⟨t, ht, hx, he⟩ :=
      ih (s := u) ((allOk_congr (s := s.afterCalls 141) hd hc).2 (allOk_afterCalls h1))
    refine ⟨t, ht, fun _ => ?_, ?_⟩
    · cases l with
      | nil =>
        cases ht
        exact ⟨by rw [hu'], hr⟩
      | cons q l => exact hx (by simp)
    · rw [he, hu']
      simp [Nat.mul_add, Nat.add_assoc, Nat.add_comm]

/-- Each page moves SEQ on by two frames (R16, R17). -/
theorem syncPages_seq (l : List Nat) {s t : State} {op : BusOp} {f : Nat} (h : s.allOk (141 * l.length))
    (ht : syncPages l s = .go t) (hs : s.seq = .running op f 0) : t.seq = .running op (f + 2 * l.length) 0 := by
  induction l generalizing s f with
  | nil =>
    cases ht
    exact hs
  | cons pg l ih =>
    have h1 : s.allOk (141 + 141 * l.length) := allOk_mono h (by simp only [List.length_cons]; omega)
    rw [syncPages, syncPage_ok pg (allOk_mono h1 (by omega)), go_andThen] at ht
    generalize hu : (s.afterFrame (frameBytes s.busAddr .command (addressPayload pg)) _).afterFrame _ _ = u at ht
    have hd : u.draws = s.draws.drop 141 := by rw [← hu]; simp [frameBytes]
    have hc : u.calls = s.calls + 141 := by rw [← hu]; simp [frameBytes, Nat.add_assoc]
    have hus : u.seq = .running op (f + 2) 0 := by rw [← hu, afterFrame_seq, afterFrame_seq, hs]; rfl
    rw [ih ((allOk_congr (s := s.afterCalls 141) hd hc).2 (allOk_afterCalls h1)) ht hus, List.length_cons,
      show f + 2 + 2 * l.length = f + 2 * (l.length + 1) by omega]

/-- What the controller holds after the pages, every result Ok (R36, R116): each page sent is the framebuffer's, every
other cell is as before, and the cursor is past the last page sent, whatever it was before. -/
theorem syncPages_controller (l : List Nat) (hl : ∀ pg ∈ l, pg < Config.pages) {s t : State}
    (h : s.allOk (141 * l.length)) (ht : syncPages l s = .go t) :
    (∀ pg, l.getLast? = some pg → t.ctl.cpage = BitVec.ofNat 3 pg ∧ t.ctl.ccol = 132) ∧
      (∀ pg col, col < Config.cols → t.ctl.cramRead pg col =
        if pg ∈ l then fbRead s.fb (index pg col) else s.ctl.cramRead pg col) ∧
      ∀ i, Config.fbSize ≤ i → t.ctl.cram.read i = s.ctl.cram.read i := by
  induction l generalizing s with
  | nil =>
    cases ht
    exact ⟨fun _ h => by simp at h, fun _ _ _ => by simp, fun _ _ => rfl⟩
  | cons pg l ih =>
    have h1 : s.allOk (141 + 141 * l.length) := allOk_mono h (by simp only [List.length_cons]; omega)
    rw [syncPages, syncPage_ok pg (allOk_mono h1 (by omega)), go_andThen] at ht
    obtain ⟨p1, p2, -, p3⟩ := takeFrame_page s.calls (s.calls + 6) pg (hl pg List.mem_cons_self)
      (pageBytes s.fb pg) (by simp [Config.cols]) { s.ctl with rx := .off }
    generalize hu : (s.afterFrame (frameBytes s.busAddr .command (addressPayload pg)) _).afterFrame _ _ = u at ht
    have hd : u.draws = s.draws.drop 141 := by rw [← hu]; simp [frameBytes]
    have hc : u.calls = s.calls + 141 := by rw [← hu]; simp [frameBytes, Nat.add_assoc]
    have hf : u.fb = s.fb := by rw [← hu]; rfl
    have q1 : u.ctl.cpage = BitVec.ofNat 3 pg := by rw [← hu]; simpa only [afterFrame_ctl] using p1
    have q2 : u.ctl.ccol = 132 := by rw [← hu]; simpa only [afterFrame_ctl] using p2
    have q3 : ∀ i, u.ctl.cram.read i =
        if index pg 0 ≤ i ∧ i < index pg 0 + Config.cols then (pageBytes s.fb pg)[i - index pg 0]?
        else s.ctl.cram.read i := by rw [← hu]; simpa only [afterFrame_ctl] using p3
    have hpg : pg < Config.pages := hl pg List.mem_cons_self
    obtain ⟨i1, i2, i3⟩ := ih (fun q hq => hl q (List.mem_cons_of_mem _ hq))
      ((allOk_congr (s := s.afterCalls 141) hd hc).2 (allOk_afterCalls h1)) ht
    refine ⟨fun q hq => ?_, fun q col hcol => ?_, fun i hi => ?_⟩
    · cases l with
      | nil =>
        cases ht
        simp only [List.getLast?_singleton, Option.some.injEq] at hq
        exact hq ▸ ⟨q1, q2⟩
      | cons r l => exact i1 q (by simpa using hq)
    · rw [i2 q col hcol, hf]
      by_cases hql : q ∈ l
      · rw [if_pos hql, if_pos (List.mem_cons_of_mem _ hql)]
      · have hin : index pg 0 ≤ index q col ∧ index q col < index pg 0 + Config.cols ↔ q = pg := by
          simp only [index, Config.cols] at hcol ⊢
          omega
        simp only [List.mem_cons, hql, or_false, Controller.cramRead, q3, hin, if_false]
        by_cases hqp : q = pg
        · subst hqp
          rw [if_pos rfl, if_pos rfl, show index q col - index q 0 = col by simp only [index]; omega]
          simp [pageBytes, hcol]
        · rw [if_neg hqp, if_neg hqp]
    · rw [i3 i hi, q3, if_neg]
      simp only [index, Config.cols, Config.fbSize, Config.pages] at *
      omega

/-! ### The pages of SYNC, some result failing -/

theorem abortTrace_head {w : List Byte} {j : Nat} (h : j ≤ w.length) (rest rest' : List (List Byte)) :
    abortTrace (w :: rest) j = abortTrace (w :: rest') j := by
  simp [abortTrace, h]

theorem abortTrace_tail (w : List Byte) (rest : List (List Byte)) (j : Nat) :
    abortTrace (w :: rest) (w.length + 1 + j) = frameTrace w ++ abortTrace rest j := by
  have h1 : ¬ w.length + 1 + j ≤ w.length := by omega
  have h2 : w.length + 1 + j - (w.length + 1) = j := by omega
  have h3 : w.length + 1 + j ≠ 0 := by omega
  simp only [abortTrace, h1, h2, h3, if_false]

/-- A page in which the call j ahead fails (R114). -/
theorem syncPage_fails (pg : Nat) {s : State} {j : Nat} (h : s.failsAt j) (hj : j < 141) (ho : s.txnOpen = false) :
    ∃ t, syncPage pg s = .stop t ∧ Aborted s t ∧ t.trace = s.trace ++ abortTrace (pageFrames s.busAddr s.fb pg) j := by
  by_cases hj6 : j < 6
  · obtain ⟨t, ht, ha, -, htr⟩ := sendStream_fails .command (addressPayload pg) h (by simpa using hj6) ho
    refine ⟨t, by rw [syncPage, ht, stop_andThen], ha, ?_⟩
    rw [htr, pageFrames, abortTrace_head (by simpa [frameBytes] using Nat.le_of_lt_succ hj6)]
  · obtain ⟨k, rfl⟩ : ∃ k, j = 6 + k := ⟨j - 6, by omega⟩
    have h1 : s.allOk ((addressPayload pg).length + 3) := allOk_mono h.1 (by simp)
    rw [syncPage, sendStream_ok _ _ h1, go_andThen]
    obtain ⟨t, ht, ha, -, htr⟩ :=
      sendStream_fails .data (pageBytes s.fb pg) (j := k)
        (s := s.afterFrame (frameBytes s.busAddr .command (addressPayload pg))
          (Controller.takeFrame s.calls .command (addressPayload pg) { s.ctl with rx := .off }))
        ((failsAt_congr (s := s.afterCalls 6) rfl rfl).2 (failsAt_afterCalls h)) (by simp; omega) rfl
    refine ⟨t, ht, ha.of_kept (kept_afterFrame _ _ _) rfl, ?_⟩
    have := abortTrace_tail (frameBytes s.busAddr .command (addressPayload pg))
      [frameBytes s.busAddr .data (pageBytes s.fb pg)] k
    rw [htr, pageFrames, show 6 + k = (frameBytes s.busAddr .command (addressPayload pg)).length + 1 + k from rfl, this]
    simp

/-- The pages one after the other until the call j ahead fails (R114): no later frame is started. -/
theorem syncPages_fails (l : List Nat) {s : State} {j : Nat} (h : s.failsAt j) (hj : j < 141 * l.length)
    (ho : s.txnOpen = false) :
    ∃ t, syncPages l s = .stop t ∧ Aborted s t ∧
      t.trace = s.trace ++ abortTrace (l.flatMap (pageFrames s.busAddr s.fb)) j := by
  induction l generalizing s j with
  | nil => exact absurd hj (Nat.not_lt_zero _)
  | cons pg l ih =>
    by_cases hj1 : j < 141
    · obtain ⟨t, ht, ha, htr⟩ := syncPage_fails pg h hj1 ho
      refine ⟨t, by rw [syncPages, ht, stop_andThen], ha, ?_⟩
      rw [htr, List.flatMap_cons]
      congr 1
      by_cases hj6 : j ≤ 5
      · rw [pageFrames, List.cons_append]
        exact abortTrace_head (by simpa [frameBytes] using hj6) _ _
      · obtain ⟨k, rfl⟩ : ∃ k, j = 6 + k := ⟨j - 6, by omega⟩
        rw [pageFrames, List.cons_append,
          show 6 + k = (frameBytes s.busAddr .command (addressPayload pg)).length + 1 + k from rfl,
          abortTrace_tail, abortTrace_tail]
        exact congrArg _ (abortTrace_head (by simp [frameBytes]; omega) _ _)
    · obtain ⟨k, rfl⟩ : ∃ k, j = 141 + k := ⟨j - 141, by omega⟩
      rw [syncPages, syncPage_ok pg (allOk_mono h.1 (by omega)), go_andThen]
      generalize hu : (s.afterFrame (frameBytes s.busAddr .command (addressPayload pg)) _).afterFrame _ _ = u
      have hd : u.draws = s.draws.drop 141 := by rw [← hu]; simp [frameBytes]
      have hc : u.calls = s.calls + 141 := by rw [← hu]; simp [frameBytes, Nat.add_assoc]
      have hk : Kept s u := by rw [← hu]; exact ⟨rfl, rfl, rfl, rfl, rfl, rfl, rfl⟩
      have hr : u.responses = s.responses := by rw [← hu]; rfl
      have hut : u.trace = s.trace ++ (pageFrames s.busAddr s.fb pg).flatMap frameTrace := by
        rw [← hu]; simp [pageFrames]
      obtain ⟨t, ht, ha, htr⟩ :=
        ih (s := u) (j := k) ((failsAt_congr (s := s.afterCalls 141) hd hc).2 (failsAt_afterCalls h))
          (by simp only [List.length_cons] at hj; omega) (by rw [← hu]; rfl)
      refine ⟨t, ht, ha.of_kept hk hr, ?_⟩
      rw [htr, hut, hk.busAddr, hk.fb, List.flatMap_cons, List.append_assoc]
      congr 1
      have e : 141 + k = (frameBytes s.busAddr .command (addressPayload pg)).length + 1 +
          ((frameBytes s.busAddr .data (pageBytes s.fb pg)).length + 1 + k) := by simp [frameBytes]; omega
      rw [e, pageFrames, List.cons_append, abortTrace_tail, List.cons_append, abortTrace_tail]
      simp

end Sys2Proof.Machine
end

