-- ==== Sys2Proof/Laws/PerInstr.lean ====
section
/-! SUPPORT. One lemma per instruction: its code satisfies the match and mask of its row of spec/opcode_table.json. -/

namespace Sys2Proof.Laws

/-- The table word of a code: a request word, the two header bytes of a frame, a byte, or the bytes of a command, the
first byte highest (30_encoding.md R51, R54, R59); none for a code the table gives no word. -/
def tableWord : Code → Option (Nat × Nat)
  | .request w => some (12, w.toNat)
  | .frame (b :: c :: _) => some (16, b.toNat * 256 + c.toNat)
  | .frame _ => none
  | .addressByte b | .controlByte b | .pixelByte b => some (8, b.toNat)
  | .command [b] => some (8, b.toNat)
  | .command [b, d] => some (16, b.toNat * 256 + d.toNat)
  | .command _ => none

/-- The row of the opcode table of each instruction: width, mask, match. -/
def tableRow : Instr → Nat × Nat × Nat
  | .init _ => (12, 0xF80, 0x000)
  | .setPower _ => (12, 0xFFE, 0x100)
  | .setContrast _ => (12, 0xF00, 0x200)
  | .setPolarity _ => (12, 0xFFE, 0x300)
  | .fill _ => (12, 0xF00, 0x400)
  | .sync => (12, 0xFFF, 0x500)
  | .setDebug _ => (12, 0xFFE, 0x600)
  | .clear => (12, 0xFFF, 0x400)
  | .sendCmdStream _ _ => (16, 0x01FF, 0x0000)
  | .sendDataStream _ _ => (16, 0x01FF, 0x0040)
  | .address _ => (8, 0x01, 0x00)
  | .controlCmdStream => (8, 0xFF, 0x00)
  | .controlDataStream => (8, 0xFF, 0x40)
  | .data _ => (8, 0x00, 0x00)
  | .displayOff => (8, 0xFF, 0xAE)
  | .displayOn => (8, 0xFF, 0xAF)
  | .columnLower4 _ => (8, 0xF0, 0x00)
  | .columnUpper4 _ => (8, 0xF0, 0x10)
  | .pageAddress _ => (8, 0xF8, 0xB0)
  | .commonScanDirection => (8, 0xFF, 0xC0)
  | .displayStartLine => (8, 0xFF, 0x40)
  | .segmentRemap _ => (8, 0xFE, 0xA0)
  | .displayNormal => (8, 0xFF, 0xA6)
  | .displayReversed => (8, 0xFF, 0xA7)
  | .entireDisplayOn => (8, 0xFF, 0xA4)
  | .contrastMode _ => (16, 0xFF00, 0x8100)
  | .multiplexRatio _ => (16, 0xFF00, 0xA800)
  | .displayOffset _ => (16, 0xFF00, 0xD300)
  | .oscillatorFreq _ => (16, 0xFF00, 0xD500)
  | .prechargeDischarge _ => (16, 0xFF00, 0xD900)
  | .commonPadsConfig _ => (16, 0xFF00, 0xDA00)
  | .commonPadsVoltage _ => (16, 0xFF00, 0xDB00)
  | .chargePump _ => (16, 0xFF00, 0x8D00)

/-- The instruction's code has its row's width, and its fixed bits are the row's. -/
def TableMatch.Statement (i : Instr) : Prop :=
  ∃ w, tableWord (encode i) = some ((tableRow i).1, w) ∧ w &&& (tableRow i).2.1 = (tableRow i).2.2

theorem TableMatch.init (a : BusAddr) : TableMatch.Statement (.init a) :=
  ⟨_, rfl, by
    revert a
    decide⟩

theorem TableMatch.setPower (on : Bool) : TableMatch.Statement (.setPower on) :=
  ⟨_, rfl, by
    revert on
    decide⟩

theorem TableMatch.setContrast (v : Byte) : TableMatch.Statement (.setContrast v) :=
  ⟨_, rfl, by
    revert v
    decide⟩

theorem TableMatch.setPolarity (inv : Bool) : TableMatch.Statement (.setPolarity inv) :=
  ⟨_, rfl, by
    revert inv
    decide⟩

theorem TableMatch.fill (p : Byte) : TableMatch.Statement (.fill p) :=
  ⟨_, rfl, by
    revert p
    decide⟩

theorem TableMatch.sync : TableMatch.Statement (.sync) :=
  ⟨_, rfl, by decide⟩

theorem TableMatch.setDebug (en : Bool) : TableMatch.Statement (.setDebug en) :=
  ⟨_, rfl, by
    revert en
    decide⟩

theorem TableMatch.clear : TableMatch.Statement (.clear) :=
  ⟨_, rfl, by decide⟩

theorem TableMatch.sendCmdStream (a : BusAddr) (payload : List Byte) : TableMatch.Statement (.sendCmdStream a payload) :=
  ⟨_, rfl, by
    simp only [tableRow]
    revert a
    decide⟩

theorem TableMatch.sendDataStream (a : BusAddr) (payload : List Byte) : TableMatch.Statement (.sendDataStream a payload) :=
  ⟨_, rfl, by
    simp only [tableRow]
    revert a
    decide⟩

theorem TableMatch.address (a : BusAddr) : TableMatch.Statement (.address a) :=
  ⟨_, rfl, by
    revert a
    decide⟩

theorem TableMatch.controlCmdStream : TableMatch.Statement (.controlCmdStream) :=
  ⟨_, rfl, by decide⟩

theorem TableMatch.controlDataStream : TableMatch.Statement (.controlDataStream) :=
  ⟨_, rfl, by decide⟩

theorem TableMatch.data (d : Byte) : TableMatch.Statement (.data d) :=
  ⟨_, rfl, by
    revert d
    decide⟩

theorem TableMatch.displayOff : TableMatch.Statement (.displayOff) :=
  ⟨_, rfl, by decide⟩

theorem TableMatch.displayOn : TableMatch.Statement (.displayOn) :=
  ⟨_, rfl, by decide⟩

theorem TableMatch.columnLower4 (n : BitVec 4) : TableMatch.Statement (.columnLower4 n) :=
  ⟨_, rfl, by
    revert n
    decide⟩

theorem TableMatch.columnUpper4 (n : BitVec 4) : TableMatch.Statement (.columnUpper4 n) :=
  ⟨_, rfl, by
    revert n
    decide⟩

theorem TableMatch.pageAddress (p : BitVec 3) : TableMatch.Statement (.pageAddress p) :=
  ⟨_, rfl, by
    revert p
    decide⟩

theorem TableMatch.commonScanDirection : TableMatch.Statement (.commonScanDirection) :=
  ⟨_, rfl, by decide⟩

theorem TableMatch.displayStartLine : TableMatch.Statement (.displayStartLine) :=
  ⟨_, rfl, by decide⟩

theorem TableMatch.segmentRemap (r : BitVec 1) : TableMatch.Statement (.segmentRemap r) :=
  ⟨_, rfl, by
    revert r
    decide⟩

theorem TableMatch.displayNormal : TableMatch.Statement (.displayNormal) :=
  ⟨_, rfl, by decide⟩

theorem TableMatch.displayReversed : TableMatch.Statement (.displayReversed) :=
  ⟨_, rfl, by decide⟩

theorem TableMatch.entireDisplayOn : TableMatch.Statement (.entireDisplayOn) :=
  ⟨_, rfl, by decide⟩

theorem TableMatch.contrastMode (d : Byte) : TableMatch.Statement (.contrastMode d) :=
  ⟨_, rfl, by
    revert d
    decide⟩

theorem TableMatch.multiplexRatio (d : Byte) : TableMatch.Statement (.multiplexRatio d) :=
  ⟨_, rfl, by
    revert d
    decide⟩

theorem TableMatch.displayOffset (d : Byte) : TableMatch.Statement (.displayOffset d) :=
  ⟨_, rfl, by
    revert d
    decide⟩

theorem TableMatch.oscillatorFreq (d : Byte) : TableMatch.Statement (.oscillatorFreq d) :=
  ⟨_, rfl, by
    revert d
    decide⟩

theorem TableMatch.prechargeDischarge (d : Byte) : TableMatch.Statement (.prechargeDischarge d) :=
  ⟨_, rfl, by
    revert d
    decide⟩

theorem TableMatch.commonPadsConfig (d : Byte) : TableMatch.Statement (.commonPadsConfig d) :=
  ⟨_, rfl, by
    revert d
    decide⟩

theorem TableMatch.commonPadsVoltage (d : Byte) : TableMatch.Statement (.commonPadsVoltage d) :=
  ⟨_, rfl, by
    revert d
    decide⟩

theorem TableMatch.chargePump (d : Byte) : TableMatch.Statement (.chargePump d) :=
  ⟨_, rfl, by
    revert d
    decide⟩

end Sys2Proof.Laws
end

