-- ==== Sys2Proof/Laws/Step.lean ====
section
/-! SUPPORT. What a step does at each position of a running operation (10_state.md R16), as the Transport calls it
makes: from these and the laws of the calls follow the invariant and the agreement of the step with exec. -/

namespace Sys2Proof.Machine

/-! ### Codes of the bytes of a frame -/

theorem decode_address (a : BusAddr) : decode (.addressByte (addressByte a)) = .ok (.address a) := by
  revert a
  decide

theorem decode_frame (kind : StreamKind) (a : BusAddr) (payload : List Byte) :
    decode (.frame (frameBytes a kind payload)) = .ok (frameInstr kind a payload) := by
  have h : decodeAddressByte (addressByte a) = .ok a := by
    revert a
    decide
  cases kind <;> simp [decode, frameBytes, decodeFrame, h, decodeControlByte, StreamKind.controlByte]

/-- A request word is rejected by one name alone (R61). -/
theorem decode_request_error {w : Request} {e : Reject} (h : decode (.request w) = .error e) : e = .reservedRequest := by
  have one : ∀ (f : Bool → Instr) (arg : Byte), (oneBitArg arg).map f = .error e → e = .reservedRequest := by
    intro f arg h
    unfold oneBitArg at h
    split at h
    · cases h
    · cases h
      rfl
  simp only [decode, decodeRequest] at h
  repeat' split at h
  all_goals first
    | cases h; rfl
    | cases h
    | exact one _ _ h

/-- INIT is refused exactly in Ready with another address (R89), while SEQ is Idle. -/
theorem execInit_refused {a : BusAddr} {s : State} {r : Refusal} (hs : s.seq = .idle)
    (h : exec (.init a) s = .refused r) : r = .addressImmutable ∧ s.mode = .ready ∧ a ≠ s.busAddr := by
  simp only [exec, execInit] at h
  split at h
  · rename_i ha
    cases h
    cases hm : s.mode <;> simp [State.admitsInit, hm] at ha
    exact ⟨rfl, rfl, ha.2⟩
  · rw [whenIdle_idle _ hs] at h
    cases h

/-- A one-byte command is an instruction whose meaning writes that byte. -/
theorem exec_oneByte {b : Byte} {i : Instr} (h : decodeOneByte b = some i) (s : State) :
    exec i s = writeCommand [b] s := by
  have key : ∀ b : Byte, ∀ i ∈ decodeOneByte b, encode i = .command [b] := by
    intro b i h
    have : (decodeOneByte b).all fun i => encode i == .command [b] := by
      clear h
      revert b
      decide
    simpa [Option.mem_def.1 h] using this
  have h := key b i h
  cases i <;> simp only [encode, Code.command.injEq, List.cons.injEq, reduceCtorEq, and_true, and_false] at h <;>
    subst h <;> rfl

/-- A two-byte command is an instruction whose meaning writes those bytes. -/
theorem exec_twoByte {b d : Byte} {i : Instr} (h : decodeTwoByte b d = some i) (s : State) :
    exec i s = writeCommand [b, d] s := by
  unfold decodeTwoByte at h
  repeat' (split at h; · rename_i hb; subst hb; cases h; rfl)
  cases h

/-! ### The controller's place in a command frame -/

/-- In a command frame the next byte is a command byte or the data byte of one (R57). -/
theorem foldl_afterCommandByte (p : List Byte) (rx : Rx) (h : rx = .command ∨ rx = .operand) :
    p.foldl Rx.afterCommandByte rx = .command ∨ p.foldl Rx.afterCommandByte rx = .operand := by
  induction p generalizing rx with
  | nil => exact h
  | cons b p ih =>
    refine ih _ ?_
    rcases h with rfl | rfl
    · simp only [Rx.afterCommandByte]
      split <;> simp
    · exact .inl rfl

theorem takePayload_rx {c : Controller} (n : Nat) (b : Byte) : (c.takePayload n b).rx = c.rx.afterCommandByte b := by
  cases hx : c.rx
  · simp [Controller.takePayload, hx, Rx.afterCommandByte]
  · simp [Controller.takePayload, hx, Rx.afterCommandByte]
  · cases ho : isTwoByteOpener b
    · cases hb : decodeOneByte b with
      | none => simp [Controller.takePayload, Controller.takeCommand, hx, ho, hb, Rx.afterCommandByte]
      | some i => rw [takePayload_command n hx ho hb]; simp [Rx.afterCommandByte, ho, hx]
    · rw [takePayload_opener n hx ho]
      simp [Rx.afterCommandByte, ho]
  · rw [takePayload_operand n b hx]
    rfl
  · simp only [Controller.takePayload, hx, Controller.takePixel, Rx.afterCommandByte]
    split
    · rfl
    · simp only [Controller.overflow]
      exact hx

theorem takePayloads_rx (p : List Byte) (n : Nat) (c : Controller) :
    (Controller.takePayloads n p c).rx = p.foldl Rx.afterCommandByte c.rx := by
  induction p generalizing n c with
  | nil => rfl
  | cons b p ih => rw [takePayloads_cons, ih, takePayload_rx, List.foldl_cons]

/-- The place at a position inside the payload. -/
theorem rxAt_command (p : List Byte) (j : Nat) :
    rxAt .command p (j + 3) = (p.take j).foldl Rx.afterCommandByte .command := by
  simp [rxAt]

theorem rxAt_data (p : List Byte) (j : Nat) : rxAt .data p (j + 3) = .data := by
  simp [rxAt]

/-- The place moves with the bytes taken. -/
theorem rxAt_advance (kind : StreamKind) (p bs rest : List Byte) (j : Nat) (h : p.drop j = bs ++ rest) :
    bs.foldl Rx.afterCommandByte (rxAt kind p (j + 3)) = rxAt kind p (j + bs.length + 3) := by
  cases kind with
  | data =>
    rw [rxAt_data, rxAt_data]
    clear h
    induction bs with
    | nil => rfl
    | cons b bs ih => exact ih
  | command =>
    rw [rxAt_command, rxAt_command, ← List.foldl_append]
    congr 1
    rw [List.take_add, h, List.take_left]

/-! ### One step -/

/-- At the first call of a frame of a host operation the step opens the transaction (R16). -/
theorem step_open {s : State} {op : BusOp} {f : Nat} (hs : s.seq = .running op f 0) (hf : f < op.frames)
    (hop : ∀ kind p, op ≠ .stream kind p) (ho : s.txnOpen = false) : step s = .next (transportOpen s).state := by
  have : fetch s = .openCall := by
    simp only [fetch, hs, hf, if_true, fetchInFrame]
    cases op <;> first | rfl | exact absurd rfl (hop _ _)
  simp [step, this, ho]

/-- At its first call a frame primitive run on its own is sent whole (log entry 13). -/
theorem step_primitive {s : State} {kind : StreamKind} {p : List Byte} {f : Nat}
    (hs : s.seq = .running (.stream kind p) f 0) (hf : f < (BusOp.stream kind p).frames) (ho : s.txnOpen = false) :
    step s = .next (settle (sendStream kind p s).state) := by
  have hi : fetch s = .instr (frameInstr kind s.busAddr p) := by
    simp only [fetch, hs, hf, if_true, fetchInFrame, BusOp.frame, decode_frame]
  have he : exec (frameInstr kind s.busAddr p) s = .next (sendStream kind p s).state := by
    cases kind <;> exact whenFrameAllowed_eq_next.2 ⟨ho, rfl, rfl⟩
  simp [step, hi, takeInput, hs, he, settleOutcome]

/-- At position 1 the step writes the address byte (R146). -/
theorem step_address {s : State} {op : BusOp} {f : Nat} (hs : s.seq = .running op f 1) (hf : f < op.frames)
    (ho : s.txnOpen = true) (hx : s.ctl.rx = .off) : step s = .next (settle (writeAddress s).state) := by
  have hi : fetch s = .instr (.address s.busAddr) := by
    simp only [fetch, hs, hf, if_true, fetchInFrame, fetchedByte, decode_address]
  have he : exec (.address s.busAddr) s = .next (writeAddress s).state := by
    simp [exec, execAddress, whenByteAt, ho, hx]
  simp [step, hi, takeInput, hs, he, settleOutcome]

/-- At position 2 the step writes the control byte (R125, R126). -/
theorem step_control {s : State} {op : BusOp} {f : Nat} {kind : StreamKind} (hs : s.seq = .running op f 2)
    (hf : f < op.frames) (hk : (op.frame s.fb f).1 = kind) (ho : s.txnOpen = true) (hx : s.ctl.rx = .header) :
    step s = .next (settle (writeControl kind s).state) := by
  cases kind with
  | command =>
    have hi : fetch s = .instr .controlCmdStream := by
      simp only [fetch, hs, hf, if_true, fetchInFrame, hk]
      rfl
    have he : exec .controlCmdStream s = .next (writeControl .command s).state := by
      simp [exec, execControlCmdStream, whenByteAt, ho, hx]
    simp [step, hi, takeInput, hs, he, settleOutcome]
  | data =>
    have hi : fetch s = .instr .controlDataStream := by
      simp only [fetch, hs, hf, if_true, fetchInFrame, hk]
      rfl
    have he : exec .controlDataStream s = .next (writeControl .data s).state := by
      simp [exec, execControlDataStream, whenByteAt, ho, hx]
    simp [step, hi, takeInput, hs, he, settleOutcome]

/-- Past the last byte the step closes the transaction, and the operation ends with its last frame (R16). -/
theorem step_close {s : State} {op : BusOp} {f j : Nat} (hs : s.seq = .running op f (j + 3)) (hf : f < op.frames)
    (hj : (op.frame s.fb f).2.drop j = []) (ho : s.txnOpen = true) : step s = .next (settle (transportClose s)) := by
  have hi : fetch s = .closeCall := by
    simp only [fetch, hs, hf, if_true, fetchInFrame, hj]
  simp [step, hi, ho]

/-- Inside the payload the step writes the next byte, or both bytes of a two-byte command, and nothing else. -/
theorem step_payload {s : State} {op : BusOp} {f j : Nat} (hs : s.seq = .running op f (j + 3)) (hf : f < op.frames)
    (hj : (op.frame s.fb f).2.drop j ≠ []) (ho : s.txnOpen = true)
    (hx : s.ctl.rx = rxAt (op.frame s.fb f).1 (op.frame s.fb f).2 (j + 3)) :
    ∃ bs rest, bs ≠ [] ∧ (op.frame s.fb f).2.drop j = bs ++ rest ∧
      step s = .next (settle (writePayloads bs s).state) := by
  have raw : ∀ b, (writePayloads [b] s).state = (writePayload b s).state := by
    intro b
    rw [writePayloads]
    cases writePayload b s <;> rfl
  cases hd : (op.frame s.fb f).2.drop j with
  | nil => exact absurd hd hj
  | cons b rest =>
    have hfetch : fetch s = fetchInFrame op (op.frame s.fb f).1 (op.frame s.fb f).2 (j + 3) s := by
      simp only [fetch, hs, hf, if_true]
    cases hk : (op.frame s.fb f).1 with
    | data =>
      have hi : fetch s = .instr (.data b) := by
        rw [hfetch]
        simp only [fetchInFrame, hd, hk, fetchedByte, decode]
      have he : exec (.data b) s = .next (writePayload b s).state := by
        rw [hk, rxAt_data] at hx
        simp [exec, execData, whenByteAt, ho, hx]
      exact ⟨[b], rest, by simp, rfl, by simp [step, hi, takeInput, hs, he, settleOutcome, raw]⟩
    | command =>
      rw [hk, rxAt_command] at hx
      rcases foldl_afterCommandByte ((op.frame s.fb f).2.take j) .command (.inl rfl) with hc | hc
      · have hxc : s.ctl.rx = .command := hx.trans hc
        have hi : fetch s = match decodeCommand (b :: rest) with
            | .ok (i, _) => .instr i
            | .error _ => .rawByte b := by
          rw [hfetch]
          simp only [fetchInFrame, hd, hk, fetchCommand, hxc]
          cases decodeCommand (b :: rest) <;> rfl
        have hraw : fetch s = .rawByte b → ∃ bs r, bs ≠ [] ∧ b :: rest = bs ++ r ∧
            step s = .next (settle (writePayloads bs s).state) := fun h =>
          ⟨[b], rest, by simp, rfl, by simp [step, h, ho, raw]⟩
        have hcmd : ∀ i bs, fetch s = .instr i → exec i s = writeCommand bs s →
            step s = .next (settle (writePayloads bs s).state) := fun i bs h he => by
          have : writeCommand bs s = .next (writePayloads bs s).state := whenByteAt_eq_next.2 ⟨ho, hxc, rfl⟩
          simp [step, h, takeInput, hs, he, this, settleOutcome]
        cases hop : isTwoByteOpener b
        · cases hb : decodeOneByte b with
          | none => exact hraw (by rw [hi]; simp [decodeCommand, hop, hb])
          | some i =>
            exact ⟨[b], rest, by simp, rfl,
              hcmd i [b] (by rw [hi]; simp [decodeCommand, hop, hb]) (exec_oneByte hb s)⟩
        · cases rest with
          | nil => exact hraw (by rw [hi]; simp [decodeCommand, hop])
          | cons d rest =>
            cases hb : decodeTwoByte b d with
            | none => exact hraw (by rw [hi]; simp [decodeCommand, hop, hb])
            | some i =>
              exact ⟨[b, d], rest, by simp, rfl,
                hcmd i [b, d] (by rw [hi]; simp [decodeCommand, hop, hb]) (exec_twoByte hb s)⟩
      · have hi : fetch s = .rawByte b := by
          rw [hfetch]
          simp [fetchInFrame, hd, hk, fetchCommand, hx.trans hc]
        exact ⟨[b], rest, by simp, rfl, by simp [step, hi, ho, raw]⟩

end Sys2Proof.Machine
end

