-- ==== Sys2Proof/Laws/Shape.lean ====
section
/-! SUPPORT. The shape of TRACE (40_encoder_framing.md R79) and the canonical form of the controller's RAM: what frames,
cut frames and the Transport calls do to them. -/

namespace Sys2Proof.Machine

/-! ### The shape of TRACE -/

theorem phaseAfter_append (p : BusPhase) (a b : List Event) :
    phaseAfter p (a ++ b) = (phaseAfter p a).bind (phaseAfter · b) := by
  induction a generalizing p with
  | nil => rfl
  | cons e a ih =>
    simp only [List.cons_append, phaseAfter]
    cases p.after e with
    | none => rfl
    | some q => exact ih q

/-- Bytes written Ok stay inside the frame. -/
theorem phaseAfter_wrote (w : List Byte) : phaseAfter .inFrame (w.map fun b => .wrote b .ok) = some .inFrame := by
  induction w with
  | nil => rfl
  | cons b w ih => exact ih

/-- A complete frame leads from between frames to between frames. -/
theorem phaseAfter_frameTrace (w : List Byte) : phaseAfter .between (frameTrace w) = some .between := by
  have h : frameTrace w = [.opened .ok] ++ (w.map (fun b => Event.wrote b .ok) ++ [.closed]) := by simp [frameTrace]
  rw [h, phaseAfter_append, show phaseAfter .between [.opened .ok] = some .inFrame from rfl, Option.bind_some,
    phaseAfter_append, phaseAfter_wrote]
  rfl

/-- So does any sequence of them. -/
theorem phaseAfter_frames (ws : List (List Byte)) : phaseAfter .between (ws.flatMap frameTrace) = some .between := by
  induction ws with
  | nil => rfl
  | cons w ws ih => rw [List.flatMap_cons, phaseAfter_append, phaseAfter_frameTrace, Option.bind_some, ih]

/-- A cut frame ends between frames (R76). -/
theorem phaseAfter_cutTrace (w : List Byte) {j : Nat} (h : j < w.length) :
    phaseAfter .inFrame (cutTrace w j) = some .between := by
  induction w generalizing j with
  | nil => cases h
  | cons b w ih =>
    cases j with
    | zero => rfl
    | succ j => exact ih (by simpa using h)

/-- Frames up to a failing call end between frames (R75, R76). -/
theorem phaseAfter_abortTrace (ws : List (List Byte)) (j : Nat) :
    phaseAfter .between (abortTrace ws j) = some .between := by
  induction ws generalizing j with
  | nil => rfl
  | cons w ws ih =>
    unfold abortTrace
    split
    · rfl
    · split
      · exact phaseAfter_cutTrace w (by omega)
      · rw [phaseAfter_append, phaseAfter_frameTrace]
        exact ih _

/-! ### The controller's RAM keeps its canonical form, whatever the Transport answers -/

/-- The controller's RAM is in canonical form after the calls, however they went. -/
def Flow.CramWf (x : Flow) : Prop := x.state.ctl.cram.wf = true

theorem cramWf_andThen {x : Flow} {f : State → Flow} (h : x.CramWf)
    (hf : ∀ s : State, s.ctl.cram.wf = true → (f s).CramWf) : (x.andThen f).CramWf := by
  cases x with
  | go t => exact hf t h
  | stop t => exact h

theorem loseImageOfSync_wf {s : State} (h : s.ctl.cram.wf = true) : (loseImageOfSync s).ctl.cram.wf = true := by
  unfold loseImageOfSync
  split
  · simp only [Controller.loseAll]
    exact Memory.wf_tabulate _
  all_goals exact h

theorem loseFrame_wf {s : State} (h : s.ctl.cram.wf = true) : (loseFrame s).ctl.cram.wf = true := by
  unfold loseFrame
  split
  · exact h
  · exact h
  · split <;> exact h
  · split <;> exact h
  · simp only [Controller.loseAll]
    exact Memory.wf_tabulate _

theorem transportOpen_wf {s : State} (h : s.ctl.cram.wf = true) : (transportOpen s).CramWf := by
  cases hr : s.resultAhead 0
  · rw [transportOpen_ok hr]
    exact h
  · rw [transportOpen_fail hr, Flow.CramWf, stop_state, raiseError_cram]
    exact loseImageOfSync_wf (s := s.drawn.log (.opened .fail)) h

theorem transportWrite_wf (b : Byte) {take : Nat → Controller → Controller} {s : State}
    (ht : ∀ n c, c.cram.wf = true → (take n c).cram.wf = true) (h : s.ctl.cram.wf = true) :
    (transportWrite b take s).CramWf := by
  cases hr : s.resultAhead 0
  · rw [transportWrite_ok hr]
    exact ht _ _ h
  · rw [transportWrite_fail hr, Flow.CramWf, stop_state, raiseError_cram]
    exact loseImageOfSync_wf (loseFrame_wf (s := s.drawn.log (.wrote b .fail)) h)

theorem writeAddress_wf {s : State} (h : s.ctl.cram.wf = true) : (writeAddress s).CramWf :=
  transportWrite_wf _ (fun _ _ h => h) h

theorem writeControl_wf (kind : StreamKind) {s : State} (h : s.ctl.cram.wf = true) : (writeControl kind s).CramWf :=
  transportWrite_wf _ (fun _ _ h => by cases kind <;> exact h) h

theorem writePayloads_wf (p : List Byte) {s : State} (h : s.ctl.cram.wf = true) : (writePayloads p s).CramWf := by
  induction p generalizing s with
  | nil => exact h
  | cons b p ih => exact cramWf_andThen (transportWrite_wf b (fun n _ h => takePayload_wf n b h) h) fun _ h => ih h

theorem sendStream_wf (kind : StreamKind) (p : List Byte) {s : State} (h : s.ctl.cram.wf = true) :
    (sendStream kind p s).CramWf :=
  cramWf_andThen (transportOpen_wf h) fun _ h =>
    cramWf_andThen
      (cramWf_andThen (cramWf_andThen (writeAddress_wf h) fun _ h => writeControl_wf kind h) fun _ h =>
        writePayloads_wf p h)
      fun _ h => h

theorem syncPages_wf (l : List Nat) {s : State} (h : s.ctl.cram.wf = true) : (syncPages l s).CramWf := by
  induction l generalizing s with
  | nil => exact h
  | cons pg l ih =>
    exact cramWf_andThen (cramWf_andThen (sendStream_wf _ _ h) fun _ h => sendStream_wf _ _ h) fun _ h => ih h

/-- After the pages of SYNC the controller stands outside a frame, however they went. -/
theorem syncPages_rx (l : List Nat) {s : State} (hx : s.ctl.rx = .off) (ho : s.txnOpen = false) :
    (syncPages l s).state.ctl.rx = .off := by
  induction l generalizing s with
  | nil => exact hx
  | cons pg l ih =>
    rw [syncPages, syncPage]
    rcases sendStream_cases .command (addressPayload pg) s ho with ⟨_, h⟩ | ⟨_, t, _, _, ht, _, hxx, _⟩
    · rw [h, go_andThen]
      generalize hu : s.afterFrame _ _ = u
      have hou : u.txnOpen = false := by rw [← hu]; rfl
      have hxu : u.ctl.rx = .off := by rw [← hu]; rfl
      rcases sendStream_cases .data (pageBytes u.fb pg) u hou with ⟨_, h⟩ | ⟨_, t, _, _, ht, _, hxx, _⟩
      · rw [h, go_andThen]
        exact ih rfl rfl
      · rw [ht]
        exact hxx hxu
    · rw [ht]
      exact hxx hx

/-! ### A control in which a call fails leaves image and cursor alone (R148) -/

theorem loseFrame_control {s : State} (h : s.seq.isControl = true) (hx : s.ctl.rx ≠ .data) : loseFrame s = s := by
  unfold loseFrame
  split
  · rfl
  · rfl
  · rw [if_pos h]
  · rw [if_pos h]
  · exact absurd ‹_› hx

theorem notSync_of_control {q : Sequencer} (h : q.isControl = true) : q.NotSync := by
  rintro f k rfl
  cases h

/-- A failed write of a control moves nothing of the controller but its place. -/
theorem transportWrite_fail_control {s : State} (b : Byte) (take : Nat → Controller → Controller)
    (h : s.resultAhead 0 = .fail) (hc : s.seq.isControl = true) (hx : s.ctl.rx ≠ .data) :
    ∃ x, (transportWrite b take s).state.ctl = { s.ctl with rx := x } := by
  rw [transportWrite_fail h, stop_state, loseFrame_control (by simpa using hc) (by simpa using hx),
    loseImageOfSync_of_notSync (by simpa using notSync_of_control hc)]
  cases ho : s.txnOpen
  · rw [raiseError_closed _ (by simpa using ho)]
    exact ⟨_, rfl⟩
  · rw [raiseError_open _ (by simpa using ho)]
    exact ⟨_, rfl⟩

/-! ### Ends of operations and runs -/

theorem settle_idle {s : State} (h : s.seq = .idle) : settle s = s := by
  simp [settle, h]

theorem settle_inside {s : State} {op : BusOp} {f k : Nat} (h : s.seq = .running op f k) (hk : k ≠ 0) :
    settle s = s := by
  simp [settle, h, hk]

theorem settle_more {s : State} {op : BusOp} {f k : Nat} (h : s.seq = .running op f k) (hf : f < op.frames) :
    settle s = s := by
  simp only [settle, h, if_neg (fun hh : k = 0 ∧ op.frames ≤ f => absurd hh.2 (Nat.not_le.2 hf))]

theorem settle_last {s : State} {op : BusOp} {f : Nat} (h : s.seq = .running op f 0) (hf : op.frames ≤ f) :
    settle s = finishOp op s := by
  simp [settle, h, hf]

theorem writePayloads_append (p q : List Byte) (s : State) :
    writePayloads (p ++ q) s = (writePayloads p s).andThen (writePayloads q) := by
  induction p generalizing s with
  | nil => rfl
  | cons b p ih =>
    simp only [List.cons_append, writePayloads]
    cases writePayload b s <;> simp [ih]

/-- A run of n + 1 steps is a step and a run of n. -/
theorem run_of_step (M : Host.Core) {n : Nat} {s t : M.State} (h : M.step s = .next t) :
    M.run (n + 1) s = M.run n t := by
  simp only [Host.Core.run, h]

theorem step_of_run (M : Host.Core) {n : Nat} {s t : M.State} (h : M.run (n + 1) s = .next t) :
    ∃ u, M.step s = .next u ∧ M.run n u = .next t := by
  simp only [Host.Core.run] at h
  cases hs : M.step s with
  | next u =>
    rw [hs] at h
    exact ⟨u, rfl, h⟩
  | fault r =>
    rw [hs] at h
    cases h
  | refused r =>
    rw [hs] at h
    cases h

end Sys2Proof.Machine
end

