-- ==== Sys2Proof/Tests/Slice0.lean ====
section
/-! SUPPORT. The model's own tests. Expected values are those of spec/95_test_vectors.md (cited as V1, V2, ...), of the
rules, or written out from the encoding tables; then, for every statement with hypotheses, a witness that meets them. -/

namespace Sys2Proof.Tests

open Sys2Proof.Machine

/-! ### Small states -/

/-- The state after reset with named Transport results. -/
def fresh (draws : List Result) : State := { State.reset with draws := draws }

/-- Ready, BUS_ADDR 0x3C, FB all zero. -/
def ready (draws : List Result) : State :=
  { State.reset with mode := .ready, busAddr := 0x3C, fb := Memory.tabulate (fun _ => 0x00), draws := draws }

/-- Inside an open frame of a stream, at the place rx, no operation of the host running. -/
def inFrame (rx : Rx) (draws : List Result) : State :=
  { State.reset with busAddr := 0x3C, txnOpen := true, draws := draws, ctl := { cram := [], cpage := 1, ccol := 130, rx := rx } }

/-- n results Ok. -/
def oks (n : Nat) : List Result := List.replicate n .ok

/-- j results Ok, then a failure. -/
def oksThenFail (j : Nat) : List Result := oks j ++ [.fail]

/-- TRACE after an instruction that gave a next state. -/
def traceOf (x : Host.Outcome State Fault Refusal) : Option (List Event) :=
  match x with
  | .next t => some t.trace
  | .fault _ | .refused _ => none

/-- Responses, MODE, TXN_OPEN and whether SEQ is Idle, after an instruction that gave a next state. -/
def endOf (x : Host.Outcome State Fault Refusal) : Option (List Response × Mode × Bool × Bool) :=
  match x with
  | .next t => some (t.responses, t.mode, t.txnOpen, t.isIdle)
  | .fault _ | .refused _ => none

/-- What the controller holds of a cell, its page, column and place, after an instruction that gave a next state. -/
def ctlOf (x : Host.Outcome State Fault Refusal) : Option Controller :=
  match x with
  | .next t => some t.ctl
  | .fault _ | .refused _ => none

/-- A framebuffer byte after an instruction that gave a next state. -/
def fbOf (x : Host.Outcome State Fault Refusal) (i : Nat) : Option Byte :=
  match x with
  | .next t => t.fb.read i
  | .fault _ | .refused _ => none

/-- SEQ after a step that gave a next state. -/
def seqOf (x : Host.Outcome State Fault Refusal) : Option Sequencer :=
  match x with
  | .next t => some t.seq
  | .fault _ | .refused _ => none

/-! ### Well-formedness: a term each check refuses -/

theorem test_wellFormed_longest : WellFormed (.sendDataStream 0x3C (List.replicate 132 0xFF)) = true := by
  simp [WellFormed, maxPayload]
theorem test_wellFormed_cmd_too_long : WellFormed (.sendCmdStream 0x3C (List.replicate 133 0xAE)) = false := by
  simp [WellFormed, maxPayload]
theorem test_wellFormed_data_too_long : WellFormed (.sendDataStream 0x3C (List.replicate 133 0x00)) = false := by
  simp [WellFormed, maxPayload]

/-! ### Decoding: words written out from the encoding tables -/

-- section 9 of the vectors
theorem test_decode_init : decode (.request 0b000000111100) = .ok (.init 0x3C) := by decide
theorem test_decode_init_top : decode (.request 0x07F) = .ok (.init 0x7F) := by decide
theorem test_decode_init_reserved : decode (.request 0x080) = .error .reservedRequest := by decide
theorem test_decode_power : decode (.request 0b000100000001) = .ok (.setPower true) := by decide
theorem test_decode_power_reserved : decode (.request 0x102) = .error .reservedRequest := by decide
theorem test_decode_contrast : decode (.request 0b001011111111) = .ok (.setContrast 0xFF) := by decide
theorem test_decode_polarity : decode (.request 0b001100000001) = .ok (.setPolarity true) := by decide
theorem test_decode_polarity_reserved : decode (.request 0x380) = .error .reservedRequest := by decide
theorem test_decode_fill : decode (.request 0b010010100101) = .ok (.fill 0xA5) := by decide
theorem test_decode_clear : decode (.request 0x400) = .ok (.fill 0x00) := by decide
theorem test_decode_sync : decode (.request 0b010100000000) = .ok .sync := by decide
theorem test_decode_sync_reserved : decode (.request 0x501) = .error .reservedRequest := by decide
theorem test_decode_debug : decode (.request 0b011000000001) = .ok (.setDebug true) := by decide
theorem test_decode_debug_reserved : decode (.request 0x604) = .error .reservedRequest := by decide
theorem test_decode_op7 : decode (.request 0x700) = .error .reservedRequest := by decide
theorem test_decode_opF : decode (.request 0xFFF) = .error .reservedRequest := by decide

-- frames and header bytes (R51 to R53, V40 to V43)
theorem test_decode_cmd_frame : decode (.frame [0b01111000, 0b00000000, 0xAF]) = .ok (.sendCmdStream 0x3C [0xAF]) := by
  decide
theorem test_decode_data_frame : decode (.frame [0b01111000, 0b01000000, 0x01, 0x80]) = .ok (.sendDataStream 0x3C [0x01, 0x80]) := by
  decide
theorem test_decode_empty_frame : decode (.frame [0x78, 0x00]) = .ok (.sendCmdStream 0x3C []) := by decide
theorem test_decode_read_frame : decode (.frame [0x79, 0x00]) = .error .writeBitSet := by decide
theorem test_decode_bad_control : decode (.frame [0x78, 0x80]) = .error .unknownControlByte := by decide
theorem test_decode_short_frame : decode (.frame [0x78]) = .error .truncatedFrame := by decide
theorem test_decode_address : decode (.addressByte 0b10101010) = .ok (.address 0x55) := by decide
theorem test_decode_address_read : decode (.addressByte 0xAB) = .error .writeBitSet := by decide
theorem test_decode_control_cmd : decode (.controlByte 0b00000000) = .ok .controlCmdStream := by decide
theorem test_decode_control_data : decode (.controlByte 0b01000000) = .ok .controlDataStream := by decide
theorem test_decode_data : decode (.pixelByte 0b10000001) = .ok (.data 0x81) := by decide

-- command bytes (R54 to R56)
theorem test_decode_displayOff : decode (.command [0b10101110]) = .ok .displayOff := by decide
theorem test_decode_displayOn : decode (.command [0b10101111]) = .ok .displayOn := by decide
theorem test_decode_columnLower4 : decode (.command [0b00001111]) = .ok (.columnLower4 15) := by decide
theorem test_decode_columnUpper4 : decode (.command [0b00011000]) = .ok (.columnUpper4 8) := by decide
theorem test_decode_pageAddress : decode (.command [0b10110111]) = .ok (.pageAddress 7) := by decide
theorem test_decode_page_above : decode (.command [0b10111000]) = .error .unknownCommand := by decide
theorem test_decode_scan : decode (.command [0b11000000]) = .ok .commonScanDirection := by decide
theorem test_decode_startLine : decode (.command [0b01000000]) = .ok .displayStartLine := by decide
theorem test_decode_remap : decode (.command [0b10100001]) = .ok (.segmentRemap 1) := by decide
theorem test_decode_normal : decode (.command [0b10100110]) = .ok .displayNormal := by decide
theorem test_decode_reversed : decode (.command [0b10100111]) = .ok .displayReversed := by decide
theorem test_decode_entire : decode (.command [0b10100100]) = .ok .entireDisplayOn := by decide
theorem test_decode_contrastMode : decode (.command [0b10000001, 0x81]) = .ok (.contrastMode 0x81) := by decide
theorem test_decode_multiplex : decode (.command [0b10101000, 0x3F]) = .ok (.multiplexRatio 0x3F) := by decide
theorem test_decode_offset : decode (.command [0b11010011, 0x00]) = .ok (.displayOffset 0x00) := by decide
theorem test_decode_oscillator : decode (.command [0b11010101, 0xF0]) = .ok (.oscillatorFreq 0xF0) := by decide
theorem test_decode_precharge : decode (.command [0b11011001, 0x22]) = .ok (.prechargeDischarge 0x22) := by decide
theorem test_decode_padsConfig : decode (.command [0b11011010, 0x12]) = .ok (.commonPadsConfig 0x12) := by decide
theorem test_decode_padsVoltage : decode (.command [0b11011011, 0x20]) = .ok (.commonPadsVoltage 0x20) := by decide
theorem test_decode_chargePump : decode (.command [0b10001101, 0x14]) = .ok (.chargePump 0x14) := by decide
theorem test_decode_truncated : decode (.command [0x81]) = .error .truncatedCommand := by decide
theorem test_decode_trailing : decode (.command [0xAE, 0xAF]) = .error .trailingBytes := by decide
theorem test_decode_unknown : decode (.command [0xE3]) = .error .unknownCommand := by decide

-- V2: the payload of INIT
theorem test_V2_parse :
    decodeCommands initPayload = .ok
      [.displayOff, .columnLower4 2, .columnUpper4 0, .pageAddress 0, .commonScanDirection, .columnLower4 0,
       .columnUpper4 0, .displayStartLine, .contrastMode 0x7F, .segmentRemap 1, .displayNormal, .multiplexRatio 0x3F,
       .entireDisplayOn, .displayOffset 0x00, .oscillatorFreq 0xF0, .prechargeDischarge 0x22, .commonPadsConfig 0x12,
       .commonPadsVoltage 0x20, .chargePump 0x14, .displayOn] := by decide

-- V40: address bytes
theorem test_V40_addresses :
    [0x00, 0x01, 0x3C, 0x3D, 0x40, 0x55, 0x7F].map addressByte = [0x00, 0x02, 0x78, 0x7A, 0x80, 0xAA, 0xFE] := by
  decide

-- bare table words (log entry 19)
theorem test_tableWord_sync : decodeTableWord 12 0x500 = some .sync := by decide
theorem test_tableWord_two : decodeTableWord 16 0xD3AB = some (.displayOffset 0xAB) := by decide
theorem test_tableWord_page : decodeTableWord 8 0xB5 = some (.pageAddress 5) := by decide
theorem test_tableWord_frame : decodeTableWord 16 0x7840 = some (.sendDataStream 0x3C []) := by decide

/-! ### The framebuffer's layout (R31, R32, V31) -/

theorem test_index_V31 : index 3 5 = 401 ∧ pageOf 401 = 3 ∧ columnOf 401 = 5 ∧ pixelRow 3 0 = 24 := by decide
theorem test_index_ends : index 0 131 = 131 ∧ index 1 0 = 132 ∧ index 7 131 = 1055 := by decide
theorem test_column_nibbles : columnOfNibbles 8 3 = 0x83 := by decide

-- V31: the marked byte is byte 5 of the data frame of page 3, SYNC's frame 7
theorem test_V31_frame : ((BusOp.sync.frame [(401, 0x01)] 7).2)[5]? = some 0x01 := by decide
theorem test_sync_address_frame : BusOp.sync.frame [] 10 = (.command, [0x00, 0x10, 0xB5]) := by decide

/-! ### INIT -/

-- V1
theorem test_V1 :
    traceOf (exec (.init 0x3C) (fresh (oks 31))) = some (frameTrace
      [0x78, 0x00, 0xAE, 0x02, 0x10, 0xB0, 0xC0, 0x00, 0x10, 0x40, 0x81, 0x7F, 0xA1, 0xA6, 0xA8, 0x3F, 0xA4, 0xD3, 0x00,
       0xD5, 0xF0, 0xD9, 0x22, 0xDA, 0x12, 0xDB, 0x20, 0x8D, 0x14, 0xAF]) ∧
      endOf (exec (.init 0x3C) (fresh (oks 31))) = some ([.ok], .ready, false, true) := by decide
-- V4, V5
theorem test_V4_V5 :
    traceOf (exec (.init 0x3C) (fresh [.fail])) = some [.opened .fail] ∧
      endOf (exec (.init 0x3C) (fresh [.fail])) = some ([.transportError], .uninitialized, false, true) ∧
      traceOf (exec (.init 0x3C) (fresh (oksThenFail 12))) = some
        [.opened .ok, .wrote 0x78 .ok, .wrote 0x00 .ok, .wrote 0xAE .ok, .wrote 0x02 .ok, .wrote 0x10 .ok, .wrote 0xB0 .ok,
         .wrote 0xC0 .ok, .wrote 0x00 .ok, .wrote 0x10 .ok, .wrote 0x40 .ok, .wrote 0x81 .ok, .wrote 0x7F .fail, .closed] := by
  decide

/-! ### The controls -/

-- V8, V9
theorem test_V8 : traceOf (exec (.setPower true) (ready (oks 4))) =
    some [.opened .ok, .wrote 0x78 .ok, .wrote 0x00 .ok, .wrote 0xAF .ok, .closed] := by decide
theorem test_V9 : traceOf (exec (.setPower false) (ready (oks 4))) =
    some [.opened .ok, .wrote 0x78 .ok, .wrote 0x00 .ok, .wrote 0xAE .ok, .closed] := by decide
-- V13, V19
theorem test_V13 : traceOf (exec (.setContrast 0x81) (ready (oks 5))) =
    some [.opened .ok, .wrote 0x78 .ok, .wrote 0x00 .ok, .wrote 0x81 .ok, .wrote 0x81 .ok, .closed] := by decide
theorem test_V19 : traceOf (exec (.setContrast 0x80) (ready (oksThenFail 3))) =
    some [.opened .ok, .wrote 0x78 .ok, .wrote 0x00 .ok, .wrote 0x81 .fail, .closed] ∧
      endOf (exec (.setContrast 0x80) (ready (oksThenFail 3))) = some ([.transportError], .ready, false, true) := by
  decide
-- V15, V16
theorem test_V15 : traceOf (exec (.setPolarity true) (ready (oks 4))) =
    some [.opened .ok, .wrote 0x78 .ok, .wrote 0x00 .ok, .wrote 0xA7 .ok, .closed] := by decide
theorem test_V16 : traceOf (exec (.setPolarity false) (ready (oks 4))) =
    some [.opened .ok, .wrote 0x78 .ok, .wrote 0x00 .ok, .wrote 0xA6 .ok, .closed] := by decide

/-! ### FILL, CLEAR, the write port, SET_DEBUG -/

-- V20, at the ends of the first page and of the buffer
theorem test_V20 : ∀ i ∈ [0, 131, 132, 1055], fbOf (exec (.fill 0xFF) (ready [])) i = some 0xFF := by
  intro i hi
  rw [exec, execFill, whenIdle_idle _ rfl, whenReady_ready _ rfl, fbOf, fillWith, respond_fb, notify_fb]
  rw [Memory.read_tabulate, if_pos]
  revert i
  decide
-- V22
theorem test_V22_trace : traceOf (exec .clear (ready [])) = some [] := by rfl
-- V23
theorem test_V23 : endOf (exec (.fill 0xFF) (fresh [])) = some ([.configurationError], .uninitialized, false, true) ∧
    traceOf (exec (.fill 0xFF) (fresh [])) = some [] ∧ fbOf (exec (.fill 0xFF) (fresh [])) 0 = none := by decide
-- V33
theorem test_V33 : endOf (exec .sync (fresh [])) = some ([.configurationError], .uninitialized, false, true) := by
  decide
-- V34
theorem test_V34 : traceOf (exec .sync (ready [.fail])) = some [.opened .fail] := by rfl
-- V37
theorem test_V37 : endOf (exec (.setDebug true) (fresh [])) = some ([.ok], .uninitialized, false, true) := by decide
-- R107
theorem test_R107_absent :
    step { ready [] with requests := [.fbWrite 0 0xFF] } = .refused .noWritePort := by rfl
theorem test_R107_range :
    step { ready [] with requests := [.fbWrite 1056 0xFF], fbWritePort := true } = .refused .fbIndexOutOfRange := by rfl

/-! ### Frames -/

-- V41
theorem test_V41_ok : traceOf (exec (.sendCmdStream 0x3C [0xAF]) (ready (oks 4))) =
    some [.opened .ok, .wrote 0x78 .ok, .wrote 0x00 .ok, .wrote 0xAF .ok, .closed] := by decide
theorem test_V41_last : traceOf (exec (.sendCmdStream 0x3C [0xAF]) (ready (oksThenFail 3))) =
    some [.opened .ok, .wrote 0x78 .ok, .wrote 0x00 .ok, .wrote 0xAF .fail, .closed] := by decide
-- V42
theorem test_V42 : traceOf (exec (.sendDataStream 0x3C []) (ready (oks 3))) =
    some [.opened .ok, .wrote 0x78 .ok, .wrote 0x40 .ok, .closed] := by decide
-- V43
theorem test_V43 : ctlOf (exec (.sendDataStream 0x3C [0x01, 0x80]) (ready (oks 5))) =
    some { cram := [(0, 0x01), (1, 0x80)], cpage := 0, ccol := 2, rx := .off } := by decide

/-! ### Bytes delivered to the controller -/

-- V50
theorem test_V50 : Controller.takePayloads 0 [0x00, 0x10, 0xB3] { cram := [], cpage := 7, ccol := 132, rx := .command } =
    { cram := [], cpage := 3, ccol := 0, rx := .command } := by decide
-- V51, V52
theorem test_V51 : Controller.takePayloads 0 [0x02, 0x10] { cram := [], cpage := 0, ccol := 0, rx := .command } =
    { cram := [], cpage := 0, ccol := 2, rx := .command } := by decide
theorem test_V52 : ctlOf (exec (.columnUpper4 0) { inFrame .command (oks 1) with ctl := { cram := [], cpage := 0, ccol := 0x84, rx := .command } }) =
    some { cram := [], cpage := 0, ccol := 0x04, rx := .command } := by decide
-- V53
theorem test_V53 : ctlOf (exec (.pageAddress 5) (inFrame .command (oks 1))) =
    some { cram := [], cpage := 5, ccol := 130, rx := .command } := by decide
-- V54: the first two bytes, and the third past the last column
theorem test_V54 : Controller.takePayloads 0 [0x11, 0x22] (inFrame .data []).ctl =
    { cram := [(262, 0x11), (263, 0x22)], cpage := 1, ccol := 132, rx := .data } ∧
      (Controller.takePayload 2 0x33 { cram := [], cpage := 1, ccol := 132, rx := .data }).cpage = 1 :=
  ⟨by decide, rfl⟩
theorem test_data_byte : ctlOf (exec (.data 0x11) (inFrame .data (oks 1))) =
    some { cram := [(262, 0x11)], cpage := 1, ccol := 131, rx := .data } := by decide
-- V55
theorem test_V55 : Controller.takePayloads 0 [0xA7, 0x81, 0x80, 0xAE] (inFrame .command []).ctl = (inFrame .command []).ctl := by
  decide
-- V17: the data byte 0x40 after 0x81 is no start line command, nor 0x02 a column
theorem test_V17 : ctlOf (exec (.contrastMode 0x02) (inFrame .command (oks 2))) = some (inFrame .command []).ctl := by decide
-- columns and low nibble kept apart (R129)
theorem test_columnLower4 : ctlOf (exec (.columnLower4 7) (inFrame .command (oks 1))) =
    some { cram := [], cpage := 1, ccol := 0x87, rx := .command } := by decide
-- an opaque command of each length
theorem test_displayOff : traceOf (exec .displayOff (inFrame .command (oks 1))) = some [.wrote 0xAE .ok] := by decide
theorem test_chargePump : traceOf (exec (.chargePump 0x14) (inFrame .command (oks 2))) =
    some [.wrote 0x8D .ok, .wrote 0x14 .ok] := by decide
-- header bytes
theorem test_address : traceOf (exec (.address 0x3C) (inFrame .off (oks 1))) = some [.wrote 0x78 .ok] := by decide
theorem test_address_place : ctlOf (exec (.address 0x3C) (inFrame .off (oks 1))) =
    some { cram := [], cpage := 1, ccol := 130, rx := .header } := by decide
theorem test_control_data : ctlOf (exec .controlDataStream (inFrame .header (oks 1))) =
    some { cram := [], cpage := 1, ccol := 130, rx := .data } := by decide
-- misplaced bytes
theorem test_data_in_command_stream : exec (.data 0x11) (inFrame .command []) = .fault .wrongPosition := by rfl
-- R51: the control byte is written byte 1, the address byte written byte 0 and no other
theorem test_control_before_address : exec .controlCmdStream (inFrame .off []) = .fault .wrongPosition := by rfl
theorem test_address_twice : exec (.address 0x3C) (inFrame .header []) = .fault .wrongPosition := by rfl
theorem test_byte_outside : exec .displayOff (fresh []) = .fault .noOpenTransaction := by rfl
theorem test_foreign_address : exec (.address 0x3D) (inFrame .off []) = .fault .foreignAddress := by rfl

/-! ### The step -/

theorem test_step_waits : step State.reset = .next State.reset := by rfl
theorem test_step_reserved : step { fresh [] with requests := [.request 0x0BC] } = .refused .reservedRequest := by rfl
theorem test_step_request :
    endOf (step { fresh [] with requests := [.request 0x280] }) = some ([.configurationError], .uninitialized, false, true) := by
  decide

/-- SET_CONTRAST 0x80 under way, at position k. -/
def contrastAt (k : Nat) (rx : Rx) : State :=
  { ready (oks 1128) with seq := .running (.setContrast 0x80) 0 k, txnOpen := decide (0 < k), trace := [.opened .ok], ctl := { Controller.reset with rx := rx } }

theorem test_step_open : seqOf (step (contrastAt 0 .off)) = some (.running (.setContrast 0x80) 0 1) := by decide
theorem test_step_address : traceOf (step (contrastAt 1 .off)) = some [.opened .ok, .wrote 0x78 .ok] := by decide
theorem test_step_control : traceOf (step (contrastAt 2 .header)) = some [.opened .ok, .wrote 0x00 .ok] := by decide
theorem test_step_two_bytes : seqOf (step (contrastAt 3 .command)) = some (.running (.setContrast 0x80) 0 5) := by decide
theorem test_step_operand : traceOf (step (contrastAt 4 .operand)) = some [.opened .ok, .wrote 0x80 .ok] := by decide
theorem test_step_close : endOf (step (contrastAt 5 .command)) = some ([.ok], .ready, false, true) := by decide
theorem test_step_outOfScript :
    step { ready [] with seq := .running (.setPower true) 1 0 } = .fault .sequencerOutOfScript := by rfl
theorem test_withFetchWord :
    traceOf (step ((fresh (oks 1)).withFetchWord 8 0xAE)) = some [.wrote 0xAE .ok] := by decide
theorem test_withFetchWord_control :
    traceOf (step ((fresh (oks 1)).withFetchWord 8 0x40)) = some [.wrote 0x40 .ok] := by decide
-- 0x3101 has an odd address byte (R52), so it is no frame, and it is no request word either (log entry 19)
theorem test_withFetchWord_rejected : step ((fresh []).withFetchWord 16 0x3101) = .refused .reservedRequest := by rfl
theorem test_withFetchWord_reserved : step ((fresh []).withFetchWord 12 0x102) = .refused .reservedRequest := by rfl

/-! ### Witnesses: states and operands that meet the hypotheses of the statements -/

theorem allOk_oks {s : State} {n : Nat} (h : s.draws = oks n) : s.allOk n := by
  intro k hk
  simp [State.resultAhead, h, oks, hk]

theorem failsAt_oksThenFail {s : State} {j : Nat} (h : s.draws = oksThenFail j) : s.failsAt j := by
  constructor
  · intro k hk
    have hl : k < (oks j).length := by simpa [oks] using hk
    rw [State.resultAhead, h, oksThenFail, List.getElem?_append_left hl]
    simp [oks, hk]
  · simp [State.resultAhead, h, oksThenFail, oks]

theorem witness_DecodedIsEncoded : decode (.command [0xD3, 0xAE]) = .ok (.displayOffset 0xAE) := by decide

theorem witness_ReservedRequestsRefused :
    { fresh [] with requests := [.request 0x080] }.seq = .idle ∧
      { fresh [] with requests := [.request 0x080] }.requests = .request 0x080 :: [] ∧
      decode (.request 0x080) = .error .reservedRequest := by decide

theorem witness_CommandPayloadParses :
    ∀ i ∈ [Instr.displayOff, .contrastMode 0xAE, .pageAddress 7, .chargePump 0x8D], isCommand i = true := by decide

theorem witness_FramebufferLayout : (7 ≤ 7 ∧ 131 ≤ 131) ∧ 1055 ≤ 1055 := by decide

theorem witness_WaitsForRequest : State.reset.seq = .idle ∧ State.reset.requests = [] := by decide

theorem witness_StepRunsRequest :
    { fresh [] with requests := [.request 0x03C] }.seq = .idle ∧
      { fresh [] with requests := [.request 0x03C] }.requests = .request 0x03C :: [] ∧
      decode (.request 0x03C) = .ok (.init 0x3C) := by decide

/-- SYNC under way, at position k of frame f. -/
def syncAt (f k : Nat) (rx : Rx) : State :=
  { ready (oks 1128) with seq := .running .sync f k, txnOpen := decide (0 < k), ctl := { Controller.reset with rx := rx } }

/-- A primitive run on its own, at its first call. -/
def primitiveAt (kind : StreamKind) (payload : List Byte) : State :=
  { ready (oks 1128) with seq := .running (.stream kind payload) 0 0 }

theorem witness_StepRunsFrameBytes_primitive :
    0 < (BusOp.stream .command [0xAE]).frames ∧ (BusOp.stream .command [0xAE]).frame [] 0 = (.command, [0xAE]) ∧
      (primitiveAt .command [0xAE]).seq = .running (.stream .command [0xAE]) 0 0 := by decide

theorem witness_StepRunsFrameBytes_command :
    0 < (BusOp.setContrast 0x80).frames ∧ (BusOp.setContrast 0x80).frame [] 0 = (.command, [0x81, 0x80]) ∧
      (contrastAt 1 .off).seq = .running (.setContrast 0x80) 0 1 ∧
      (contrastAt 2 .header).seq = .running (.setContrast 0x80) 0 2 ∧
      (contrastAt 3 .command).seq = .running (.setContrast 0x80) 0 (0 + 3) ∧ (contrastAt 3 .command).ctl.rx ≠ .operand ∧
      decodeCommand ([0x81, 0x80].drop 0) = .ok (.contrastMode 0x80, []) := by decide

theorem witness_StepRunsFrameBytes_data :
    15 < BusOp.sync.frames ∧ (BusOp.sync.frame (syncAt 15 2 .header).fb 15).1 = .data ∧
      (syncAt 15 2 .header).seq = .running .sync 15 2 ∧ (syncAt 15 134 .data).seq = .running .sync 15 (131 + 3) ∧
      ∃ d rest, (BusOp.sync.frame (syncAt 15 134 .data).fb 15).2.drop 131 = d :: rest := by
  refine ⟨by decide, rfl, rfl, rfl, ?_⟩
  have h : 131 < (pageBytes (syncAt 15 134 .data).fb 7).length := by rw [length_pageBytes]; decide
  exact ⟨_, _, List.drop_eq_getElem_cons h⟩

theorem witness_StepMakesCalls :
    (contrastAt 0 .off).seq = .running (.setContrast 0x80) 0 0 ∧ (contrastAt 0 .off).txnOpen = false ∧
      (contrastAt 4 .operand).seq = .running (.setContrast 0x80) 0 (1 + 3) ∧ (contrastAt 4 .operand).ctl.rx = .operand ∧
      [0x81, (0x80 : Byte)].drop 1 = 0x80 :: [] ∧ (contrastAt 4 .operand).txnOpen = true ∧
      (contrastAt 5 .command).seq = .running (.setContrast 0x80) 0 (2 + 3) ∧ [0x81, (0x80 : Byte)].length ≤ 2 ∧
      (contrastAt 5 .command).txnOpen = true := by decide

theorem witness_RequestWhileBusyRefused : isHostOp .sync = true ∧ (contrastAt 1 .off).seq ≠ .idle := by decide

theorem witness_InitCompletes_first :
    (fresh (oks 31)).seq = .idle ∧ (fresh (oks 31)).mode = .uninitialized ∧ (fresh (oks 31)).allOk 31 :=
  ⟨rfl, rfl, allOk_oks rfl⟩

theorem witness_InitCompletes_repeated :
    (ready (oks 31)).seq = .idle ∧ (ready (oks 31)).busAddr = 0x3C ∧ (ready (oks 31)).allOk 31 :=
  ⟨rfl, rfl, allOk_oks rfl⟩

theorem witness_InitFails : ∀ j ∈ [0, 1, 30], (fresh (oksThenFail j)).seq = .idle ∧
    (fresh (oksThenFail j)).mode = .uninitialized ∧ (fresh (oksThenFail j)).txnOpen = false ∧ j < 31 ∧
      (fresh (oksThenFail j)).failsAt j := by
  intro j hj
  refine ⟨rfl, rfl, rfl, ?_, failsAt_oksThenFail rfl⟩
  revert j
  decide

theorem witness_InitOtherAddressRefused :
    (ready []).seq = .idle ∧ (ready []).mode = .ready ∧ (ready []).busAddr ≠ 0x3D := by decide

theorem witness_SetPowerCompletes_SetPolarityCompletes :
    (ready (oks 4)).seq = .idle ∧ (ready (oks 4)).mode = .ready ∧ (ready (oks 4)).allOk 4 :=
  ⟨rfl, rfl, allOk_oks rfl⟩

theorem witness_SetContrastCompletes :
    (ready (oks 5)).seq = .idle ∧ (ready (oks 5)).mode = .ready ∧ (ready (oks 5)).allOk 5 :=
  ⟨rfl, rfl, allOk_oks rfl⟩

theorem witness_ControlFails : ∀ j ∈ [0, 3, 4], (ready (oksThenFail j)).seq = .idle ∧
    (ready (oksThenFail j)).mode = .ready ∧ (ready (oksThenFail j)).txnOpen = false ∧
      j < (contrastPayload 0x80).length + 3 ∧ (j < 4 → j < (powerPayload true).length + 3) ∧
      (j < 4 → j < (polarityPayload true).length + 3) ∧ (ready (oksThenFail j)).failsAt j := by
  intro j hj
  refine ⟨rfl, rfl, rfl, ?_, id, id, failsAt_oksThenFail rfl⟩
  revert j
  decide

theorem witness_ConfigurationErrorBeforeInit :
    (∀ i ∈ [Instr.setPower true, .setContrast 0x80, .setPolarity true, .fill 0xFF, .sync, .clear], isChecked i = true) ∧
      (fresh []).seq = .idle ∧ (fresh []).txnOpen = false ∧ (fresh []).mode = .uninitialized := by decide

theorem witness_FillCompletes : (ready []).seq = .idle ∧ (ready []).mode = .ready ∧ 1055 ≤ 1055 := by decide

theorem witness_ExternalWritePort_ready :
    { ready [] with requests := [.fbWrite 1055 0xFF], fbWritePort := true }.requests = [.fbWrite 1055 0xFF] ∧
      { ready [] with requests := [.fbWrite 1055 0xFF], fbWritePort := true }.seq = .idle ∧
      { ready [] with requests := [.fbWrite 1055 0xFF], fbWritePort := true }.mode = .ready ∧
      (1055 : BitVec 11).toNat ≤ 1055 ∧ 1055 < (1056 : BitVec 11).toNat := by decide

theorem witness_ExternalWritePort_uninitialized :
    { fresh [] with requests := [.fbWrite 0 0xFF], fbWritePort := true }.requests = [.fbWrite 0 0xFF] ∧
      { fresh [] with requests := [.fbWrite 0 0xFF], fbWritePort := true }.seq = .idle ∧
      { fresh [] with requests := [.fbWrite 0 0xFF], fbWritePort := true }.txnOpen = false ∧
      { fresh [] with requests := [.fbWrite 0 0xFF], fbWritePort := true }.mode = .uninitialized := by decide

theorem witness_SyncCompletes_SyncMirrorsFramebuffer :
    (ready (oks 1128)).seq = .idle ∧ (ready (oks 1128)).mode = .ready ∧ (ready (oks 1128)).allOk 1128 :=
  ⟨rfl, rfl, allOk_oks rfl⟩

theorem witness_SyncFails : ∀ j ∈ [0, 6, 1127], (ready (oksThenFail j)).seq = .idle ∧
    (ready (oksThenFail j)).mode = .ready ∧ (ready (oksThenFail j)).txnOpen = false ∧ j < 1128 ∧
      (ready (oksThenFail j)).failsAt j := by
  intro j hj
  refine ⟨rfl, rfl, rfl, ?_, failsAt_oksThenFail rfl⟩
  revert j
  decide

theorem witness_SetDebugCompletes : (fresh []).seq = .idle ∧ (ready []).seq = .idle := by decide

theorem witness_FramePrimitivesComplete :
    (fresh (oks 3)).txnOpen = false ∧ (fresh (oks 3)).allOk (([] : List Byte).length + 3) ∧
      (ready (oks 135)).txnOpen = false ∧ (ready (oks 135)).allOk (132 + 3) :=
  ⟨rfl, allOk_oks rfl, rfl, allOk_oks rfl⟩

theorem witness_OpenFailureEndsFrame : (ready [.fail]).txnOpen = false ∧ (ready [.fail]).resultAhead 0 = .fail := by
  decide

theorem witness_WriteFailureEndsFrame : ∀ j ∈ [0, 1, 2], (ready (oksThenFail (j + 1))).txnOpen = false ∧
    j < [(0xAE : Byte)].length + 2 ∧ (ready (oksThenFail (j + 1))).failsAt (j + 1) := by
  intro j hj
  refine ⟨rfl, ?_, failsAt_oksThenFail rfl⟩
  revert j
  decide

theorem witness_HeaderBytesComplete : ∀ rx ∈ [Rx.off, .header],
    (inFrame rx (oks 1)).txnOpen = true ∧ (inFrame rx (oks 1)).ctl.rx = rx ∧
      (inFrame rx (oks 1)).resultAhead 0 = .ok := by decide

theorem witness_AddressingCommandsComplete_OneByteOpaqueComplete :
    (inFrame .command (oks 1)).txnOpen = true ∧ (inFrame .command (oks 1)).ctl.rx = .command ∧
      (inFrame .command (oks 1)).resultAhead 0 = .ok := by decide

theorem witness_TwoByteOpaqueComplete :
    (inFrame .command (oks 2)).txnOpen = true ∧ (inFrame .command (oks 2)).ctl.rx = .command ∧
      (inFrame .command (oks 2)).allOk 2 := ⟨rfl, rfl, allOk_oks rfl⟩

theorem witness_DataByteCompletes : ∀ col ∈ [(0 : Byte), 131, 132, 255],
    { inFrame .data (oks 1) with ctl := { Controller.reset with rx := .data, ccol := col } }.txnOpen = true ∧
      { inFrame .data (oks 1) with ctl := { Controller.reset with rx := .data, ccol := col } }.ctl.rx = .data ∧
      { inFrame .data (oks 1) with ctl := { Controller.reset with rx := .data, ccol := col } }.resultAhead 0 = .ok := by
  decide

theorem witness_ByteFailureEndsOperation :
    byteRow (.contrastMode 0x80) = some ([0x81, 0x80], .command) ∧ (inFrame .command (oksThenFail 1)).txnOpen = true ∧
      (inFrame .command (oksThenFail 1)).failsAt 1 ∧ (inFrame .command (oksThenFail 0)).failsAt 0 ∧
      byteRow (.address 0x3C) = some ([0x78], .off) ∧ (inFrame .off (oksThenFail 0)).busAddr = 0x3C ∧
      (inFrame .off (oksThenFail 0)).failsAt 0 ∧ byteRow .controlDataStream = some ([0x40], .header) ∧
      (inFrame .header (oksThenFail 0)).txnOpen = true ∧ (inFrame .header (oksThenFail 0)).failsAt 0 :=
  ⟨by decide, rfl, failsAt_oksThenFail rfl, failsAt_oksThenFail rfl, by decide, rfl, failsAt_oksThenFail rfl, by decide, rfl,
    failsAt_oksThenFail rfl⟩

theorem witness_MisplacedBytesFault :
    byteRow .displayOff = some ([0xAE], .command) ∧ (fresh []).txnOpen = false ∧ (inFrame .data []).txnOpen = true ∧
      (inFrame .data []).ctl.rx ≠ .command ∧ byteRow .controlCmdStream = some ([0x00], .header) ∧
      (inFrame .off []).ctl.rx ≠ .header ∧ byteRow (.address 0x3C) = some ([0x78], .off) ∧
      (inFrame .header []).ctl.rx ≠ .off ∧ (0x3D : BusAddr) ≠ (ready []).busAddr ∧
      (0x3D : BusAddr) ≠ (inFrame .off []).busAddr := by decide

theorem witness_OneResponsePerOperation :
    isHostOp (.setDebug true) = true ∧
      exec (.setDebug true) (fresh []) = .next { fresh [] with debugEn := true, responses := [.ok] } := ⟨rfl, rfl⟩

theorem witness_RegisterWriters :
    exec (.setDebug true) (fresh []) = .next { fresh [] with debugEn := true, responses := [.ok] } := rfl

theorem witness_CommandFramesKeepCram :
    sendsData .displayOff = false ∧ sendsData (.init 0x3C) = false ∧ (∀ f k, (fresh [.fail]).seq ≠ .running .sync f k) ∧
      (∃ t, exec (.init 0x3C) (fresh [.fail]) = .next t) ∧
      ∃ t, exec .displayOff { inFrame .command (oks 1) with seq := .running .sync 0 3 } = .next t ∧
        t.responses ≠ [] ++ [.transportError] :=
  ⟨rfl, rfl, fun _ _ => nofun, ⟨_, rfl⟩, _, rfl, by decide⟩

theorem witness_FillCompletes_init :
    ∃ t, exec (.init 0x3C) (fresh (oks 31)) = .next t ∧ t.responses = [.ok] := ⟨_, rfl, by decide⟩

theorem witness_InitModes_OnlyListedFramesEmitted :
    isHostOp (.init 0x3C) = true ∧ (fresh [.fail]).txnOpen = false ∧
      ∃ t, exec (.init 0x3C) (fresh [.fail]) = .next t := ⟨rfl, rfl, _, rfl⟩

theorem inv_idle {s : State} (h1 : s.fb.wf = true) (h2 : s.ctl.cram = []) (h3 : s.mode = .ready → s.fb.length = Config.fbSize)
    (h4 : s.trace = []) (h5 : s.seq = .idle) (h6 : s.txnOpen = false) (h7 : s.ctl.rx = .off) : s.Inv where
  fbWf := h1
  cramWf := by rw [h2]; rfl
  fbComplete := h3
  shape := by rw [h4, h6]; rfl
  placed := by rw [State.placed, h5]; exact ⟨h6, h7⟩

theorem ready_fb (draws : List Result) : (ready draws).fb = Memory.tabulate fun _ => 0x00 := by simp only [ready]

theorem ready_inv (draws : List Result) : (ready draws).Inv :=
  inv_idle (by rw [ready_fb]; exact Memory.wf_tabulate _) rfl (fun _ => by rw [ready_fb, Memory.length_tabulate]) rfl rfl rfl
    rfl

/-- The state before a request, after reset. -/
theorem fresh_inv (draws : List Result) (requests : List Input) : { fresh draws with requests := requests }.Inv :=
  inv_idle rfl rfl (nomatch ·) rfl rfl rfl rfl

/-- SET_CONTRAST 0x80 under way at position 3, in the shape the invariant asks for. -/
def contrastInside : State := { contrastAt 3 .command with trace := [.opened .ok, .wrote 0x78 .ok, .wrote 0x00 .ok] }

theorem contrastInside_fb : contrastInside.fb = Memory.tabulate fun _ => 0x00 := by
  simp only [contrastInside, contrastAt, ready]

theorem witness_StepKeepsInvariant_inside : contrastInside.Inv ∧ seqOf (step contrastInside) = some (.running (.setContrast 0x80) 0 5) where
  left :=
    { fbWf := by
        rw [contrastInside_fb]
        exact Memory.wf_tabulate _
      cramWf := rfl
      fbComplete := fun _ => by
        rw [contrastInside_fb, Memory.length_tabulate]
      shape := rfl
      placed := ⟨by decide, by decide, by decide, by decide, rfl⟩ }
  right := by decide

theorem witness_StepKeepsInvariant_idle : State.reset.Inv ∧ step State.reset = .next State.reset :=
  ⟨fresh_inv [] [], rfl⟩

theorem witness_NoFaultUnderInvariant_reserved :
    { fresh [] with requests := [.request 0x700] }.Inv ∧
      step { fresh [] with requests := [.request 0x700] } = .refused .reservedRequest :=
  ⟨fresh_inv [] _, rfl⟩

theorem witness_NoFaultUnderInvariant_address :
    { ready [] with requests := [.request 0x03D] }.Inv ∧
      step { ready [] with requests := [.request 0x03D] } = .refused .addressImmutable :=
  ⟨inv_idle (by rw [ready_fb]; exact Memory.wf_tabulate _) rfl (fun _ => by rw [ready_fb, Memory.length_tabulate]) rfl rfl rfl
    rfl, rfl⟩

theorem witness_NoFaultUnderInvariant_port :
    { fresh [] with requests := [.fbWrite 0 0xFF] }.Inv ∧
      step { fresh [] with requests := [.fbWrite 0 0xFF] } = .refused .noWritePort ∧
      { fresh [] with requests := [.fbWrite 1056 0xFF], fbWritePort := true }.Inv ∧
      step { fresh [] with requests := [.fbWrite 1056 0xFF], fbWritePort := true } = .refused .fbIndexOutOfRange :=
  ⟨fresh_inv [] _, rfl, inv_idle rfl rfl (nomatch ·) rfl rfl rfl rfl, rfl⟩

theorem witness_CallByCallIsOneStep :
    (ready (oks 4)).Inv ∧ (ready (oks 4)).seq = .idle ∧ (ready (oks 4)).mode = .ready ∧ (ready (oks 4)).busAddr = 0x3C ∧
      (fresh (oks 31)).Inv ∧ (fresh (oks 31)).seq = .idle ∧ (fresh (oks 31)).mode = .uninitialized :=
  ⟨ready_inv _, rfl, rfl, rfl, fresh_inv (oks 31) [], rfl, rfl⟩

end Sys2Proof.Tests
end

/-! SUPPORT. The step and one big step agree (00_scope.md R7): what a step does with the host's request and at each
position of a running operation, and the run of an operation call by call. -/

namespace Sys2Proof.Machine

/-! ### With SEQ Idle: the step and the request -/

theorem oneBitArg_map_isHostOp {f : Bool → Instr} (hf : ∀ x, isHostOp (f x) = true) {arg : Byte} {i : Instr}
    (h : (oneBitArg arg).map f = .ok i) : isHostOp i = true := by
  unfold oneBitArg at h
  split at h
  · cases h
    exact hf _
  · cases h

/-- A request word stands for nothing but an operation of the host (R59). -/
theorem isHostOp_of_decode_request {w : Request} {i : Instr} (h : decode (.request w) = .ok i) :
    isHostOp i = true := by
  simp only [decode, decodeRequest] at h
  split at h
  · split at h <;> cases h
    rfl
  split at h
  · exact oneBitArg_map_isHostOp (fun _ => rfl) h
  split at h
  · cases h
    rfl
  split at h
  · exact oneBitArg_map_isHostOp (fun _ => rfl) h
  split at h
  · cases h
    rfl
  split at h
  · split at h <;> cases h
    rfl
  split at h
  · exact oneBitArg_map_isHostOp (fun _ => rfl) h
  · cases h

theorem whenReady_seq {s t : State} (h : t.seq = .idle) : (whenReady s t).seq = .idle := by
  unfold whenReady
  split
  · exact h
  · exact raiseError_seq _ s

/-- An operation behind the two checks that leaves SEQ Idle, or is not run at all, leaves it Idle. -/
theorem whenIdle_whenReady_seq {s t u : State} (ht : s.seq = .idle → t.seq = .idle)
    (h : whenIdle s (whenReady s t) = .next u) : u.seq = .idle := by
  obtain ⟨hs, rfl⟩ := whenIdle_eq_next.1 h
  exact whenReady_seq (ht hs)

theorem fillWith_seq (p : Byte) (s : State) : (fillWith p s).seq = s.seq := by
  simp [fillWith]

/-- An operation of the host that is given a meaning ends with SEQ Idle (R16). -/
theorem exec_hostOp_seq {i : Instr} {s t : State} (hi : isHostOp i = true) (h : exec i s = .next t) :
    t.seq = .idle := by
  cases i with
  | init a =>
    simp only [exec, execInit] at h
    split at h
    · cases h
    · obtain ⟨-, rfl⟩ := whenIdle_eq_next.1 h
      exact runOneFrame_seq _ _ s
  | setPower on => exact whenIdle_whenReady_seq (fun _ => runOneFrame_seq _ _ s) h
  | setContrast v => exact whenIdle_whenReady_seq (fun _ => runOneFrame_seq _ _ s) h
  | setPolarity inv => exact whenIdle_whenReady_seq (fun _ => runOneFrame_seq _ _ s) h
  | fill p => exact whenIdle_whenReady_seq (fun hs => (fillWith_seq p s).trans hs) h
  | clear => exact whenIdle_whenReady_seq (fun hs => (fillWith_seq 0x00 s).trans hs) h
  | sync => exact whenIdle_whenReady_seq (fun _ => finish_seq (syncPages_tame _ _) .sync) h
  | setDebug en =>
    obtain ⟨hs, rfl⟩ := whenIdle_eq_next.1 h
    exact hs
  | _ => cases hi

/-- An outcome whose state has SEQ Idle has no operation left to end. -/
theorem settleOutcome_of_idle {x : Host.Outcome State Fault Refusal} (h : ∀ t, x = .next t → t.seq = .idle) :
    settleOutcome x = x := by
  cases x with
  | next t => simp only [settleOutcome, settle_idle (h t rfl)]
  | fault r => rfl
  | refused r => rfl

/-- Settles O11: the request decodes to a host operation, which leaves SEQ Idle, so that the step adds nothing to it. -/
theorem stepRunsRequest : Obligations.StepRunsRequest := by
  intro s w rest i hs hreq hdec
  have hfetch : fetch s = .instr i := by simp only [fetch, hs, hreq, fetchInput, hdec]
  have htake : takeInput s = { s with requests := rest } := by simp [takeInput, hs, hreq]
  simp only [step, hfetch, htake]
  exact settleOutcome_of_idle fun t => exec_hostOp_seq (isHostOp_of_decode_request hdec)

/-! ### While an operation is under way: the step and the position -/

/-- SEQ inside the script points at position k of frame f. -/
theorem fetch_running {s : State} {op : BusOp} {f k : Nat} {kind : StreamKind} {payload : List Byte}
    (hf : f < op.frames) (hfr : op.frame s.fb f = (kind, payload)) (hs : s.seq = .running op f k) :
    fetch s = fetchInFrame op kind payload k s := by
  simp only [fetch, hs, hf, if_true, hfr]

/-- A payload byte of a command frame whose place is not that of a data byte starts a command (R57). -/
theorem fetchCommand_ok {rx : Rx} {p rest : List Byte} {i : Instr} (hx : rx ≠ .operand)
    (hdec : decodeCommand p = .ok (i, rest)) : ∃ b q, p = b :: q ∧ fetchCommand rx b q = .instr i := by
  cases p with
  | nil => cases hdec
  | cons b q => exact ⟨b, q, rfl, by simp only [fetchCommand, if_neg hx, hdec]⟩

/-- A running operation with an instruction at its position executes it, and ends if that closed its last frame. -/
theorem step_of_fetchInFrame {s : State} {op : BusOp} {f k : Nat} {kind : StreamKind} {payload : List Byte} {i : Instr}
    (hf : f < op.frames) (hfr : op.frame s.fb f = (kind, payload)) (hs : s.seq = .running op f k)
    (hi : fetchInFrame op kind payload k s = .instr i) : step s = settleOutcome (exec i s) := by
  simp only [step, fetch_running hf hfr hs, hi, takeInput, hs]

/-- Settles O12: at each position what SEQ points at is the instruction the byte there decodes to. -/
theorem stepRunsFrameBytes : Obligations.StepRunsFrameBytes := by
  intro s op f kind payload hf hfr
  refine ⟨fun hs hop => ?_, fun hs => ?_, fun hs hk => ?_, fun hs hk => ?_, fun j d rest hs hk hd => ?_,
    fun j i rest hs hk hx hdec => ?_⟩
  · refine step_of_fetchInFrame hf hfr hs ?_
    subst hop
    simp only [fetchInFrame, decode_frame]
  · refine step_of_fetchInFrame hf hfr hs ?_
    simp only [fetchInFrame, fetchedByte, decode_address]
  · subst hk
    exact step_of_fetchInFrame hf hfr hs rfl
  · subst hk
    exact step_of_fetchInFrame hf hfr hs rfl
  · subst hk
    refine step_of_fetchInFrame hf hfr hs ?_
    simp only [fetchInFrame, hd, fetchedByte, decode]
  · subst hk
    obtain ⟨b, q, hd, hcmd⟩ := fetchCommand_ok hx hdec
    refine step_of_fetchInFrame hf hfr hs ?_
    simp only [fetchInFrame, hd, hcmd]

/-- Settles O13: the open and the close by their positions, the data byte of a two-byte command by the controller's
place. -/
theorem stepMakesCalls : Obligations.StepMakesCalls := by
  intro s op f kind payload hf hfr
  refine ⟨fun hs hop ho => step_open hs hf hop ho, fun j d rest hs hk hx hd ho => ?_, fun j hs hj ho => ?_⟩
  · have hfetch : fetch s = .rawByte d := by
      rw [fetch_running hf hfr hs, hk]
      simp only [fetchInFrame, hd, fetchCommand, hx, if_true]
    simp only [step, hfetch, ho, if_true]
  · exact step_close hs hf (by rw [hfr]; exact List.drop_eq_nil_of_le hj) ho

/-! ### Runs of the machine -/

/-- Some number of steps leads from s to t. -/
def Reaches (s t : State) : Prop := ∃ n, Sys2Proof.core.run n s = .next t

theorem Reaches.refl (s : State) : Reaches s s := ⟨0, rfl⟩

theorem Reaches.of_step {s t : State} (h : step s = .next t) : Reaches s t := ⟨1, run_of_step core h⟩

theorem Reaches.trans {s t u : State} (h : Reaches s t) (h' : Reaches t u) : Reaches s u := by
  obtain ⟨n, hn⟩ := h
  obtain ⟨m, hm⟩ := h'
  induction n generalizing s with
  | zero =>
    cases hn
    exact ⟨m, hm⟩
  | succ n ih =>
    obtain ⟨v, hv, hn⟩ := step_of_run core hn
    obtain ⟨k, hk⟩ := ih hn
    exact ⟨k + 1, (run_of_step core hv).trans hk⟩

/-- The machine makes the calls x from s step by step. Both ends are settled, since the step that closes an operation's
last frame also ends the operation. -/
def Runs (s : State) (x : Flow) : Prop := Reaches (settle s) (settle x.state)

theorem Runs.of_step {s : State} {x : Flow} (hs : settle s = s) (h : step s = .next (settle x.state)) : Runs s x := by
  rw [Runs, hs]
  exact .of_step h

/-- Calls one after the other are run one after the other. -/
theorem Runs.andThen {s : State} {x : Flow} {f : State → Flow} (hx : Runs s x)
    (hf : ∀ t, x = .go t → Runs t (f t)) : Runs s (x.andThen f) := by
  cases x with
  | go t => exact Reaches.trans hx (hf t rfl)
  | stop t => exact hx

theorem andThen_assoc (x : Flow) (f g : State → Flow) :
    (x.andThen f).andThen g = x.andThen fun t => (f t).andThen g := by
  cases x <;> rfl

/-! ### Inside a frame -/

/-- A write that goes on has delivered its byte. -/
theorem transportWrite_eq_go {s t : State} {b : Byte} {take : Nat → Controller → Controller}
    (h : transportWrite b take s = .go t) : t = s.afterBytes [b] (take s.calls s.ctl) := by
  cases hr : s.resultAhead 0
  · rw [transportWrite_ok hr] at h
    cases h
    rfl
  · rw [transportWrite_fail hr] at h
    cases h

/-- So have payload bytes. -/
theorem writePayloads_eq_go {p : List Byte} {s t : State} (ho : s.txnOpen = true) (h : writePayloads p s = .go t) :
    t = s.afterBytes p (Controller.takePayloads s.calls p s.ctl) := by
  rcases allOk_or_failsAt s p.length with hok | ⟨j, hj, hfail⟩
  · rw [writePayloads_ok p hok] at h
    cases h
    rfl
  · obtain ⟨u, hu, -⟩ := writePayloads_fails p hfail hj ho
    rw [hu] at h
    cases h

/-- SEQ stands at position k of the open frame f of an operation, a frame of this kind and payload, with the controller
at that place (R15, R16). -/
structure InFrame (op : BusOp) (f : Nat) (kind : StreamKind) (p : List Byte) (k : Nat) (s : State) : Prop where
  inScript : f < op.frames
  frame : op.frame s.fb f = (kind, p)
  seq : s.seq = .running op f k
  txnOpen : s.txnOpen = true
  rx : s.ctl.rx = rxAt kind p k

section Frame

variable {op : BusOp} {f k : Nat} {kind : StreamKind} {p : List Byte} {s : State}

theorem InFrame.settle_eq (h : InFrame op f kind p (k + 1) s) : settle s = s :=
  settle_inside h.seq (Nat.succ_ne_zero k)

/-- Bytes written inside a frame lead as many positions on. -/
theorem InFrame.afterBytes (h : InFrame op f kind p k s) {w : List Byte} {c : Controller}
    (hc : c.rx = rxAt kind p (k + w.length)) : InFrame op f kind p (k + w.length) (s.afterBytes w c) where
  inScript := h.inScript
  frame := h.frame
  seq := by rw [afterBytes_seq, h.seq]; rfl
  txnOpen := h.txnOpen
  rx := hc

/-- The place after the payload bytes up to position j. -/
theorem takePayloads_rx_eq_rxAt {bs rest : List Byte} {j n : Nat} {c : Controller} (hp : p.drop j = bs ++ rest)
    (hx : c.rx = rxAt kind p (j + 3)) :
    (Controller.takePayloads n bs c).rx = rxAt kind p (j + 3 + bs.length) := by
  rw [takePayloads_rx, hx, rxAt_advance kind p bs rest j hp, Nat.add_right_comm]

/-- The rest of a payload and the close, by induction on the bytes left: a step writes one byte of them, or both bytes
of a two-byte command. -/
theorem runs_payload_close (rest : List Byte) {j : Nat} {s : State} (h : InFrame op f kind p (j + 3) s)
    (hp : p.drop j = rest) :
    Runs s ((writePayloads rest s).andThen fun t => .go (transportClose t)) := by
  by_cases hr : rest = []
  · subst hr
    exact .of_step h.settle_eq (step_close h.seq h.inScript (by rw [h.frame]; exact hp) h.txnOpen)
  · obtain ⟨bs, rest', hbs, hsplit, hstep⟩ :=
      step_payload h.seq h.inScript (by rw [h.frame, hp]; exact hr) h.txnOpen (by rw [h.frame]; exact h.rx)
    rw [h.frame] at hsplit
    have hcat : rest = bs ++ rest' := hp.symm.trans hsplit
    have hlt : rest'.length < rest.length := by
      rw [hcat, List.length_append]
      exact Nat.lt_add_of_pos_left (List.length_pos_iff.2 hbs)
    rw [hcat, writePayloads_append, andThen_assoc]
    refine .andThen (.of_step h.settle_eq hstep) fun t ht => ?_
    have hnext := h.afterBytes (takePayloads_rx_eq_rxAt (n := s.calls) hsplit h.rx)
    rw [← writePayloads_eq_go h.txnOpen ht, Nat.add_right_comm] at hnext
    refine runs_payload_close rest' hnext ?_
    rw [← List.drop_drop, hsplit, List.drop_left]
termination_by rest.length

/-- The control byte leaves the controller at the place of the first payload byte (R53). -/
theorem takeControl_rx (kind : StreamKind) (p : List Byte) (c : Controller) :
    (c.takeControl kind).rx = rxAt kind p 3 := by
  cases kind <;> rfl

/-- The frame after its open: the address byte, the control byte, the payload and the close. -/
theorem runs_sendBody (h : InFrame op f kind p 1 s) : Runs s (sendBody kind p s) := by
  rw [sendBody, andThen_assoc, andThen_assoc]
  refine .andThen (.of_step h.settle_eq (step_address h.seq h.inScript h.txnOpen h.rx)) fun t ht => ?_
  have h2 : InFrame op f kind p 2 t := transportWrite_eq_go ht ▸ h.afterBytes (w := [addressByte s.busAddr]) rfl
  refine .andThen (.of_step h2.settle_eq
    (step_control h2.seq h2.inScript (congrArg Prod.fst h2.frame) h2.txnOpen h2.rx)) fun u hu => ?_
  have h3 : InFrame op f kind p 3 u := transportWrite_eq_go hu ▸
    h2.afterBytes (w := [kind.controlByte]) (takeControl_rx kind p t.ctl)
  exact runs_payload_close p h3 rfl

/-! ### Whole frames and operations -/

/-- SEQ stands between frames, about to open frame f. -/
structure AtFrame (op : BusOp) (f : Nat) (s : State) : Prop where
  seq : s.seq = .running op f 0
  txnOpen : s.txnOpen = false

theorem inFrame_afterOpen (h : AtFrame op f s) (hf : f < op.frames) (hfr : op.frame s.fb f = (kind, p)) :
    InFrame op f kind p 1 s.afterOpen where
  inScript := hf
  frame := hfr
  seq := by rw [afterOpen_seq, h.seq]; rfl
  txnOpen := rfl
  rx := rfl

/-- After the open SEQ is inside the frame, or Idle if it failed; neither ends an operation. -/
theorem settle_transportOpen (h : s.seq = .running op f k) :
    settle (transportOpen s).state = (transportOpen s).state := by
  cases hr : s.resultAhead 0
  · rw [transportOpen_ok hr]
    exact settle_inside (by rw [go_state, afterOpen_seq, h]; rfl) (Nat.succ_ne_zero k)
  · rw [transportOpen_fail hr]
    exact settle_idle (raiseError_seq _ _)

/-- A frame of a host operation is sent call by call as `send_stream` sends it (R74). -/
theorem runs_sendStream (h : AtFrame op f s) (hf : f < op.frames) (hop : ∀ kind p, op ≠ .stream kind p)
    (hfr : op.frame s.fb f = (kind, p)) : Runs s (sendStream kind p s) := by
  refine .andThen (.of_step (settle_more h.seq hf) ?_) fun t ht => ?_
  · rw [settle_transportOpen h.seq]
    exact step_open h.seq hf hop h.txnOpen
  · cases hr : s.resultAhead 0
    · rw [transportOpen_ok hr] at ht
      cases ht
      exact runs_sendBody (inFrame_afterOpen h hf hfr)
    · rw [transportOpen_fail hr] at ht
      cases ht

/-- The calls x, made from s, run call by call, and if none of them fails SEQ stands at frame g after them. -/
structure SendsUpTo (op : BusOp) (g : Nat) (s : State) (x : Flow) : Prop where
  runs : Runs s x
  next : ∀ t, x = .go t → AtFrame op g t

theorem SendsUpTo.andThen {g g' : Nat} {x : Flow} {q : State → Flow} (hx : SendsUpTo op g s x)
    (hq : ∀ t, AtFrame op g t → SendsUpTo op g' t (q t)) : SendsUpTo op g' s (x.andThen q) where
  runs := hx.runs.andThen fun t ht => (hq t (hx.next t ht)).runs
  next u hu := by
    obtain ⟨t, ht, hu⟩ := andThen_eq_go hu
    exact (hq t (hx.next t ht)).next u hu

theorem sendsUpTo_sendStream (h : AtFrame op f s) (hf : f < op.frames) (hop : ∀ kind p, op ≠ .stream kind p)
    (hfr : op.frame s.fb f = (kind, p)) : SendsUpTo op (f + 1) s (sendStream kind p s) where
  runs := runs_sendStream h hf hop hfr
  next t ht := by
    rcases sendStream_cases kind p s h.txnOpen with ⟨-, hgo⟩ | ⟨_, u, -, -, hstop, -⟩
    · rw [hgo] at ht
      cases ht
      exact ⟨by rw [afterFrame_seq, h.seq]; rfl, rfl⟩
    · rw [hstop] at ht
      cases ht

end Frame

/-- An operation whose calls take SEQ past its last frame, or fail, runs call by call to where its big step ends. -/
theorem reaches_finish {op : BusOp} {s : State} {x : Flow} (hframes : 0 < op.frames) (htame : x.Tame (beginOp op s))
    (h : SendsUpTo op op.frames (beginOp op s) x) : Reaches (beginOp op s) (x.finish (finishOp op)) := by
  have hend : settle x.state = x.finish (finishOp op) := by
    cases x with
    | go t => exact settle_last (h.next t rfl).seq (Nat.le_refl _)
    | stop t => exact settle_idle htame.seq
  have hruns := h.runs
  rwa [Runs, settle_more (beginOp_seq op s) hframes, hend] at hruns

theorem atFrame_beginOp (op : BusOp) {s : State} (ho : s.txnOpen = false) : AtFrame op 0 (beginOp op s) := by
  obtain ⟨-, -, -, -, -, -, htxn, -⟩ := beginOp_calls op s
  exact ⟨beginOp_seq op s, htxn.trans ho⟩

/-- A host operation of one command frame. -/
theorem reaches_runOneFrame {op : BusOp} {p : List Byte} {s : State} (hframes : op.frames = 1)
    (hfr : ∀ fb, op.frame fb 0 = (.command, p)) (hop : ∀ kind p, op ≠ .stream kind p) (ho : s.txnOpen = false) :
    Reaches (beginOp op s) (runOneFrame op p s) := by
  have hsends := sendsUpTo_sendStream (atFrame_beginOp op ho) (by rw [hframes]; exact Nat.one_pos) hop (hfr _)
  rw [Nat.zero_add, ← hframes] at hsends
  exact reaches_finish (by rw [hframes]; exact Nat.one_pos) (sendStream_tame _ _ _) hsends

/-! ### SYNC -/

/-- The even frame of a page is its address frame (R110, R111). -/
theorem sync_frame_address (fb : Memory) (pg : Nat) : BusOp.sync.frame fb (2 * pg) = (.command, addressPayload pg) := by
  simp [BusOp.frame]

/-- The odd frame of a page is its data frame (R110, R112). -/
theorem sync_frame_data (fb : Memory) (pg : Nat) : BusOp.sync.frame fb (2 * pg + 1) = (.data, pageBytes fb pg) := by
  have hmod : (2 * pg + 1) % 2 = 1 := by omega
  have hdiv : (2 * pg + 1) / 2 = pg := by omega
  simp [BusOp.frame, hmod, hdiv]

/-- The two frames of one page. -/
theorem sendsUpTo_syncPage {pg : Nat} {s : State} (hpg : pg < 8) (h : AtFrame .sync (2 * pg) s) :
    SendsUpTo .sync (2 * (pg + 1)) s (syncPage pg s) := by
  have hdata : 2 * pg + 1 < BusOp.sync.frames := by simp only [BusOp.frames, Config.framesPerSync]; omega
  exact (sendsUpTo_sendStream h (Nat.lt_of_succ_lt hdata) (by simp) (sync_frame_address s.fb pg)).andThen fun t ht =>
    sendsUpTo_sendStream ht hdata (by simp) (sync_frame_data t.fb pg)

/-- The pages from pg on, in ascending order. -/
theorem sendsUpTo_syncPages (n : Nat) {pg : Nat} {s : State} (hpg : pg + n = 8) (h : AtFrame .sync (2 * pg) s) :
    SendsUpTo .sync 16 s (syncPages (List.range' pg n) s) := by
  induction n generalizing pg s with
  | zero =>
    obtain rfl : pg = 8 := hpg
    exact ⟨.refl _, fun t ht => by cases ht; exact h⟩
  | succ n ih =>
    exact (sendsUpTo_syncPage (by omega) h).andThen fun t ht => ih (by omega) ht

theorem reaches_sync {s : State} (ho : s.txnOpen = false) :
    Reaches (beginOp .sync s)
      ((syncPages [0, 1, 2, 3, 4, 5, 6, 7] (beginOp .sync s)).finish (finishOp .sync)) :=
  reaches_finish (by decide) (syncPages_tame _ _) (sendsUpTo_syncPages 8 rfl (atFrame_beginOp .sync ho))

/-! ### The big step -/

/-- INIT is served in Uninitialized, and in Ready with the bound address (R89). -/
theorem execInit_served {a : BusAddr} {s : State} (hs : s.seq = .idle)
    (ha : s.mode = .uninitialized ∨ s.busAddr = a) :
    exec (.init a) s = .next (runOneFrame (.init a) initPayload s) := by
  have hadm : s.admitsInit a = true := by
    rcases ha with hm | rfl
    · simp [State.admitsInit, hm]
    · simp [State.admitsInit]
  simp [exec, execInit, hadm, whenIdle_idle _ hs]

theorem whenIdle_whenReady_served {s : State} (t : State) (hs : s.seq = .idle) (hm : s.mode = .ready) :
    whenIdle s (whenReady s t) = .next t := by
  rw [whenIdle_idle _ hs, whenReady_ready _ hm]

/-- Settles O49: each frame is sent call by call as the big step sends it, and SYNC's frames by induction on the
pages. -/
theorem callByCallIsOneStep : Obligations.CallByCallIsOneStep := by
  intro i op s hcase hinv hs hready haddr
  have ho : s.txnOpen = false := by
    have hplaced := hinv.placed
    rw [State.placed, hs] at hplaced
    exact hplaced.1
  suffices h : ∃ t, exec i s = .next t ∧ Reaches (beginOp op s) t by
    obtain ⟨t, hexec, n, hrun⟩ := h
    exact ⟨n, t, hexec, hrun⟩
  rcases hcase with ⟨a, rfl, rfl⟩ | ⟨on, rfl, rfl⟩ | ⟨v, rfl, rfl⟩ | ⟨inv, rfl, rfl⟩ | ⟨rfl, rfl⟩
  · exact ⟨_, execInit_served hs (haddr a rfl), reaches_runOneFrame rfl (fun _ => rfl) (by simp) ho⟩
  · exact ⟨_, whenIdle_whenReady_served _ hs (hready rfl), reaches_runOneFrame rfl (fun _ => rfl) (by simp) ho⟩
  · exact ⟨_, whenIdle_whenReady_served _ hs (hready rfl), reaches_runOneFrame rfl (fun _ => rfl) (by simp) ho⟩
  · exact ⟨_, whenIdle_whenReady_served _ hs (hready rfl), reaches_runOneFrame rfl (fun _ => rfl) (by simp) ho⟩
  · exact ⟨_, whenIdle_whenReady_served _ hs (hready rfl), reaches_sync ho⟩

end Sys2Proof.Machine

/-! SUPPORT. The state the block keeps (10_state.md): who writes its registers (R10 to R13), what it holds after reset
(R23), and the invariant, which holds after reset and which every step keeps (R13 to R16, R79). -/

namespace Sys2Proof.Machine

/-! ### Who writes the registers -/

/-- The registers MODE, BUS_ADDR, DEBUG_EN and FB are as before. DBG, which `Kept` speaks of too, may have grown. -/
structure RegistersKept (s t : State) : Prop where
  mode : t.mode = s.mode
  busAddr : t.busAddr = s.busAddr
  debugEn : t.debugEn = s.debugEn
  fb : t.fb = s.fb

theorem RegistersKept.trans {s t u : State} (h : RegistersKept s t) (h' : RegistersKept t u) : RegistersKept s u :=
  ⟨h'.mode.trans h.mode, h'.busAddr.trans h.busAddr, h'.debugEn.trans h.debugEn, h'.fb.trans h.fb⟩

theorem Kept.registersKept {s t : State} (h : Kept s t) : RegistersKept s t := ⟨h.mode, h.busAddr, h.debugEn, h.fb⟩

theorem Flow.Tame.kept {s : State} {x : Flow} (h : x.Tame s) : Kept s x.state := by
  cases x with
  | go t => exact h.1
  | stop t => exact h.toKept

/-- INIT alone writes a register before its first call (R85). -/
theorem beginOp_registersKept {op : BusOp} (hop : ∀ a, op ≠ .init a) (s : State) : RegistersKept s (beginOp op s) := by
  cases op with
  | init a => exact absurd rfl (hop a)
  | _ => constructor <;> simp [beginOp]

/-- INIT alone writes a register after its last call (R85, R88). -/
theorem finishOp_registersKept {op : BusOp} (hop : ∀ a, op ≠ .init a) (s : State) : RegistersKept s (finishOp op s) := by
  cases op with
  | init a => exact absurd rfl (hop a)
  | _ => exact ⟨rfl, rfl, rfl, rfl⟩

@[simp] theorem finishOp_debugEn (op : BusOp) (s : State) : (finishOp op s).debugEn = s.debugEn := by
  cases op <;> rfl

/-- An operation other than INIT leaves the registers alone, whatever the Transport answers. -/
theorem finish_registersKept {op : BusOp} (hop : ∀ a, op ≠ .init a) {s : State} {x : Flow}
    (hx : x.Tame (beginOp op s)) : RegistersKept s (x.finish (finishOp op)) := by
  have hcalls : RegistersKept s x.state := (beginOp_registersKept hop s).trans hx.kept.registersKept
  cases x with
  | go t => exact hcalls.trans (finishOp_registersKept hop t)
  | stop t => exact hcalls

/-- No operation that makes Transport calls writes DEBUG_EN. -/
theorem finish_debugEn {op : BusOp} {s : State} {x : Flow} (hx : x.Tame (beginOp op s)) :
    (x.finish (finishOp op)).debugEn = s.debugEn := by
  obtain ⟨-, -, -, -, -, -, -, hbegin, -⟩ := beginOp_calls op s
  have hcalls : x.state.debugEn = s.debugEn := hx.kept.debugEn.trans hbegin
  cases x with
  | go t => exact (finishOp_debugEn op t).trans hcalls
  | stop t => exact hcalls

/-- Behind the two checks an operation runs, or CONFIGURATION_ERROR is raised in its place (R46, R156). -/
theorem whenIdle_whenReady_cases {s t u : State} (h : whenIdle s (whenReady s t) = .next u) :
    u = t ∨ u = raiseError .configurationError s := by
  obtain ⟨-, rfl⟩ := whenIdle_eq_next.1 h
  unfold whenReady
  split
  · exact .inl rfl
  · exact .inr rfl

/-- A checked operation that leaves the registers alone does so where it is not run, too. -/
theorem whenIdle_whenReady_registersKept {s t u : State} (ht : RegistersKept s t)
    (h : whenIdle s (whenReady s t) = .next u) : RegistersKept s u := by
  rcases whenIdle_whenReady_cases h with rfl | rfl
  · exact ht
  · exact (raiseError_kept _ s).registersKept

/-- FILL and CLEAR write FB alone (R105). -/
theorem fill_registers {p : Byte} {s t : State} (h : whenIdle s (whenReady s (fillWith p s)) = .next t) :
    t.mode = s.mode ∧ t.busAddr = s.busAddr ∧ t.debugEn = s.debugEn := by
  rcases whenIdle_whenReady_cases h with rfl | rfl
  · simp [fillWith]
  · have hk := raiseError_kept .configurationError s
    exact ⟨hk.mode, hk.busAddr, hk.debugEn⟩

/-- INIT that is given a meaning is the operation of one frame. -/
theorem exec_init_eq_next {a : BusAddr} {s t : State} (h : exec (.init a) s = .next t) :
    t = runOneFrame (.init a) initPayload s := by
  simp only [exec, execInit] at h
  split at h
  · cases h
  · exact (whenIdle_eq_next.1 h).2

/-- A byte of a frame leaves the registers alone. -/
theorem whenByteAt_registersKept {rx : Rx} {s t : State} {x : Flow} (hx : x.Tame s)
    (h : whenByteAt rx s x.state = .next t) : RegistersKept s t := by
  obtain ⟨-, -, rfl⟩ := whenByteAt_eq_next.1 h
  exact hx.kept.registersKept

/-- A frame primitive leaves the registers alone. -/
theorem whenFrameAllowed_registersKept {a : BusAddr} {s t : State} {x : Flow} (hx : x.Tame s)
    (h : whenFrameAllowed a s x.state = .next t) : RegistersKept s t := by
  obtain ⟨-, -, rfl⟩ := whenFrameAllowed_eq_next.1 h
  exact hx.kept.registersKept

theorem execAddress_registersKept {a : BusAddr} {s t : State} (h : execAddress a s = .next t) : RegistersKept s t := by
  unfold execAddress at h
  split at h
  · cases h
  · exact whenByteAt_registersKept (transportWrite_tame _ _ s) h

/-- Every instruction but INIT, FILL, CLEAR and SET_DEBUG leaves the four registers alone. -/
theorem exec_registersKept {i : Instr} {s t : State} (hinit : ∀ a, i ≠ .init a) (hfill : ∀ p, i ≠ .fill p)
    (hclear : i ≠ .clear) (hdebug : ∀ en, i ≠ .setDebug en) (h : exec i s = .next t) : RegistersKept s t := by
  cases i with
  | init a => exact absurd rfl (hinit a)
  | fill p => exact absurd rfl (hfill p)
  | clear => exact absurd rfl hclear
  | setDebug en => exact absurd rfl (hdebug en)
  | setPower | setContrast | setPolarity =>
    exact whenIdle_whenReady_registersKept (finish_registersKept (by simp) (sendStream_tame _ _ _)) h
  | sync => exact whenIdle_whenReady_registersKept (finish_registersKept (by simp) (syncPages_tame _ _)) h
  | sendCmdStream | sendDataStream => exact whenFrameAllowed_registersKept (sendStream_tame _ _ s) h
  | address a => exact execAddress_registersKept h
  | controlCmdStream | controlDataStream | data => exact whenByteAt_registersKept (transportWrite_tame _ _ s) h
  | _ => exact whenByteAt_registersKept (writePayloads_tame _ s) h

/-- Settles O42: the four writers one by one, every other instruction by `exec_registersKept`. -/
theorem registerWriters : Obligations.RegisterWriters := by
  intro i s t h
  cases i with
  | init a =>
    refine ⟨fun hi => absurd rfl (hi a), fun _ => ?_, fun hi => absurd rfl (hi a)⟩
    rw [exec_init_eq_next h]
    exact finish_debugEn (sendStream_tame _ _ _)
  | fill p =>
    obtain ⟨hmode, haddr, hdebug⟩ := fill_registers h
    exact ⟨fun _ => ⟨hmode, haddr⟩, fun _ => hdebug, fun _ hi _ => absurd rfl (hi p)⟩
  | clear =>
    obtain ⟨hmode, haddr, hdebug⟩ := fill_registers h
    exact ⟨fun _ => ⟨hmode, haddr⟩, fun _ => hdebug, fun _ _ hi => absurd rfl hi⟩
  | setDebug en =>
    obtain ⟨-, rfl⟩ := whenIdle_eq_next.1 h
    exact ⟨fun _ => ⟨rfl, rfl⟩, fun hi => absurd rfl (hi en), fun _ _ _ => rfl⟩
  | _ =>
    have hk := exec_registersKept (by simp) (by simp) (by simp) (by simp) h
    exact ⟨fun _ => ⟨hk.mode, hk.busAddr⟩, fun _ => hk.debugEn, fun _ _ _ => hk.fb⟩

/-! ### The block at rest between frames -/

/-- What the invariant says of a state between frames, whether SEQ is Idle or about to open a frame. -/
structure AtRest (s : State) : Prop where
  fbWf : s.fb.wf = true
  cramWf : s.ctl.cram.wf = true
  fbComplete : s.mode = .ready → s.fb.length = Config.fbSize
  shape : phaseAfter .between s.trace = some .between
  txnOpen : s.txnOpen = false
  rx : s.ctl.rx = .off

theorem bound_of_kept {op : BusOp} {s t : State} (hk : Kept s t) (hb : op.bound s) : op.bound t := by
  cases op <;> simpa only [BusOp.bound, hk.mode, hk.busAddr, hk.fb] using hb

/-- While INIT runs FB is complete (R85). -/
theorem bound_init_fb {op : BusOp} {s : State} (hb : op.bound s) (a : BusAddr) (hop : op = .init a) :
    s.fb.length = Config.fbSize := by
  subst hop
  exact hb.2.2

/-- What the invariant says of a running operation. -/
theorem State.Inv.placed_running {op : BusOp} {f k : Nat} {s : State} (h : s.Inv) (hs : s.seq = .running op f k) :
    f < op.frames ∧ k ≤ (op.frame s.fb f).2.length + 3 ∧ s.txnOpen = decide (0 < k) ∧
      s.ctl.rx = rxAt (op.frame s.fb f).1 (op.frame s.fb f).2 k ∧ op.bound s := by
  have hplaced := h.placed
  rwa [State.placed, hs] at hplaced

theorem State.Inv.placed_idle {s : State} (h : s.Inv) (hs : s.seq = .idle) : s.txnOpen = false ∧ s.ctl.rx = .off := by
  have hplaced := h.placed
  rwa [State.placed, hs] at hplaced

/-- Under the invariant the machine is at rest while TXN_OPEN is 0: a running operation is then before an open (R15). -/
theorem State.Inv.atRest {s : State} (h : s.Inv) (ho : s.txnOpen = false) : AtRest s where
  fbWf := h.fbWf
  cramWf := h.cramWf
  fbComplete := h.fbComplete
  shape := by simpa [ho] using h.shape
  txnOpen := ho
  rx := by
    cases hs : s.seq with
    | idle => exact (h.placed_idle hs).2
    | running op f k =>
      obtain ⟨-, -, htxn, hrx, -⟩ := h.placed_running hs
      obtain rfl : k = 0 := by simpa [ho] using htxn
      exact hrx

theorem AtRest.inv_idle {s : State} (h : AtRest s) (hs : s.seq = .idle) : s.Inv where
  fbWf := h.fbWf
  cramWf := h.cramWf
  fbComplete := h.fbComplete
  shape := by simpa [h.txnOpen] using h.shape
  placed := by
    rw [State.placed, hs]
    exact ⟨h.txnOpen, h.rx⟩

theorem AtRest.inv_running {op : BusOp} {f : Nat} {s : State} (h : AtRest s) (hs : s.seq = .running op f 0)
    (hf : f < op.frames) (hb : op.bound s) : s.Inv where
  fbWf := h.fbWf
  cramWf := h.cramWf
  fbComplete := h.fbComplete
  shape := by simpa [h.txnOpen] using h.shape
  placed := by
    rw [State.placed, hs]
    exact ⟨hf, Nat.zero_le _, h.txnOpen, h.rx, hb⟩

/-- Whole frames, complete or cut, lead from rest to rest. -/
theorem AtRest.of_kept {s t : State} {events : List Event} (h : AtRest s) (hk : Kept s t) (ho : t.txnOpen = false)
    (hx : t.ctl.rx = .off) (hc : t.ctl.cram.wf = true) (htrace : t.trace = s.trace ++ events)
    (hevents : phaseAfter .between events = some .between) : AtRest t where
  fbWf := by rw [hk.fb]; exact h.fbWf
  cramWf := hc
  fbComplete := by rw [hk.mode, hk.fb]; exact h.fbComplete
  shape := by rw [htrace, phaseAfter_append, h.shape]; exact hevents
  txnOpen := ho
  rx := hx

/-! ### Operations from rest to rest -/

theorem sendStream_atRest (kind : StreamKind) (p : List Byte) {s : State} (h : AtRest s) :
    AtRest (sendStream kind p s).state := by
  have hc : (sendStream kind p s).state.ctl.cram.wf = true := sendStream_wf kind p h.cramWf
  rcases sendStream_cases kind p s h.txnOpen with ⟨-, hgo⟩ | ⟨j, t, -, -, hstop, ha, hx, htrace⟩
  · rw [hgo] at hc ⊢
    exact h.of_kept (kept_afterFrame _ _ _) rfl rfl hc rfl (phaseAfter_frameTrace _)
  · rw [hstop] at hc ⊢
    exact h.of_kept ha.toKept ha.txnOpen (hx h.rx) hc htrace (phaseAfter_abortTrace _ j)

theorem atRest_andThen {x : Flow} {f : State → Flow} (hx : AtRest x.state)
    (hf : ∀ t, AtRest t → AtRest (f t).state) : AtRest (x.andThen f).state := by
  cases x with
  | go t => exact hf t hx
  | stop t => exact hx

theorem syncPages_atRest (l : List Nat) {s : State} (h : AtRest s) : AtRest (syncPages l s).state := by
  induction l generalizing s with
  | nil => exact h
  | cons pg l ih =>
    have hpage : AtRest (syncPage pg s).state :=
      atRest_andThen (sendStream_atRest _ _ h) fun _ ht => sendStream_atRest _ _ ht
    exact atRest_andThen hpage fun _ ht => ih ht

/-- INIT begins with FB zero-filled and MODE Uninitialized (R85); the others begin with a notice at most. -/
theorem beginOp_atRest (op : BusOp) {s : State} (h : AtRest s) : AtRest (beginOp op s) := by
  obtain ⟨htrace, -, hctl, -, -, -, htxn, -⟩ := beginOp_calls op s
  exact
    { fbWf := by cases op <;> simp [beginOp, Memory.wf_tabulate, h.fbWf]
      cramWf := by rw [hctl]; exact h.cramWf
      fbComplete := by
        cases op with
        | init a => simp [beginOp]
        | _ => simpa [beginOp] using h.fbComplete
      shape := by rw [htrace]; exact h.shape
      txnOpen := htxn.trans h.txnOpen
      rx := by rw [hctl]; exact h.rx }

/-- INIT ends in Ready, for which FB has to be complete (R13, R88). -/
theorem finishOp_atRest {op : BusOp} {s : State} (h : AtRest s)
    (hfb : ∀ a, op = .init a → s.fb.length = Config.fbSize) : AtRest (finishOp op s) := by
  cases op with
  | init a => exact ⟨h.fbWf, h.cramWf, fun _ => hfb a rfl, h.shape, h.txnOpen, h.rx⟩
  | _ => exact ⟨h.fbWf, h.cramWf, h.fbComplete, h.shape, h.txnOpen, h.rx⟩

theorem finish_atRest {op : BusOp} {s : State} {x : Flow} (hx : x.Tame (beginOp op s)) (h : AtRest x.state) :
    AtRest (x.finish (finishOp op)) := by
  cases x with
  | stop t => exact h
  | go t =>
    refine finishOp_atRest h fun a hop => ?_
    have hfb : t.fb = (beginOp op s).fb := hx.kept.fb
    simp [hfb, hop, beginOp]

theorem runOneFrame_atRest (op : BusOp) (p : List Byte) {s : State} (h : AtRest s) : AtRest (runOneFrame op p s) :=
  finish_atRest (sendStream_tame _ _ _) (sendStream_atRest _ _ (beginOp_atRest op h))

theorem raiseError_atRest (e : Response) {s : State} (h : AtRest s) : AtRest (raiseError e s) := by
  rw [raiseError_closed e h.txnOpen]
  exact ⟨h.fbWf, h.cramWf, h.fbComplete, h.shape, h.txnOpen, h.rx⟩

theorem whenIdle_whenReady_atRest {s t u : State} (h : AtRest s) (ht : AtRest t)
    (hnext : whenIdle s (whenReady s t) = .next u) : AtRest u := by
  rcases whenIdle_whenReady_cases hnext with rfl | rfl
  · exact ht
  · exact raiseError_atRest _ h

theorem fillWith_atRest (p : Byte) {s : State} (h : AtRest s) : AtRest (fillWith p s) := by
  constructor <;> simp [fillWith, Memory.wf_tabulate, h.cramWf, h.shape, h.txnOpen, h.rx]

/-- A host operation taken at rest ends at rest, whatever the Transport answers. -/
theorem exec_hostOp_atRest {i : Instr} {s t : State} (hi : isHostOp i = true) (h : AtRest s)
    (hnext : exec i s = .next t) : AtRest t := by
  cases i with
  | init a =>
    rw [exec_init_eq_next hnext]
    exact runOneFrame_atRest _ _ h
  | setPower | setContrast | setPolarity => exact whenIdle_whenReady_atRest h (runOneFrame_atRest _ _ h) hnext
  | fill | clear => exact whenIdle_whenReady_atRest h (fillWith_atRest _ h) hnext
  | sync =>
    exact whenIdle_whenReady_atRest h
      (finish_atRest (syncPages_tame _ _) (syncPages_atRest _ (beginOp_atRest .sync h))) hnext
  | setDebug en =>
    obtain ⟨-, rfl⟩ := whenIdle_eq_next.1 hnext
    exact ⟨h.fbWf, h.cramWf, h.fbComplete, h.shape, h.txnOpen, h.rx⟩
  | _ => cases hi

/-- The external write port keeps FB's canonical form and its size (R14, R107). -/
theorem externalWrite_inv {i : BitVec 11} {b : Byte} {s t : State} (h : AtRest s)
    (hnext : externalWrite i b s = .next t) : t.Inv := by
  unfold externalWrite at hnext
  split at hnext
  · cases hnext
  split at hnext
  · cases hnext
  · rename_i hi
    have hlt : i.toNat < Config.fbSize := Nat.lt_of_not_le hi
    have hwritten : AtRest (State.respond .ok { s with fb := s.fb.write i.toNat b }) :=
      ⟨Memory.wf_write h.fbWf hlt b, h.cramWf, fun hm => Memory.length_write_full h.fbWf (h.fbComplete hm) hlt b,
        h.shape, h.txnOpen, h.rx⟩
    exact (whenIdle_whenReady_atRest h hwritten hnext).inv_idle (whenIdle_whenReady_seq (by simp) hnext)

/-! ### The calls of a running operation -/

/-- Under the invariant no operation is left to end: SEQ is never past the last frame. -/
theorem settle_of_inv {s : State} (h : s.Inv) : settle s = s := by
  cases hs : s.seq with
  | idle => exact settle_idle hs
  | running op f k => exact settle_more hs (h.placed_running hs).1

/-- Between frames the operation goes on with its next frame or ends. -/
theorem AtRest.settle_inv {op : BusOp} {f : Nat} {s : State} (h : AtRest s) (hs : s.seq = .running op f 0)
    (hb : op.bound s) : (settle s).Inv := by
  by_cases hf : f < op.frames
  · rw [settle_more hs hf]
    exact h.inv_running hs hf hb
  · rw [settle_last hs (Nat.le_of_not_lt hf)]
    exact (finishOp_atRest h (bound_init_fb hb)).inv_idle (finishOp_seq op s)

section Frame

variable {op : BusOp} {f k : Nat} {kind : StreamKind} {p : List Byte} {s t : State}

theorem State.Inv.inFrame (h : s.Inv) (hs : s.seq = .running op f (k + 1)) :
    InFrame op f (op.frame s.fb f).1 (op.frame s.fb f).2 (k + 1) s := by
  obtain ⟨hf, -, htxn, hrx, -⟩ := h.placed_running hs
  exact ⟨hf, rfl, hs, by simpa using htxn, hrx⟩

/-- Inside a frame TRACE stands inside a frame. -/
theorem State.Inv.shape_inFrame (h : s.Inv) (ho : s.txnOpen = true) :
    phaseAfter .between s.trace = some .inFrame := by
  simpa [ho] using h.shape

/-- Calls that led to a position inside a frame and kept the registers have kept the invariant. -/
theorem State.Inv.of_inFrame (h : s.Inv) (hb : op.bound s) (hk : Kept s t) (ht : InFrame op f kind p k t)
    (hpos : 0 < k) (hle : k ≤ p.length + 3) (hc : t.ctl.cram.wf = true)
    (hshape : phaseAfter .between t.trace = some .inFrame) : t.Inv where
  fbWf := by rw [hk.fb]; exact h.fbWf
  cramWf := hc
  fbComplete := by rw [hk.mode, hk.fb]; exact h.fbComplete
  shape := by simpa [ht.txnOpen] using hshape
  placed := by
    rw [State.placed, ht.seq]
    simp only [ht.frame]
    exact ⟨ht.inScript, hle, by simp [ht.txnOpen, hpos], ht.rx, bound_of_kept hk hb⟩

/-- A failed write in an open frame: the close has followed, and SEQ is Idle (R76). -/
theorem State.Inv.of_cut {w : List Byte} {j : Nat} (h : s.Inv) (ho : s.txnOpen = true) (ha : Aborted s t)
    (hx : t.ctl.rx = .off) (hc : t.ctl.cram.wf = true) (hj : j < w.length)
    (htrace : t.trace = s.trace ++ cutTrace w j) : t.Inv := by
  have hrest : AtRest t :=
    { fbWf := by rw [ha.fb]; exact h.fbWf
      cramWf := hc
      fbComplete := by rw [ha.mode, ha.fb]; exact h.fbComplete
      shape := by rw [htrace, phaseAfter_append, h.shape_inFrame ho]; exact phaseAfter_cutTrace w hj
      txnOpen := ha.txnOpen
      rx := hx }
  exact hrest.inv_idle ha.seq

/-- `T.open()` at the first position of a frame. -/
theorem transportOpen_inv (h : s.Inv) (hs : s.seq = .running op f 0) : (transportOpen s).state.Inv := by
  obtain ⟨hf, -, htxn, -, hb⟩ := h.placed_running hs
  have hrest : AtRest s := h.atRest htxn
  cases hr : s.resultAhead 0
  · rw [transportOpen_ok hr]
    refine h.of_inFrame hb (kept_afterOpen s) (inFrame_afterOpen ⟨hs, hrest.txnOpen⟩ hf rfl) Nat.one_pos
      (Nat.le_add_left 1 _) h.cramWf ?_
    rw [go_state, afterOpen_trace, phaseAfter_append, hrest.shape]
    rfl
  · have hc : (transportOpen s).state.ctl.cram.wf = true := transportOpen_wf h.cramWf
    obtain ⟨t, hstop, ha, hx, htrace⟩ := transportOpen_aborts hr hrest.txnOpen
    rw [hstop] at hc ⊢
    exact (hrest.of_kept ha.toKept ha.txnOpen (hx.trans hrest.rx) hc htrace rfl).inv_idle ha.seq

/-- Bytes written Ok inside a frame. -/
theorem State.Inv.afterBytes {w : List Byte} {c : Controller} (h : s.Inv) (hin : InFrame op f kind p (k + 1) s)
    (hle : k + 1 + w.length ≤ p.length + 3) (hx : c.rx = rxAt kind p (k + 1 + w.length)) (hc : c.cram.wf = true) :
    (s.afterBytes w c).Inv := by
  obtain ⟨-, -, -, -, hb⟩ := h.placed_running hin.seq
  refine h.of_inFrame hb (kept_afterBytes s w c) (hin.afterBytes hx) (by omega) hle hc ?_
  rw [afterBytes_trace, phaseAfter_append, h.shape_inFrame hin.txnOpen]
  exact phaseAfter_wrote w

/-- One byte of a frame, whatever the Transport answers. -/
theorem transportWrite_inv {b : Byte} {take : Nat → Controller → Controller} (h : s.Inv)
    (hin : InFrame op f kind p (k + 1) s) (hle : k + 2 ≤ p.length + 3)
    (hx : (take s.calls s.ctl).rx = rxAt kind p (k + 2))
    (hwf : ∀ n c, c.cram.wf = true → (take n c).cram.wf = true) : (transportWrite b take s).state.Inv := by
  cases hr : s.resultAhead 0
  · rw [transportWrite_ok hr]
    exact h.afterBytes (w := [b]) hin hle hx (hwf _ _ h.cramWf)
  · have hc : (transportWrite b take s).state.ctl.cram.wf = true := transportWrite_wf b hwf h.cramWf
    obtain ⟨t, hstop, ha, hxt, htrace⟩ := transportWrite_aborts b take hr hin.txnOpen
    rw [hstop] at hc ⊢
    exact h.of_cut (w := [b]) (j := 0) hin.txnOpen ha hxt hc Nat.one_pos htrace

/-- The next bytes of a payload, whatever the Transport answers. -/
theorem writePayloads_inv {j : Nat} {bs rest : List Byte} (h : s.Inv) (hin : InFrame op f kind p (j + 3) s)
    (hp : p.drop j = bs ++ rest) : (writePayloads bs s).state.Inv := by
  have hle : j + 3 + bs.length ≤ p.length + 3 := by
    obtain ⟨-, hj, -⟩ := h.placed_running hin.seq
    have hlen := congrArg List.length hp
    simp only [hin.frame] at hj
    simp only [List.length_drop, List.length_append] at hlen
    omega
  rcases allOk_or_failsAt s bs.length with hok | ⟨n, hn, hfail⟩
  · rw [writePayloads_ok bs hok]
    exact h.afterBytes hin hle (takePayloads_rx_eq_rxAt hp hin.rx) (takePayloads_wf bs _ h.cramWf)
  · have hc : (writePayloads bs s).state.ctl.cram.wf = true := writePayloads_wf bs h.cramWf
    obtain ⟨t, hstop, ha, hx, htrace⟩ := writePayloads_fails bs hfail hn hin.txnOpen
    rw [hstop] at hc ⊢
    exact h.of_cut hin.txnOpen ha hx hc hn htrace

/-- The close of a frame, and the end of the operation with its last frame (R16). -/
theorem settle_transportClose_inv (h : s.Inv) (hs : s.seq = .running op f (k + 1)) :
    (settle (transportClose s)).Inv := by
  obtain ⟨-, -, htxn, -, hb⟩ := h.placed_running hs
  have hrest : AtRest (transportClose s) :=
    { fbWf := h.fbWf
      cramWf := h.cramWf
      fbComplete := h.fbComplete
      shape := by rw [transportClose_trace, phaseAfter_append, h.shape_inFrame (by simpa using htxn)]; rfl
      txnOpen := rfl
      rx := rfl }
  exact hrest.settle_inv (by rw [transportClose_seq, hs]; rfl) (bound_of_kept ⟨rfl, rfl, rfl, rfl, rfl, rfl, rfl⟩ hb)

/-- A frame primitive run on its own (log entry 13). -/
theorem settle_sendStream_inv (h : s.Inv) (hs : s.seq = .running op f 0) :
    (settle (sendStream kind p s).state).Inv := by
  obtain ⟨-, -, htxn, -, hb⟩ := h.placed_running hs
  have hrest : AtRest (sendStream kind p s).state := sendStream_atRest kind p (h.atRest htxn)
  rcases sendStream_cases kind p s htxn with ⟨-, hgo⟩ | ⟨_, t, -, -, hstop, ha, -⟩
  · rw [hgo] at hrest ⊢
    exact hrest.settle_inv (by rw [go_state, afterFrame_seq, hs]; rfl) (bound_of_kept (kept_afterFrame _ _ _) hb)
  · rw [hstop] at hrest ⊢
    rw [stop_state, settle_idle ha.seq]
    exact hrest.inv_idle ha.seq

end Frame

/-! ### The step -/

/-- With SEQ Idle: nothing, a whole operation of the host, or a write through the external port. -/
theorem step_idle_inv {s t : State} (h : s.Inv) (hs : s.seq = .idle) (hstep : step s = .next t) : t.Inv := by
  have hrest : AtRest s := h.atRest (h.placed_idle hs).1
  have htaken (rest : List Input) : AtRest { s with requests := rest } :=
    ⟨hrest.fbWf, hrest.cramWf, hrest.fbComplete, hrest.shape, hrest.txnOpen, hrest.rx⟩
  cases hreq : s.requests with
  | nil =>
    have hfetch : fetch s = .waiting := by simp only [fetch, hs, hreq, fetchInput]
    simp only [step, hfetch] at hstep
    cases hstep
    exact h
  | cons x rest =>
    cases x with
    | fbWrite i b =>
      have hfetch : fetch s = .fbByte i b := by simp only [fetch, hs, hreq, fetchInput]
      have htake : takeInput s = { s with requests := rest } := by simp [takeInput, hs, hreq]
      simp only [step, hfetch, htake] at hstep
      exact externalWrite_inv (htaken rest) hstep
    | request w =>
      cases hdec : decode (.request w) with
      | error e =>
        have hfetch : fetch s = .reserved := by simp only [fetch, hs, hreq, fetchInput, hdec]
        simp only [step, hfetch] at hstep
        cases hstep
      | ok i =>
        rw [stepRunsRequest s w rest i hs hreq hdec] at hstep
        have hi := isHostOp_of_decode_request hdec
        exact (exec_hostOp_atRest hi (htaken rest) hstep).inv_idle (exec_hostOp_seq hi hstep)

/-- While an operation is under way: by the position SEQ points at. -/
theorem step_running_inv {op : BusOp} {f k : Nat} {s t : State} (h : s.Inv) (hs : s.seq = .running op f k)
    (hstep : step s = .next t) : t.Inv := by
  obtain ⟨hf, -, htxn, hrx, -⟩ := h.placed_running hs
  match k with
  | 0 =>
    by_cases hop : ∃ kind p, op = .stream kind p
    · obtain ⟨kind, p, rfl⟩ := hop
      cases (step_primitive hs hf htxn).symm.trans hstep
      exact settle_sendStream_inv h hs
    · have hhost : ∀ kind p, op ≠ .stream kind p := fun kind p he => hop ⟨kind, p, he⟩
      cases (step_open hs hf hhost htxn).symm.trans hstep
      exact transportOpen_inv h hs
  | 1 =>
    have hinv : (writeAddress s).state.Inv :=
      transportWrite_inv h (h.inFrame hs) (Nat.le_add_left 2 _) rfl fun _ _ hc => hc
    cases (step_address hs hf htxn hrx).symm.trans hstep
    rwa [settle_of_inv hinv]
  | 2 =>
    have hinv : (writeControl (op.frame s.fb f).1 s).state.Inv :=
      transportWrite_inv h (h.inFrame hs) (Nat.le_add_left 3 _) (takeControl_rx _ _ _) fun _ c hc => by
        cases (op.frame s.fb f).1 <;> exact hc
    cases (step_control hs hf rfl htxn hrx).symm.trans hstep
    rwa [settle_of_inv hinv]
  | j + 3 =>
    have ho : s.txnOpen = true := by simpa using htxn
    by_cases hp : (op.frame s.fb f).2.drop j = []
    · cases (step_close hs hf hp ho).symm.trans hstep
      exact settle_transportClose_inv h hs
    · obtain ⟨bs, rest, -, hsplit, hbytes⟩ := step_payload hs hf hp ho hrx
      have hinv : (writePayloads bs s).state.Inv := writePayloads_inv h (h.inFrame hs) hsplit
      cases hbytes.symm.trans hstep
      rwa [settle_of_inv hinv]

/-- Settles O46: with SEQ Idle a step leads from rest to rest, otherwise it makes the calls of SEQ's position. -/
theorem stepKeepsInvariant : Obligations.StepKeepsInvariant := by
  intro s t h hstep
  cases hs : s.seq with
  | idle => exact step_idle_inv h hs hstep
  | running op f k => exact step_running_inv h hs hstep

/-! ### Reset -/

/-- Settles O9: each clause is a field of the state after reset; an empty memory has no value anywhere. -/
theorem resetState : Obligations.ResetState :=
  ⟨rfl, rfl, rfl, rfl, rfl, rfl, fun _ => rfl, fun _ => rfl, fun _ _ => rfl⟩

/-- Settles O47: after reset the block is at rest with SEQ Idle. -/
theorem resetInvariant : Obligations.ResetInvariant :=
  AtRest.inv_idle ⟨Memory.wf_nil, Memory.wf_nil, nofun, rfl, rfl, rfl⟩ rfl

end Sys2Proof.Machine

/-! SUPPORT. The memories and the bus (20_memory.md): the layout of the framebuffer (R31), which instructions leave the
controller RAM alone (R37, R39), a request while the block is busy (R46), and bytes and frames out of place (R44, R47). -/

namespace Sys2Proof.Machine

/-! ### The layout of the framebuffer (R31) -/

theorem index_le_of_le {pg col : Nat} (hpg : pg ≤ 7) (hcol : col ≤ 131) : index pg col ≤ 1055 := by
  simp only [index, Config.cols]
  omega

theorem pageOf_index {pg col : Nat} (hcol : col < Config.cols) : pageOf (index pg col) = pg := by
  simp only [index, pageOf, Config.cols] at *
  omega

theorem columnOf_index {pg col : Nat} (hcol : col < Config.cols) : columnOf (index pg col) = col :=
  Nat.mul_add_mod_of_lt hcol

theorem pageOf_le {i : Nat} (hi : i ≤ 1055) : pageOf i ≤ 7 := by
  simp only [pageOf, Config.cols]
  omega

theorem columnOf_lt (i : Nat) : columnOf i < Config.cols := Nat.mod_lt i (by decide)

theorem index_pageOf_columnOf (i : Nat) : index (pageOf i) (columnOf i) = i := Nat.div_add_mod' i Config.cols

/-- Settles O8: page and column are quotient and remainder of the index by the 132 columns. -/
theorem framebufferLayout : Obligations.FramebufferLayout := by
  refine ⟨fun pg col hpg hcol => ?_, fun i hi => ?_⟩
  · have hlt : col < Config.cols := Nat.lt_succ_of_le hcol
    exact ⟨rfl, index_le_of_le hpg hcol, pageOf_index hlt, columnOf_index hlt⟩
  · exact ⟨rfl, rfl, pageOf_le hi, Nat.le_of_lt_succ (columnOf_lt i), index_pageOf_columnOf i⟩

/-! ### A request while the block is busy (R46) -/

/-- INIT asks whether SEQ is Idle before it looks at its address (R46, R89). -/
theorem execInit_busy {s : State} (a : BusAddr) (hs : s.seq ≠ .idle) :
    execInit a s = .refused .requestWhileBusy := by
  have hidle : s.isIdle = false := by simp [State.isIdle, hs]
  rw [execInit, hidle, Bool.false_and, if_neg Bool.false_ne_true, whenIdle_busy _ hs]

/-- Settles O14: every host operation stands behind the check of SEQ. -/
theorem requestWhileBusyRefused : Obligations.RequestWhileBusyRefused := by
  intro i s hi hs
  cases i with
  | init a => exact execInit_busy a hs
  | setPower | setContrast | setPolarity | fill | sync | setDebug | clear => exact whenIdle_busy _ hs
  | _ => cases hi

/-! ### Bytes and frames out of place (R44, R47, R51, R79) -/

theorem whenByteAt_closed (rx : Rx) {s : State} (t : State) (ho : s.txnOpen = false) :
    whenByteAt rx s t = .fault .noOpenTransaction := by
  simp [whenByteAt, ho]

theorem whenByteAt_misplaced {rx : Rx} {s : State} (t : State) (ho : s.txnOpen = true) (hx : s.ctl.rx ≠ rx) :
    whenByteAt rx s t = .fault .wrongPosition := by
  simp [whenByteAt, ho, hx]

theorem whenFrameAllowed_open (a : BusAddr) {s : State} (t : State) (ho : s.txnOpen = true) :
    whenFrameAllowed a s t = .fault .frameInsideFrame := by
  simp [whenFrameAllowed, ho]

theorem whenFrameAllowed_foreign {a : BusAddr} {s : State} (t : State) (ho : s.txnOpen = false)
    (ha : a ≠ s.busAddr) : whenFrameAllowed a s t = .fault .foreignAddress := by
  simp [whenFrameAllowed, ho, ha]

theorem execAddress_foreign {a : BusAddr} {s : State} (ho : s.txnOpen = true) (ha : a ≠ s.busAddr) :
    execAddress a s = .fault .foreignAddress := by
  simp [execAddress, ho, ha]

/-- The address byte is checked against BUS_ADDR only inside a transaction; past that it is a byte like any other. -/
theorem execAddress_eq_whenByteAt {a : BusAddr} {s : State} (ha : s.txnOpen = true → a = s.busAddr) :
    execAddress a s = whenByteAt .off s (writeAddress s).state := by
  unfold execAddress
  rw [if_neg]
  simpa using ha

/-- An instruction of layer C writes its bytes behind the check of TXN_OPEN and of its own place in the frame. -/
theorem exec_byteRow {i : Instr} {w : List Byte} {rx : Rx} {s : State} (h : byteRow i = some (w, rx))
    (ha : s.txnOpen = true → ∀ a, i = .address a → a = s.busAddr) : ∃ t, exec i s = whenByteAt rx s t := by
  cases i with
  | init | setPower | setContrast | setPolarity | fill | sync | setDebug | clear | sendCmdStream | sendDataStream =>
    cases h
  | address a =>
    cases h
    exact ⟨_, execAddress_eq_whenByteAt fun ho => ha ho a rfl⟩
  | _ =>
    cases h
    exact ⟨_, rfl⟩

/-- Both frame primitives are the one frame procedure behind the one check (R72 to R74). -/
theorem exec_frameInstr (kind : StreamKind) (a : BusAddr) (p : List Byte) (s : State) :
    exec (frameInstr kind a p) s = whenFrameAllowed a s (sendStream kind p s).state := by
  cases kind <;> rfl

/-- Settles O40: the checks on bytes, frames and the address byte, each where it fails. -/
theorem misplacedBytesFault : Obligations.MisplacedBytesFault := by
  refine ⟨fun i w rx s hrow ho => ?_, fun i w rx s hrow ho ha hx => ?_, fun kind a p s ho => ?_,
    fun kind a p s ho ha => ?_, fun a s ho ha => execAddress_foreign ho ha⟩
  · obtain ⟨t, ht⟩ := exec_byteRow (s := s) hrow (by simp [ho])
    rw [ht, whenByteAt_closed rx t ho]
  · obtain ⟨t, ht⟩ := exec_byteRow hrow fun _ => ha
    rw [ht, whenByteAt_misplaced t ho hx]
  · rw [exec_frameInstr, whenFrameAllowed_open a _ ho]
  · rw [exec_frameInstr, whenFrameAllowed_foreign _ ho ha]

/-! ### Who leaves the controller RAM alone (R37, R39, R148) -/

/-- CRAM is as before, unless a call of SYNC has failed on the way from s to t, which leaves it unknown (R116; log
entry 12). -/
def CramKept (s t : State) : Prop :=
  s.seq.NotSync ∨ t.responses ≠ s.responses ++ [.transportError] → t.ctl.cram = s.ctl.cram

/-- Calls keep CRAM if they do so when they all succeed and, outside SYNC, when one fails: calls that stopped have
returned TRANSPORT_ERROR. -/
theorem Flow.Tame.cramKept {s : State} {x : Flow} (hx : x.Tame s)
    (hgo : ∀ t, x = .go t → t.ctl.cram = s.ctl.cram)
    (hstop : s.seq.NotSync → x.state.ctl.cram = s.ctl.cram) : CramKept s x.state := by
  cases x with
  | go t => exact fun _ => hgo t rfl
  | stop t => exact fun h => hstop (h.resolve_right fun hr => hr hx.responses)

/-- A written byte keeps CRAM if the controller does so when it takes the byte, outside a data stream. -/
theorem transportWrite_cramKept (b : Byte) {take : Nat → Controller → Controller} {s : State}
    (htake : (take s.calls s.ctl).cram = s.ctl.cram) (hx : s.ctl.rx ≠ .data) :
    CramKept s (transportWrite b take s).state := by
  cases h : s.resultAhead 0
  · rw [transportWrite_ok h]
    exact fun _ => htake
  · refine (transportWrite_tame b take s).cramKept (fun t ht => ?_) fun hq => transportWrite_fail_cram h hq hx
    rw [transportWrite_fail h] at ht
    cases ht

theorem writeAddress_cramKept {s : State} (hx : s.ctl.rx = .off) : CramKept s (writeAddress s).state :=
  transportWrite_cramKept _ rfl (by simp [hx])

theorem takeControl_cram (kind : StreamKind) (c : Controller) : (c.takeControl kind).cram = c.cram := by
  cases kind <;> rfl

theorem writeControl_cramKept (kind : StreamKind) {s : State} (hx : s.ctl.rx = .header) :
    CramKept s (writeControl kind s).state :=
  transportWrite_cramKept _ (takeControl_cram kind s.ctl) (by simp [hx])

theorem writePayloads_cramKept (p : List Byte) {s : State} (hx : s.ctl.rx = .command) :
    CramKept s (writePayloads p s).state :=
  (writePayloads_tame p s).cramKept (fun _ h => writePayloads_command_cram_go p (.inl hx) h)
    fun hq => writePayloads_command_cram p hq (.inl hx)

/-- A command frame keeps CRAM: complete, the controller has taken it; cut, by its calls (R39). -/
theorem sendStream_command_cramKept (p : List Byte) {s : State} (ho : s.txnOpen = false) :
    CramKept s (sendStream .command p s).state := by
  refine (sendStream_tame .command p s).cramKept (fun t ht => ?_) fun hq => sendStream_command_cram p hq
  obtain ⟨-, hgo⟩ | ⟨_, _, -, -, hstop, -⟩ := sendStream_cases .command p s ho
  · cases ht.symm.trans hgo
    exact takeFrame_command_cram s.calls p _
  · cases ht.symm.trans hstop

theorem finishOp_cram (op : BusOp) (s : State) : (finishOp op s).ctl.cram = s.ctl.cram := by
  cases op <;> rfl

/-- An operation of one command frame other than SYNC leaves CRAM alone, whatever the Transport answers. -/
theorem runOneFrame_cram {op : BusOp} (hop : op ≠ .sync) (p : List Byte) (s : State) :
    (runOneFrame op p s).ctl.cram = s.ctl.cram := by
  have hq : (beginOp op s).seq.NotSync := by
    intro f k hq
    rw [beginOp_seq] at hq
    cases hq
    exact hop rfl
  obtain ⟨-, -, hctl, -⟩ := beginOp_calls op s
  have hcram := sendStream_command_cram p hq
  rw [hctl] at hcram
  rw [runOneFrame]
  cases hx : sendStream .command p (beginOp op s) <;> rw [hx] at hcram
  case go t => exact (finishOp_cram op t).trans hcram
  case stop t => exact hcram

/-- A checked operation that leaves CRAM alone does so where it is not run, too. -/
theorem whenIdle_whenReady_cram {s t u : State} (ht : t.ctl.cram = s.ctl.cram)
    (h : whenIdle s (whenReady s t) = .next u) : u.ctl.cram = s.ctl.cram := by
  rcases whenIdle_whenReady_cases h with rfl | rfl
  · exact ht
  · exact raiseError_cram _ s

theorem fillWith_ctl (p : Byte) (s : State) : (fillWith p s).ctl = s.ctl := by
  simp [fillWith]

theorem exec_cramKept {i : Instr} {s t : State} (hi : sendsData i = false) (h : exec i s = .next t) :
    CramKept s t := by
  cases i with
  | sync | sendDataStream | data => cases hi
  | init a =>
    rw [exec_init_eq_next h]
    exact fun _ => runOneFrame_cram (by simp) _ s
  | setPower | setContrast | setPolarity =>
    exact fun _ => whenIdle_whenReady_cram (runOneFrame_cram (by simp) _ s) h
  | fill | clear => exact fun _ => whenIdle_whenReady_cram (by rw [fillWith_ctl]) h
  | setDebug en =>
    obtain ⟨-, rfl⟩ := whenIdle_eq_next.1 h
    exact fun _ => rfl
  | sendCmdStream a p =>
    obtain ⟨ho, -, rfl⟩ := whenFrameAllowed_eq_next.1 h
    exact sendStream_command_cramKept p ho
  | address a =>
    simp only [exec, execAddress] at h
    split at h
    · cases h
    · obtain ⟨-, hx, rfl⟩ := whenByteAt_eq_next.1 h
      exact writeAddress_cramKept hx
  | controlCmdStream | controlDataStream =>
    obtain ⟨-, hx, rfl⟩ := whenByteAt_eq_next.1 h
    exact writeControl_cramKept _ hx
  | _ =>
    obtain ⟨-, hx, rfl⟩ := whenByteAt_eq_next.1 h
    exact writePayloads_cramKept _ hx

/-- Settles O44: the instructions by `exec_cramKept`, a whole command frame byte by byte. -/
theorem commandFramesKeepCram : Obligations.CommandFramesKeepCram :=
  ⟨fun _ _ _ hi h => exec_cramKept hi h, takeFrame_command_cram⟩

end Sys2Proof.Machine

/-! SUPPORT. Encoding and decoding (30_encoding.md): the fields of a request word (R59 to R61), the bytes of a frame and of
a command (R51 to R57), the length rule of a payload (R57), and the frames the host can make the block emit (R62). -/

namespace Sys2Proof.Machine

/-! ### The fields of a request word (R59, R60) -/

@[simp] theorem requestOp_requestWord (op : BitVec 4) (arg : Byte) : requestOp (requestWord op arg) = op :=
  BitVec.extractLsb'_append_eq_left

@[simp] theorem requestArg_requestWord (op : BitVec 4) (arg : Byte) : requestArg (requestWord op arg) = arg :=
  BitVec.extractLsb'_append_eq_right

theorem requestWord_requestOp_requestArg (w : Request) : requestWord (requestOp w) (requestArg w) = w :=
  BitVec.extractLsb'_append_extractLsb'

theorem exists_requestWord (w : Request) : ∃ op arg, w = requestWord op arg :=
  ⟨_, _, (requestWord_requestOp_requestArg w).symm⟩

/-- The ops of R59, and those above them (R61). -/
theorem op_cases (op : BitVec 4) :
    op = 0x0 ∨ op = 0x1 ∨ op = 0x2 ∨ op = 0x3 ∨ op = 0x4 ∨ op = 0x5 ∨ op = 0x6 ∨ 7 ≤ op.toNat := by
  revert op
  decide

theorem except_map_eq_ok {α β : Type} {x : Except Reject α} {f : α → β} {y : β} :
    x.map f = .ok y ↔ ∃ a, x = .ok a ∧ f a = y := by
  cases x <;> simp [Except.map]

/-- A one-bit argument is read exactly when it is the argument byte of that bit. -/
theorem oneBitArg_eq_ok {arg : Byte} {x : Bool} : oneBitArg arg = .ok x ↔ bitArg x = arg := by
  revert arg x
  decide

theorem oneBitArg_map_eq_error {f : Bool → Instr} {arg : Byte} :
    (oneBitArg arg).map f = .error .reservedRequest ↔ arg.extractLsb' 1 7 ≠ 0 := by
  unfold oneBitArg
  split
  · simp [*, Except.map]
  · simpa [Except.map]

theorem oneBitArg_map_eq_ok {f : Bool → Instr} {arg : Byte} {i : Instr} :
    (oneBitArg arg).map f = .ok i ↔ ∃ x, bitArg x = arg ∧ f x = i := by
  simp only [except_map_eq_ok, oneBitArg_eq_ok]

/-- INIT's argument is its bus address if its top bit is clear (R59, R61). -/
theorem zeroExtend_extractLsb'_of_top_clear {arg : Byte} (h : arg.getLsbD 7 = false) :
    (arg.extractLsb' 0 7).zeroExtend 8 = arg := by
  revert arg
  decide

/-! ### The request decoder, op by op (R59, R61) -/

theorem decodeRequest_init (arg : Byte) : decodeRequest (requestWord 0x0 arg) =
    if arg.getLsbD 7 then .error .reservedRequest else .ok (.init (arg.extractLsb' 0 7)) := by
  simp [decodeRequest]

theorem decodeRequest_setPower (arg : Byte) : decodeRequest (requestWord 0x1 arg) = (oneBitArg arg).map .setPower := by
  simp [decodeRequest]

theorem decodeRequest_setContrast (arg : Byte) : decodeRequest (requestWord 0x2 arg) = .ok (.setContrast arg) := by
  simp [decodeRequest]

theorem decodeRequest_setPolarity (arg : Byte) :
    decodeRequest (requestWord 0x3 arg) = (oneBitArg arg).map .setPolarity := by
  simp [decodeRequest]

theorem decodeRequest_fill (arg : Byte) : decodeRequest (requestWord 0x4 arg) = .ok (.fill arg) := by
  simp [decodeRequest]

theorem decodeRequest_sync (arg : Byte) : decodeRequest (requestWord 0x5 arg) =
    if arg = 0 then .ok .sync else .error .reservedRequest := by
  simp [decodeRequest]

theorem decodeRequest_setDebug (arg : Byte) : decodeRequest (requestWord 0x6 arg) = (oneBitArg arg).map .setDebug := by
  simp [decodeRequest]

theorem decodeRequest_of_seven_le {op : BitVec 4} (h : 7 ≤ op.toNat) (arg : Byte) :
    decodeRequest (requestWord op arg) = .error .reservedRequest := by
  have hne (n : BitVec 4) (hn : n.toNat < 7) : op ≠ n := fun he => absurd h (by rw [he]; omega)
  simp [decodeRequest, hne]

/-- A request word is reserved by its op, or by bits of its argument that its op does not use. -/
theorem decodeRequest_reserved_iff (w : Request) : decodeRequest w = .error .reservedRequest ↔
    (7 ≤ (requestOp w).toNat ∨ (requestOp w = 0 ∧ (requestArg w).getLsbD 7 = true) ∨
      ((requestOp w = 1 ∨ requestOp w = 3 ∨ requestOp w = 6) ∧ (requestArg w).extractLsb' 1 7 ≠ 0) ∨
      (requestOp w = 5 ∧ requestArg w ≠ 0)) := by
  obtain ⟨op, arg, rfl⟩ := exists_requestWord w
  obtain rfl | rfl | rfl | rfl | rfl | rfl | rfl | hop := op_cases op
  · rw [decodeRequest_init]
    simp
  · rw [decodeRequest_setPower, oneBitArg_map_eq_error]
    simp
  · rw [decodeRequest_setContrast]
    simp
  · rw [decodeRequest_setPolarity, oneBitArg_map_eq_error]
    simp
  · rw [decodeRequest_fill]
    simp
  · rw [decodeRequest_sync]
    simp
  · rw [decodeRequest_setDebug, oneBitArg_map_eq_error]
    simp
  · simp [decodeRequest_of_seven_le hop, hop]

/-- Settles O3: the reserved words op by op; the step refuses what the decoder rejects. -/
theorem reservedRequestsRefused : Obligations.ReservedRequestsRefused := by
  refine ⟨decodeRequest_reserved_iff, fun s w rest hs hreq hdec => ?_⟩
  have hfetch : fetch s = .reserved := by simp only [fetch, hs, hreq, fetchInput, hdec]
  simp only [step, hfetch]

/-- A request word has at most one reading (R59 to R61). -/
theorem encode_of_decodeRequest {w : Request} {i : Instr} (h : decodeRequest w = .ok i) : encode i = .request w := by
  obtain ⟨op, arg, rfl⟩ := exists_requestWord w
  obtain rfl | rfl | rfl | rfl | rfl | rfl | rfl | hop := op_cases op
  · rw [decodeRequest_init] at h
    split at h
    · cases h
    · rename_i htop
      cases h
      rw [encode, zeroExtend_extractLsb'_of_top_clear (by simpa using htop)]
  · obtain ⟨x, rfl, rfl⟩ := oneBitArg_map_eq_ok.1 ((decodeRequest_setPower arg).symm.trans h)
    rfl
  · cases (decodeRequest_setContrast arg).symm.trans h
    rfl
  · obtain ⟨x, rfl, rfl⟩ := oneBitArg_map_eq_ok.1 ((decodeRequest_setPolarity arg).symm.trans h)
    rfl
  · cases (decodeRequest_fill arg).symm.trans h
    rfl
  · rw [decodeRequest_sync] at h
    split at h
    · rename_i harg
      cases h
      rw [harg]
      rfl
    · cases h
  · obtain ⟨x, rfl, rfl⟩ := oneBitArg_map_eq_ok.1 ((decodeRequest_setDebug arg).symm.trans h)
    rfl
  · cases (decodeRequest_of_seven_le hop arg).symm.trans h

/-- The word of an operation of the host decodes to it; CLEAR's is FILL's (R64). -/
theorem decode_encode_hostOp {i : Instr} (hi : isHostOp i = true) : decode (encode i) = .ok i.core := by
  cases i with
  | init a =>
    have haddr : (a.zeroExtend 8).getLsbD 7 = false ∧ (a.zeroExtend 8).extractLsb' 0 7 = a := by
      revert a
      decide
    obtain ⟨htop, hlow⟩ := haddr
    simp only [encode, decode, decodeRequest_init, htop, hlow]
    rfl
  | setPower on => exact (decodeRequest_setPower _).trans (oneBitArg_map_eq_ok.2 ⟨on, rfl, rfl⟩)
  | setContrast v => exact decodeRequest_setContrast v
  | setPolarity inv => exact (decodeRequest_setPolarity _).trans (oneBitArg_map_eq_ok.2 ⟨inv, rfl, rfl⟩)
  | fill p => exact decodeRequest_fill p
  | sync => exact decodeRequest_sync 0x00
  | setDebug en => exact (decodeRequest_setDebug _).trans (oneBitArg_map_eq_ok.2 ⟨en, rfl, rfl⟩)
  | clear => exact decodeRequest_fill 0x00
  | _ => cases hi

/-! ### The bytes of a frame (R51 to R53) -/

/-- An address byte with its write bit clear is that of the bus address read from it (R52). -/
theorem addressByte_of_decodeAddressByte {b : Byte} {a : BusAddr} (h : decodeAddressByte b = .ok a) :
    addressByte a = b := by
  have hread : ∀ b : Byte, b.getLsbD 0 = false → addressByte (b.extractLsb' 1 7) = b := by decide
  unfold decodeAddressByte at h
  split at h
  · cases h
  · rename_i hbit
    cases h
    exact hread b (by simpa using hbit)

theorem controlByte_of_decodeControlByte {b : Byte} {kind : StreamKind} (h : decodeControlByte b = .ok kind) :
    kind.controlByte = b := by
  unfold decodeControlByte at h
  split at h
  · rename_i hb
    cases h
    exact hb.symm
  · split at h
    · rename_i hb
      cases h
      exact hb.symm
    · cases h

theorem encode_frameInstr (kind : StreamKind) (a : BusAddr) (payload : List Byte) :
    encode (frameInstr kind a payload) = .frame (frameBytes a kind payload) := by
  cases kind <;> rfl

/-- The written bytes of a frame have at most one reading (R51). -/
theorem encode_of_decodeFrame {written : List Byte} {i : Instr} (h : decodeFrame written = .ok i) :
    encode i = .frame written := by
  match written with
  | [] | [_] => cases h
  | b :: c :: payload =>
    simp only [decodeFrame] at h
    cases ha : decodeAddressByte b with
    | error e => simp [ha] at h
    | ok a =>
      cases hk : decodeControlByte c with
      | error e => simp [ha, hk] at h
      | ok kind =>
        obtain rfl : frameInstr kind a payload = i := by simpa [ha, hk] using h
        rw [encode_frameInstr, frameBytes, addressByte_of_decodeAddressByte ha,
          controlByte_of_decodeControlByte hk]

/-! ### The bytes of a command (R54 to R57) -/

/-- The bytes are those of the command, by the two tables of the decoder: one byte, or an opener and its data byte. -/
inductive CommandCode : Instr → List Byte → Prop
  | oneByte {b : Byte} {i : Instr} (h : decodeOneByte b = some i) : CommandCode i [b]
  | twoByte {b d : Byte} {i : Instr} (h : decodeTwoByte b d = some i) : CommandCode i [b, d]

/-- A one-byte command is encoded as the byte it was read from, which opens no two-byte command (R57). -/
theorem opener_and_encode_of_decodeOneByte {b : Byte} {i : Instr} (h : decodeOneByte b = some i) :
    isTwoByteOpener b = false ∧ encode i = .command [b] := by
  have htable : ∀ b : Byte, (decodeOneByte b).all fun i => !isTwoByteOpener b && encode i == .command [b] := by decide
  simpa [h] using htable b

/-- A two-byte command is encoded as the bytes it was read from, the first of which is an opener (R57). -/
theorem opener_and_encode_of_decodeTwoByte {b d : Byte} {i : Instr} (h : decodeTwoByte b d = some i) :
    isTwoByteOpener b = true ∧ encode i = .command [b, d] := by
  unfold decodeTwoByte at h
  repeat' (split at h; · rename_i hb; subst hb; cases h; exact ⟨rfl, rfl⟩)
  cases h

theorem decodeOneByte_columnLower4Byte (n : BitVec 4) :
    decodeOneByte (columnLower4Byte n) = some (.columnLower4 n) := by
  revert n
  decide

theorem decodeOneByte_columnUpper4Byte (n : BitVec 4) :
    decodeOneByte (columnUpper4Byte n) = some (.columnUpper4 n) := by
  revert n
  decide

theorem decodeOneByte_segmentRemapByte (r : BitVec 1) :
    decodeOneByte (segmentRemapByte r) = some (.segmentRemap r) := by
  revert r
  decide

/-- Encoder and tables agree on what the bytes of a command are. -/
theorem commandCode_iff {i : Instr} {bytes : List Byte} : CommandCode i bytes ↔ encode i = .command bytes := by
  constructor
  · rintro (h | h)
    · exact (opener_and_encode_of_decodeOneByte h).2
    · exact (opener_and_encode_of_decodeTwoByte h).2
  · intro h
    cases i with
    | init | setPower | setContrast | setPolarity | fill | sync | setDebug | clear => cases h
    | sendCmdStream | sendDataStream | address | controlCmdStream | controlDataStream | data => cases h
    | columnLower4 n =>
      cases h
      exact .oneByte (decodeOneByte_columnLower4Byte n)
    | columnUpper4 n =>
      cases h
      exact .oneByte (decodeOneByte_columnUpper4Byte n)
    | pageAddress p =>
      cases h
      exact .oneByte (decodeOneByte_page p)
    | segmentRemap r =>
      cases h
      exact .oneByte (decodeOneByte_segmentRemapByte r)
    | contrastMode | multiplexRatio | displayOffset | oscillatorFreq | prechargeDischarge | commonPadsConfig
    | commonPadsVoltage | chargePump =>
      cases h
      exact .twoByte rfl
    | _ =>
      cases h
      exact .oneByte rfl

/-- The first command of a payload is read exactly when its bytes stand there (R57). -/
theorem decodeCommand_eq_ok {i : Instr} {p rest : List Byte} :
    decodeCommand p = .ok (i, rest) ↔ ∃ bytes, CommandCode i bytes ∧ p = bytes ++ rest := by
  constructor
  · intro h
    unfold decodeCommand at h
    split at h
    · cases h
    split at h
    · split at h
      · cases h
      split at h
      · rename_i hcode
        cases h
        exact ⟨_, .twoByte hcode, rfl⟩
      · cases h
    · split at h
      · rename_i hcode
        cases h
        exact ⟨_, .oneByte hcode, rfl⟩
      · cases h
  · rintro ⟨bytes, h | h, rfl⟩
    · obtain ⟨hopener, -⟩ := opener_and_encode_of_decodeOneByte h
      simp [decodeCommand, hopener, h]
    · obtain ⟨hopener, -⟩ := opener_and_encode_of_decodeTwoByte h
      simp [decodeCommand, hopener, h]

/-- A command code is read as the instruction whose code it is, and as no other. -/
theorem decode_command_iff {i : Instr} {bytes : List Byte} :
    decode (.command bytes) = .ok i ↔ encode i = .command bytes := by
  have hwhole : decode (.command bytes) = .ok i ↔ decodeCommand bytes = .ok (i, []) := by
    rcases hd : decodeCommand bytes with e | ⟨j, _ | ⟨b, rest⟩⟩ <;> simp [decode, hd]
  rw [hwhole, decodeCommand_eq_ok, ← commandCode_iff]
  simp

/-- Settles O1: layer by layer, the decoder inverts the encoder's tables. -/
theorem decodeEncodeAgree : Obligations.DecodeEncodeAgree := by
  intro i
  cases i with
  | init | setPower | setContrast | setPolarity | fill | sync | setDebug | clear => exact decode_encode_hostOp rfl
  | sendCmdStream a p => exact decode_frame .command a p
  | sendDataStream a p => exact decode_frame .data a p
  | address a => exact decode_address a
  | controlCmdStream | controlDataStream | data => rfl
  | _ => exact decode_command_iff.2 rfl

/-- Settles O2: position by position, what is read determines every bit of the code. -/
theorem decodedIsEncoded : Obligations.DecodedIsEncoded := by
  intro c i h
  cases c with
  | request w => exact encode_of_decodeRequest h
  | frame written => exact encode_of_decodeFrame h
  | addressByte b =>
    obtain ⟨a, ha, rfl⟩ := except_map_eq_ok.1 h
    rw [encode, addressByte_of_decodeAddressByte ha]
  | controlByte b =>
    obtain ⟨kind, hk, rfl⟩ := except_map_eq_ok.1 h
    rw [← controlByte_of_decodeControlByte hk]
    cases kind <;> rfl
  | pixelByte b =>
    cases h
    rfl
  | command bytes => exact decode_command_iff.1 h

/-! ### The length rule (R57) -/

/-- A payload that begins with the bytes of a command is that command and what the rest of it parses into. -/
theorem decodeCommands_append {i : Instr} {bytes : List Byte} (h : CommandCode i bytes) (rest : List Byte) :
    decodeCommands (bytes ++ rest) = (decodeCommands rest).map (i :: ·) := by
  cases h with
  | twoByte h =>
    obtain ⟨hopener, -⟩ := opener_and_encode_of_decodeTwoByte h
    simp [decodeCommands, hopener, h]
  | oneByte h =>
    obtain ⟨hopener, -⟩ := opener_and_encode_of_decodeOneByte h
    cases rest with
    | nil => simp [decodeCommands, decodeCommand, hopener, h, Except.map]
    | cons d rest => simp [decodeCommands, hopener, h]

theorem commandCode_of_isCommand {i : Instr} (h : isCommand i = true) : CommandCode i (commandBytes i) := by
  rw [commandCode_iff]
  cases he : encode i with
  | command bytes => simp [commandBytes, he]
  | _ => simp [isCommand, commandBytes, he] at h

/-- Settles O5: by induction on the list, one command off the front of the payload at a time. -/
theorem commandPayloadParses : Obligations.CommandPayloadParses := by
  intro l hl
  induction l with
  | nil => rfl
  | cons i l ih =>
    rw [List.flatMap_cons, decodeCommands_append (commandCode_of_isCommand (hl i List.mem_cons_self)),
      ih fun j hj => hl j (List.mem_cons_of_mem i hj)]
    rfl

/-- Settles O6: INIT's payload is the bytes of `initCommands`, into which the length rule parses it. -/
theorem initPayloadParses : Obligations.InitPayloadParses := by
  refine ⟨rfl, initCommands, ?_, rfl, by decide, by decide⟩
  rw [initPayload_eq]
  exact commandPayloadParses initCommands (by decide)

/-! ### Sample words, and the address byte (R52) -/

/-- Settles O4: the decoder is run on each word. -/
theorem sampleWordsDecode : Obligations.SampleWordsDecode := by
  unfold Obligations.SampleWordsDecode
  decide

theorem toNat_addressByte (a : BusAddr) : (addressByte a).toNat = 2 * a.toNat := by
  revert a
  decide

theorem getLsbD_zero_addressByte (a : BusAddr) : (addressByte a).getLsbD 0 = false := by
  simp [addressByte]

/-- Settles O7: twice the bus address, which is even, and the head of the written bytes. -/
theorem addressByteForm : Obligations.AddressByteForm :=
  ⟨fun a => ⟨rfl, toNat_addressByte a, getLsbD_zero_addressByte a⟩, fun _ _ _ => rfl, rfl, rfl, rfl⟩

/-! ### The frames the host can make the block emit (R62) -/

/-- From s to t TRACE has gained nothing but listed frames, complete or cut by a failing call. -/
def EmitsListed (s t : State) : Prop :=
  ∃ ws : List (List Byte), (∀ w ∈ ws, EmittableFrame w) ∧
    (t.trace = s.trace ++ ws.flatMap frameTrace ∨ ∃ j, t.trace = s.trace ++ abortTrace ws j)

theorem emitsListed_of_trace_eq {s t : State} (h : t.trace = s.trace) : EmitsListed s t :=
  ⟨[], by simp, .inl (by simp [h])⟩

theorem finishOp_trace (op : BusOp) (s : State) : (finishOp op s).trace = s.trace := by
  cases op <;> rfl

theorem emittableFrame_command {p : List Byte} (a : BusAddr) (hp : EmittablePayload p) :
    EmittableFrame (frameBytes a .command p) := ⟨a, .inl ⟨p, hp, rfl⟩⟩

theorem emittablePayload_power (on : Bool) : EmittablePayload (powerPayload on) := by
  cases on <;> simp [EmittablePayload, powerPayload]

theorem emittablePayload_contrast (v : Byte) : EmittablePayload (contrastPayload v) := by
  simp [EmittablePayload, contrastPayload]

theorem emittablePayload_polarity (inv : Bool) : EmittablePayload (polarityPayload inv) := by
  cases inv <;> simp [EmittablePayload, polarityPayload]

theorem emittablePayload_address (pg : Nat) : EmittablePayload (addressPayload pg) := by
  simp [EmittablePayload, addressPayload]

/-- The two frames of a page are listed (R58, R62). -/
theorem emittableFrame_of_mem_pageFrames {a : BusAddr} {fb : Memory} {pg : Nat} {w : List Byte}
    (hw : w ∈ pageFrames a fb pg) : EmittableFrame w := by
  rw [pageFrames, List.mem_pair] at hw
  obtain rfl | rfl := hw
  · exact emittableFrame_command a (emittablePayload_address pg)
  · exact ⟨a, .inr ⟨_, length_pageBytes fb pg, rfl⟩⟩

/-- An operation of one listed command frame emits that frame, whole or cut. -/
theorem runOneFrame_emitsListed (op : BusOp) {p : List Byte} (hp : EmittablePayload p) {s : State}
    (ho : s.txnOpen = false) : EmitsListed s (runOneFrame op p s) := by
  refine ⟨[frameBytes (beginOp op s).busAddr .command p], ?_, ?_⟩
  · simpa using emittableFrame_command _ hp
  obtain hok | ⟨j, hj, hfail⟩ := allOk_or_failsAt s (p.length + 3)
  · obtain ⟨htrace, -⟩ := beginOp_calls op s
    exact .inl (by rw [runOneFrame_ok op p hok, finishOp_trace, afterFrame_trace, htrace]; simp)
  · obtain ⟨-, -, htrace⟩ := runOneFrame_fails op p hfail hj ho
    exact .inr ⟨j, htrace⟩

/-- SYNC's pages emit their frames, up to a failing call (R110, R114). -/
theorem syncPages_emitsListed (l : List Nat) {s : State} (ho : s.txnOpen = false) :
    EmitsListed s ((syncPages l (beginOp .sync s)).finish (finishOp .sync)) := by
  obtain ⟨htrace, -, -, -, -, -, htxn, -⟩ := beginOp_calls .sync s
  rw [← htxn] at ho
  rw [EmitsListed, ← htrace]
  generalize beginOp .sync s = u at ho ⊢
  refine ⟨l.flatMap (pageFrames u.busAddr u.fb), fun w hw => ?_, ?_⟩
  · obtain ⟨pg, -, hw⟩ := List.mem_flatMap.1 hw
    exact emittableFrame_of_mem_pageFrames hw
  obtain hok | ⟨j, hj, hfail⟩ := allOk_or_failsAt u (141 * l.length)
  · obtain ⟨t, hgo, -, ht⟩ := syncPages_ok l hok
    exact .inl (by rw [hgo, go_finish, finishOp_trace, ht])
  · obtain ⟨t, hstop, -, ht⟩ := syncPages_fails l hfail hj ho
    exact .inr ⟨j, by rw [hstop, stop_finish, ht]⟩

/-- A checked operation emits what it emits where it is run, and nothing where it is not (R156). -/
theorem whenIdle_whenReady_emitsListed {s t u : State} (ho : s.txnOpen = false) (ht : EmitsListed s t)
    (h : whenIdle s (whenReady s t) = .next u) : EmitsListed s u := by
  obtain rfl | rfl := whenIdle_whenReady_cases h
  · exact ht
  · exact emitsListed_of_trace_eq (by rw [raiseError_closed _ ho])

theorem fillWith_trace (p : Byte) (s : State) : (fillWith p s).trace = s.trace := by
  simp [fillWith]

/-- Settles O45: operation by operation; FILL, CLEAR and SET_DEBUG make no call. -/
theorem onlyListedFramesEmitted : Obligations.OnlyListedFramesEmitted := by
  intro i s t hi ho h
  cases i with
  | init a =>
    rw [exec_init_eq_next h]
    exact runOneFrame_emitsListed _ (.inl rfl) ho
  | setPower on => exact whenIdle_whenReady_emitsListed ho (runOneFrame_emitsListed _ (emittablePayload_power on) ho) h
  | setContrast v =>
    exact whenIdle_whenReady_emitsListed ho (runOneFrame_emitsListed _ (emittablePayload_contrast v) ho) h
  | setPolarity inv =>
    exact whenIdle_whenReady_emitsListed ho (runOneFrame_emitsListed _ (emittablePayload_polarity inv) ho) h
  | fill | clear => exact whenIdle_whenReady_emitsListed ho (emitsListed_of_trace_eq (fillWith_trace _ s)) h
  | sync => exact whenIdle_whenReady_emitsListed ho (syncPages_emitsListed _ ho) h
  | setDebug en =>
    obtain ⟨-, rfl⟩ := whenIdle_eq_next.1 h
    exact emitsListed_of_trace_eq rfl
  | _ => cases hi

end Sys2Proof.Machine

/-! SUPPORT. The frame primitives and the bytes of a frame under every answer of the Transport (40_encoder_framing.md R72
to R76): the complete frame, the open that fails, and the byte whose write fails. -/

namespace Sys2Proof.Machine

/-! ### Traces of cut frames (R75, R76) -/

/-- A cut frame, by its failing byte b: the bytes before it, the failed write, the close. -/
theorem cutTrace_of_getElem? {w : List Byte} {j : Nat} {b : Byte} (h : w[j]? = some b) :
    cutTrace w j = ((w.take j).map fun v => .wrote v .ok) ++ [.wrote b .fail, .closed] := by
  induction w generalizing j with
  | nil => cases h
  | cons v w ih =>
    cases j with
    | zero =>
      cases h
      rfl
    | succ j => exact congrArg (Event.wrote v .ok :: ·) (ih h)

theorem abortTrace_zero (w : List Byte) (rest : List (List Byte)) : abortTrace (w :: rest) 0 = [.opened .fail] := rfl

/-- Byte j of a frame is its call j + 1, after the open. -/
theorem abortTrace_succ {w : List Byte} {j : Nat} (h : j < w.length) (rest : List (List Byte)) :
    abortTrace (w :: rest) (j + 1) = .opened .ok :: cutTrace w j :=
  if_pos h

/-! ### The frame primitives (R72 to R76) -/

section Primitive

variable (kind : StreamKind) (p : List Byte) {s : State}

/-- Outside a transaction a primitive whose header carries BUS_ADDR makes the calls of the frame procedure. -/
theorem exec_frameInstr_busAddr (ho : s.txnOpen = false) :
    exec (frameInstr kind s.busAddr p) s = .next (sendStream kind p s).state := by
  rw [exec_frameInstr]
  exact whenFrameAllowed_eq_next.2 ⟨ho, rfl, rfl⟩

theorem exec_frameInstr_ok (ho : s.txnOpen = false) (hok : s.allOk (p.length + 3)) :
    exec (frameInstr kind s.busAddr p) s =
      .next (s.afterFrame (frameBytes s.busAddr kind p)
        (Controller.takeFrame s.calls kind p { s.ctl with rx := .off })) := by
  rw [exec_frameInstr_busAddr kind p ho, sendStream_ok kind p hok, go_state]

theorem exec_frameInstr_fails {j : Nat} (ho : s.txnOpen = false) (hj : j < p.length + 3) (hfail : s.failsAt j) :
    ∃ t, exec (frameInstr kind s.busAddr p) s = .next t ∧
      t.trace = s.trace ++ abortTrace [frameBytes s.busAddr kind p] j ∧ Aborted s t := by
  obtain ⟨t, hstop, ha, -, htrace⟩ := sendStream_fails kind p hfail hj ho
  exact ⟨t, by rw [exec_frameInstr_busAddr kind p ho, hstop, stop_state], htrace, ha⟩

end Primitive

/-- Settles O31: each primitive is the frame procedure, which sends its whole frame. -/
theorem framePrimitivesComplete : Obligations.FramePrimitivesComplete := fun p _ ho hok =>
  ⟨exec_frameInstr_ok .command p ho hok, exec_frameInstr_ok .data p ho hok⟩

/-- Settles O32: the open is the frame's call 0. -/
theorem openFailureEndsFrame : Obligations.OpenFailureEndsFrame := by
  intro kind p s ho hfail
  have h := exec_frameInstr_fails kind p ho (Nat.succ_pos _) (failsAt_zero.2 hfail)
  rwa [abortTrace_zero] at h

/-- Settles O33: byte j is the frame's call j + 1, and the trace of the cut frame is written out by its failing byte. -/
theorem writeFailureEndsFrame : Obligations.WriteFailureEndsFrame := by
  intro kind p s j ho hj hfail
  have hlen : j < (frameBytes s.busAddr kind p).length := hj
  have hbyte : (frameBytes s.busAddr kind p)[j]? = some (frameBytes s.busAddr kind p)[j] :=
    List.getElem?_eq_getElem hlen
  obtain ⟨t, hnext, htrace, ha⟩ := exec_frameInstr_fails kind p ho (Nat.succ_lt_succ hj) hfail
  rw [abortTrace_succ hlen, cutTrace_of_getElem? hbyte] at htrace
  refine ⟨t, _, hnext, hbyte, ?_, ha⟩
  rw [htrace, List.append_assoc]
  rfl

/-! ### The bytes of a frame, one instruction at a time (R76, R162) -/

/-- The calls x, made from s to write the bytes w, end at the first of them that fails: TRACE has gained the bytes cut
there, and the operation has ended with TRANSPORT_ERROR. -/
def Flow.CutAtFailure (s : State) (w : List Byte) (x : Flow) : Prop :=
  ∀ j, j < w.length → s.failsAt j →
    ∃ t, x = .stop t ∧ t.trace = s.trace ++ cutTrace w j ∧ t.ctl.rx = .off ∧ Aborted s t

theorem transportWrite_cutAtFailure (b : Byte) (take : Nat → Controller → Controller) {s : State}
    (ho : s.txnOpen = true) : (transportWrite b take s).CutAtFailure s [b] := by
  intro j hj hfail
  obtain rfl : j = 0 := Nat.lt_one_iff.1 hj
  obtain ⟨t, hstop, ha, hx, htrace⟩ := transportWrite_aborts b take (failsAt_zero.1 hfail) ho
  exact ⟨t, hstop, htrace, hx, ha⟩

theorem writePayloads_cutAtFailure (w : List Byte) {s : State} (ho : s.txnOpen = true) :
    (writePayloads w s).CutAtFailure s w := by
  intro j hj hfail
  obtain ⟨t, hstop, ha, hx, htrace⟩ := writePayloads_fails w hfail hj ho
  exact ⟨t, hstop, htrace, hx, ha⟩

/-- Inside a transaction an instruction of layer C makes the writes of its bytes behind the check of its place: the
header bytes and the pixel byte one write each, a command one for each of its bytes. -/
theorem exec_byteRow_cutAtFailure {i : Instr} {w : List Byte} {rx : Rx} {s : State} (hrow : byteRow i = some (w, rx))
    (ho : s.txnOpen = true) (ha : ∀ a, i = .address a → a = s.busAddr) :
    ∃ x : Flow, exec i s = whenByteAt rx s x.state ∧ x.CutAtFailure s w := by
  cases i with
  | init | setPower | setContrast | setPolarity | fill | sync | setDebug | clear | sendCmdStream | sendDataStream =>
    cases hrow
  | address a =>
    cases hrow
    obtain rfl := ha a rfl
    exact ⟨_, execAddress_eq_whenByteAt fun _ => rfl, transportWrite_cutAtFailure _ _ ho⟩
  | controlCmdStream | controlDataStream | data =>
    cases hrow
    exact ⟨_, rfl, transportWrite_cutAtFailure _ _ ho⟩
  | _ =>
    cases hrow
    exact ⟨_, rfl, writePayloads_cutAtFailure _ ho⟩

/-- Settles O39: in its own place the instruction makes its writes, which end at the one that fails. -/
theorem byteFailureEndsOperation : Obligations.ByteFailureEndsOperation := by
  intro i w rx s j hrow ho hx ha hj hfail
  obtain ⟨x, hexec, hcut⟩ := exec_byteRow_cutAtFailure hrow ho ha
  obtain ⟨t, hstop, ht⟩ := hcut j hj hfail
  exact ⟨t, hexec.trans (whenByteAt_eq_next.2 ⟨ho, hx, by rw [hstop, stop_state]⟩), ht⟩

end Sys2Proof.Machine

/-! SUPPORT. INIT (41_init.md R85 to R91): the address it is refused with, what it writes before its first call, and how
it ends under every answer of the Transport. -/

namespace Sys2Proof.Machine

/-- A byte of a framebuffer built all at once. -/
theorem fbRead_tabulate (f : Nat → Byte) {i : Nat} (hi : i ≤ 1055) : fbRead (Memory.tabulate f) i = f i := by
  have hlt : i < Config.fbSize := Nat.lt_succ_of_le hi
  rw [fbRead, Memory.read_tabulate, if_pos hlt, Option.getD_some]

/-- Before its first call INIT unbinds MODE, binds its operand and zero-fills FB (R85, R88, R90). -/
theorem beginOp_init (a : BusAddr) (s : State) :
    beginOp (.init a) s =
      { s with mode := .uninitialized, busAddr := a, fb := Memory.tabulate fun _ => 0x00,
               dbg := (s.notify .init).dbg, seq := .running (.init a) 0 0 } := by
  simp only [beginOp, startOp, notify_eq]

/-- What MODE was does not matter to INIT once it is served, for it unbinds MODE first (R85). -/
theorem runOneFrame_init_mode (a : BusAddr) (p : List Byte) (s : State) (m : Mode) :
    runOneFrame (.init a) p { s with mode := m } = runOneFrame (.init a) p s := by
  have hbegin : beginOp (.init a) { s with mode := m } = beginOp (.init a) s := by
    simp only [beginOp_init, notify_dbg]
  rw [runOneFrame, runOneFrame, hbegin]

/-- The written bytes of INIT's one frame (R86). -/
theorem frameBytes_init (a : BusAddr) :
    frameBytes a .command initPayload =
      [addressByte a, 0x00, 0xAE, 0x02, 0x10, 0xB0, 0xC0, 0x00, 0x10, 0x40, 0x81, 0x7F, 0xA1, 0xA6,
       0xA8, 0x3F, 0xA4, 0xD3, 0x00, 0xD5, 0xF0, 0xD9, 0x22, 0xDA, 0x12, 0xDB, 0x20, 0x8D, 0x14, 0xAF] := rfl

/-- Settles O17: the check of R89 is the first thing INIT does with SEQ Idle. -/
theorem initOtherAddressRefused : Obligations.InitOtherAddressRefused := by
  intro a s hs hm ha
  have hadm : s.admitsInit a = false := by simp [State.admitsInit, hm, ha.symm]
  have hidle : s.isIdle = true := by simp [State.isIdle, hs]
  simp [exec, execInit, hadm, hidle]

/-- Settles O18: with SEQ Idle both are served and run the same operation, with SEQ busy both are refused. -/
theorem repeatedInitIsFirstInit : Obligations.RepeatedInitIsFirstInit := by
  intro s
  by_cases hs : s.seq = .idle
  · rw [execInit_served hs (.inr rfl), execInit_served (s := { s with mode := .uninitialized }) hs (.inl rfl),
      runOneFrame_init_mode s.busAddr initPayload s .uninitialized]
  · exact (execInit_busy s.busAddr hs).trans
      (execInit_busy (s := { s with mode := .uninitialized }) s.busAddr hs).symm

/-- Settles O15: INIT is served, its frame of 31 calls completes, and the controller has taken the twenty commands. -/
theorem initCompletes : Obligations.InitCompletes := by
  intro a s hs ha hok
  refine ⟨?_, fun i hi => fbRead_tabulate _ hi⟩
  obtain ⟨hcram, hcpage⟩ := takeFrame_init s.calls { s.ctl with rx := .off }
  have hlen : (frameBytes a .command initPayload).length = 30 := rfl
  rw [execInit_served hs ha, runOneFrame_ok (.init a) initPayload hok, beginOp_init, ← frameBytes_init]
  simp only [finishOp, State.respond, State.afterFrame, hcram, hcpage, hlen, Nat.reduceAdd, hs]

/-- Settles O16: INIT is served, and its frame ends at the failing call with the registers as INIT had written them. -/
theorem initFails : Obligations.InitFails := by
  intro a s j hs ha ho hj hfail
  obtain ⟨-, hab, htrace⟩ := runOneFrame_fails (.init a) initPayload hfail hj ho
  have hcram : (runOneFrame (.init a) initPayload s).ctl.cram = s.ctl.cram := runOneFrame_cram (by simp) _ s
  obtain ⟨⟨hmode, haddr, hdebug, hfb, hdbg, hreq, hport⟩, hresp, hseq, htxn⟩ := hab
  simp only [beginOp_init] at hmode haddr hdebug hfb hdbg hreq hport hresp htrace
  exact ⟨_, execInit_served hs ha, hmode, haddr, hfb, hdebug, htxn, hseq, hresp, htrace, hcram, hreq, hdbg, hport⟩

/-- Settles O43: whatever the Transport answers, the calls keep the registers INIT has written; MODE becomes Ready with
the response OK after the last of them, and an error raised before leaves MODE unbound. -/
theorem initModes : Obligations.InitModes := by
  intro a s t h
  obtain rfl := exec_init_eq_next h
  have htame := sendStream_tame .command initPayload (beginOp (.init a) s)
  rw [runOneFrame]
  cases hx : sendStream .command initPayload (beginOp (.init a) s) <;> rw [hx] at htame
  case go u =>
    obtain ⟨⟨-, haddr, -, hfb, -, -, -⟩, hresp⟩ := htame
    simp only [beginOp_init] at haddr hfb hresp
    exact ⟨haddr, hfb, .inl ⟨rfl, by simp [finishOp, hresp]⟩⟩
  case stop u =>
    obtain ⟨⟨hmode, haddr, -, hfb, -, -, -⟩, hresp, -, -⟩ := htame
    simp only [beginOp_init] at hmode haddr hfb hresp
    exact ⟨haddr, hfb, .inr ⟨hmode, hresp⟩⟩

end Sys2Proof.Machine

/-! SUPPORT. The controls (42_controls.md R95 to R99): what a frame of opaque commands leaves of the controller, whole or
cut, and how an operation of one such frame ends. -/

namespace Sys2Proof.Machine

/-! ### A controller but for its place in the frame -/

/-- The controller with its place in the frame forgotten: image and cursor (R21) are what is compared. -/
def Controller.contents (c : Controller) : Controller := { c with rx := .off }

theorem eq_of_contents_eq {c d : Controller} (h : d.contents = c.contents) : d = { c with rx := d.rx } :=
  congrArg (fun e : Controller => { e with rx := d.rx }) h

theorem raiseError_contents (e : Response) (s : State) : (raiseError e s).ctl.contents = s.ctl.contents := by
  cases h : s.txnOpen
  · rw [raiseError_closed e h]
  · rw [raiseError_open e h]
    rfl

/-- However many bytes of the payload a command frame has delivered, the controller's image and cursor are as before:
the commands are opaque (R148), and the data byte of one is no command (R57). -/
def OpaquePayload (p : List Byte) : Prop :=
  ∀ (n k : Nat) (c : Controller), Controller.takeFrame n .command (p.take k) c = c.contents

/-- So with all its bytes delivered. -/
theorem OpaquePayload.takeFrame {p : List Byte} (hp : OpaquePayload p) (n : Nat) (c : Controller) :
    Controller.takeFrame n .command p c = c.contents := by
  simpa only [List.take_length] using hp n p.length c

/-- A payload of one byte is delivered whole or not at all. -/
theorem opaquePayload_singleton {b : Byte}
    (h : ∀ n c, Controller.takeFrame n .command [b] c = Controller.contents c) : OpaquePayload [b] := by
  intro n k c
  cases k with
  | zero => rfl
  | succ k =>
    rw [List.take_of_length_le (Nat.le_add_left 1 k)]
    exact h n c

theorem opaquePayload_power (on : Bool) : OpaquePayload (powerPayload on) :=
  opaquePayload_singleton fun n c => takeFrame_power n on c

theorem opaquePayload_polarity (inv : Bool) : OpaquePayload (polarityPayload inv) :=
  opaquePayload_singleton fun n c => takeFrame_polarity n inv c

/-- With the opener alone delivered the controller waits for the data byte, and has moved nothing else (R57). -/
theorem opaquePayload_contrast (v : Byte) : OpaquePayload (contrastPayload v) := by
  intro n k c
  match k with
  | 0 | 1 => rfl
  | k + 2 =>
    rw [List.take_of_length_le (Nat.le_add_left 2 k)]
    exact takeFrame_contrast n v c

/-! ### A failing call of a control (R75, R76, R99) -/

@[simp] theorem isControl_nextCall (q : Sequencer) : q.nextCall.isControl = q.isControl := by
  rcases q with _ | ⟨op, f, k⟩
  · rfl
  · cases op <;> rfl

@[simp] theorem isControl_advance (q : Sequencer) (n : Nat) : (q.advance n).isControl = q.isControl := by
  rcases q with _ | ⟨op, f, k⟩
  · rfl
  · cases op <;> rfl

theorem transportOpen_eq_go {s t : State} (h : transportOpen s = .go t) : t = s.afterOpen := by
  cases hr : s.resultAhead 0
  · rw [transportOpen_ok hr] at h
    cases h
    rfl
  · rw [transportOpen_fail hr] at h
    cases h

theorem transportOpen_stop_contents {s t : State} (hq : s.seq.isControl = true) (h : transportOpen s = .stop t) :
    t.ctl.contents = s.ctl.contents := by
  cases hr : s.resultAhead 0
  · rw [transportOpen_ok hr] at h
    cases h
  · rw [transportOpen_fail hr, loseImageOfSync_of_notSync (by simpa using notSync_of_control hq)] at h
    cases h
    exact raiseError_contents _ _

theorem transportWrite_stop_contents {b : Byte} {take : Nat → Controller → Controller} {s t : State}
    (hq : s.seq.isControl = true) (hx : s.ctl.rx ≠ .data) (h : transportWrite b take s = .stop t) :
    t.ctl.contents = s.ctl.contents := by
  cases hr : s.resultAhead 0
  · rw [transportWrite_ok hr] at h
    cases h
  · obtain ⟨_, hctl⟩ := transportWrite_fail_control b take hr hq hx
    rw [h, stop_state] at hctl
    rw [hctl]
    rfl

/-- The failing byte loses nothing, and the bytes delivered before it moved nothing. -/
theorem writePayloads_stop_contents (p : List Byte) {s t : State} (hq : s.seq.isControl = true)
    (hx : s.ctl.rx = .command ∨ s.ctl.rx = .operand)
    (hp : ∀ k, (Controller.takePayloads s.calls (p.take k) s.ctl).contents = s.ctl.contents)
    (h : writePayloads p s = .stop t) : t.ctl.contents = s.ctl.contents := by
  induction p generalizing s with
  | nil => cases h
  | cons b p ih =>
    have hb : (s.ctl.takePayload s.calls b).contents = s.ctl.contents := hp 1
    obtain h | ⟨u, hu, h⟩ := andThen_eq_stop h
    · exact transportWrite_stop_contents hq (by rcases hx with hx | hx <;> simp [hx]) h
    · obtain rfl := transportWrite_eq_go hu
      have hx' := (takePayload_command_cram s.calls b hx).2
      exact (ih (by simpa using hq) hx' (fun k => (hp (k + 1)).trans hb.symm) h).trans hb

/-- A cut frame of opaque commands that a control has sent leaves the controller's image and cursor as they were,
whichever call failed: the open, the address byte, the control byte or a payload byte. -/
theorem sendStream_stop_contents {p : List Byte} (hp : OpaquePayload p) {s t : State} (hq : s.seq.isControl = true)
    (h : sendStream .command p s = .stop t) : t.ctl.contents = s.ctl.contents := by
  obtain h | ⟨_, hopen, hbody⟩ := andThen_eq_stop h
  · exact transportOpen_stop_contents hq h
  obtain rfl := transportOpen_eq_go hopen
  have hbytes := (andThen_eq_stop hbody).resolve_right (by rintro ⟨_, -, hclose⟩; cases hclose)
  obtain hheader | ⟨_, hheader, hpayload⟩ := andThen_eq_stop hbytes
  · obtain haddress | ⟨_, haddress, hcontrol⟩ := andThen_eq_stop hheader
    · exact (transportWrite_stop_contents (by simpa using hq) (by simp) haddress).trans rfl
    · obtain rfl := transportWrite_eq_go haddress
      exact (transportWrite_stop_contents (by simpa using hq) (by simp [Controller.takeAddress]) hcontrol).trans rfl
  · obtain ⟨_, haddress, hcontrol⟩ := andThen_eq_go hheader
    obtain rfl := transportWrite_eq_go haddress
    obtain rfl := transportWrite_eq_go hcontrol
    exact (writePayloads_stop_contents p (by simpa using hq) (.inl rfl) (by exact fun k => hp s.calls k s.ctl)
      hpayload).trans rfl

/-! ### A control from its beginning to its end -/

section Control

variable {op : BusOp} (hop : (Sequencer.running op 0 0).isControl = true)
include hop

/-- Before its first call a control notes its trace event and starts SEQ, no more (R121, R16). -/
theorem beginOp_control (s : State) :
    beginOp op s = { s with seq := .running op 0 0, dbg := (beginOp op s).dbg } := by
  cases op with
  | setPower | setContrast | setPolarity => simp only [beginOp, startOp, notify_eq]
  | init | sync | stream => cases hop

theorem finishOp_control (s : State) :
    finishOp op s = { s with seq := .idle, responses := s.responses ++ [.ok] } := by
  cases op with
  | setPower | setContrast | setPolarity => rfl
  | init | sync | stream => cases hop

/-- A control with every result Ok (R95 to R98): its one frame, the response OK, and nothing of the controller's image
and cursor. -/
theorem runOneFrame_control_ok {p : List Byte} (hp : OpaquePayload p) {s : State} (hs : s.seq = .idle)
    (hok : s.allOk (p.length + 3)) :
    runOneFrame op p s =
      { s with txnOpen := false, dbg := (beginOp op s).dbg, draws := s.draws.drop (p.length + 3),
               calls := s.calls + (p.length + 3), responses := s.responses ++ [.ok],
               trace := s.trace ++ frameTrace (frameBytes s.busAddr .command p),
               ctl := { s.ctl with rx := .off } } := by
  rw [runOneFrame_ok op p hok, finishOp_control hop, hp.takeFrame, beginOp_control hop]
  simp only [State.afterFrame, Controller.contents, frameBytes, List.length_cons, hs]

/-- A control in which some result fails leaves the controller's image and cursor as they were (R99, R148). -/
theorem runOneFrame_control_fails_contents {p : List Byte} (hp : OpaquePayload p) {s : State} {j : Nat}
    (hj : j < p.length + 3) (ho : s.txnOpen = false) (hfail : s.failsAt j) :
    (runOneFrame op p s).ctl.contents = s.ctl.contents := by
  obtain ⟨hstop, -, -⟩ := runOneFrame_fails op p hfail hj ho
  rw [sendStream_stop_contents hp (by rw [beginOp_seq]; exact hop) hstop, beginOp_control hop]

end Control

/-- Settles O19: SET_POWER is served, and its frame of opaque commands completes. -/
theorem setPowerCompletes : Obligations.SetPowerCompletes := fun on _ hs hm hok =>
  (whenIdle_whenReady_served _ hs hm).trans
    (congrArg Host.Outcome.next (runOneFrame_control_ok rfl (opaquePayload_power on) hs hok))

/-- Settles O20: SET_CONTRAST is served, and its frame of opaque commands completes, whatever the value. -/
theorem setContrastCompletes : Obligations.SetContrastCompletes := fun v _ hs hm hok =>
  (whenIdle_whenReady_served _ hs hm).trans
    (congrArg Host.Outcome.next (runOneFrame_control_ok rfl (opaquePayload_contrast v) hs hok))

/-- Settles O21: SET_POLARITY is served, and its frame of opaque commands completes. -/
theorem setPolarityCompletes : Obligations.SetPolarityCompletes := fun inv _ hs hm hok =>
  (whenIdle_whenReady_served _ hs hm).trans
    (congrArg Host.Outcome.next (runOneFrame_control_ok rfl (opaquePayload_polarity inv) hs hok))

/-- Settles O22: the three controls are one operation, a frame of opaque commands behind the check of R156; the frame
ends at the failing call, with the registers, the inputs and the controller's contents as before. -/
theorem controlFails : Obligations.ControlFails := by
  intro i p s j hi hs hm ho hj hfail
  obtain ⟨op, hop, hp, hexec⟩ : ∃ op, (Sequencer.running op 0 0).isControl = true ∧ OpaquePayload p ∧
      exec i s = whenIdle s (whenReady s (runOneFrame op p s)) := by
    rcases hi with ⟨on, rfl, rfl⟩ | ⟨v, rfl, rfl⟩ | ⟨inv, rfl, rfl⟩
    · exact ⟨.setPower on, rfl, opaquePayload_power on, rfl⟩
    · exact ⟨.setContrast v, rfl, opaquePayload_contrast v, rfl⟩
    · exact ⟨.setPolarity inv, rfl, opaquePayload_polarity inv, rfl⟩
  have hctl := eq_of_contents_eq (runOneFrame_control_fails_contents hop hp hj ho hfail)
  obtain ⟨-, hab, htrace⟩ := runOneFrame_fails op p hfail hj ho
  obtain ⟨⟨hmode, haddr, hdebug, hfb, -, hreq, hport⟩, hresp, hseq, htxn⟩ := hab
  rw [beginOp_control hop] at hmode haddr hdebug hfb hreq hport hresp htrace
  exact ⟨_, hexec.trans (whenIdle_whenReady_served _ hs hm), hmode.trans hm, hfb, haddr, hdebug, htxn, hseq, hresp,
    htrace, hctl, hreq, hport⟩

end Sys2Proof.Machine

/-! SUPPORT. The framebuffer operations (43_framebuffer.md R105 to R107): FILL and CLEAR, and the write port where it is
fitted. -/

namespace Sys2Proof.Machine

/-! ### The check of R156 before INIT -/

theorem whenIdle_whenReady_unready {s : State} (t : State) (hs : s.seq = .idle) (ho : s.txnOpen = false)
    (hm : s.mode = .uninitialized) :
    whenIdle s (whenReady s t) = .next { s with responses := s.responses ++ [.configurationError] } := by
  rw [whenIdle_idle _ hs, whenReady_uninitialized _ hm, raiseError_closed _ ho, ← hs]

/-! ### FILL and CLEAR (R105, R106) -/

/-- FILL makes no call: it writes FB, the notice and the response (R105). -/
theorem fillWith_eq (p : Byte) (s : State) :
    fillWith p s = { s with fb := Memory.tabulate fun _ => p, dbg := (s.notify (.fill p)).dbg,
                            responses := s.responses ++ [.ok] } := by
  simp only [fillWith, State.respond, notify_eq]

theorem execFill_served (p : Byte) {s : State} (hs : s.seq = .idle) (hm : s.mode = .ready) :
    exec (.fill p) s =
      .next { s with fb := Memory.tabulate fun _ => p, dbg := (s.notify (.fill p)).dbg,
                     responses := s.responses ++ [.ok] } :=
  (whenIdle_whenReady_served _ hs hm).trans (congrArg Host.Outcome.next (fillWith_eq p s))

theorem execClear_eq_execFill (s : State) : exec .clear s = exec (.fill 0x00) s := rfl

/-- Settles O24: FILL behind the two checks; CLEAR is FILL 0x00, and FB is then what INIT has written (`initModes`). -/
theorem fillCompletes : Obligations.FillCompletes := by
  refine ⟨fun p s hs hm => ⟨execFill_served p hs hm, ?_⟩, fun p => ⟨Memory.length_tabulate _, ?_⟩,
    fun p s hs ho hm => whenIdle_whenReady_unready _ hs ho hm, execClear_eq_execFill, ?_⟩
  · rw [execClear_eq_execFill, execFill_served 0x00 hs hm]
  · exact fun i hi => fbRead_tabulate _ hi
  · intro a s t hinit _
    obtain ⟨-, hfb, -⟩ := initModes a s t hinit
    exact hfb

/-! ### The write port (R107) -/

theorem fbRead_write_same (fb : Memory) (i : Nat) (b : Byte) : fbRead (fb.write i b) i = b := by
  rw [fbRead, Memory.read_write_same, Option.getD_some]

theorem fbRead_write_other (fb : Memory) {i j : Nat} (b : Byte) (h : j ≠ i) :
    fbRead (fb.write i b) j = fbRead fb j := by
  rw [fbRead, fbRead, Memory.read_write_other fb b h]

/-- With SEQ Idle a byte at the head of the host's inputs is taken and given to the port. -/
theorem step_fbWrite {s : State} {i : BitVec 11} {b : Byte} {rest : List Input} (hs : s.seq = .idle)
    (hreq : s.requests = .fbWrite i b :: rest) : step s = externalWrite i b { s with requests := rest } := by
  have hfetch : fetch s = .fbByte i b := by simp only [fetch, hs, hreq, fetchInput]
  have htake : takeInput s = { s with requests := rest } := by simp [takeInput, hs, hreq]
  simp only [step, hfetch, htake]

theorem externalWrite_inRange {s : State} {i : BitVec 11} (b : Byte) (hport : s.fbWritePort = true)
    (hi : i.toNat ≤ 1055) :
    externalWrite i b s = whenIdle s (whenReady s ({ s with fb := s.fb.write i.toNat b }.respond .ok)) := by
  have hlt : ¬ Config.fbSize ≤ i.toNat := Nat.not_le_of_lt (Nat.lt_succ_of_le hi)
  simp [externalWrite, hport, hlt]

theorem externalWrite_ready {s : State} {i : BitVec 11} (b : Byte) (hs : s.seq = .idle) (hport : s.fbWritePort = true)
    (hi : i.toNat ≤ 1055) (hm : s.mode = .ready) :
    externalWrite i b s = .next { s with fb := s.fb.write i.toNat b, responses := s.responses ++ [.ok] } :=
  (externalWrite_inRange b hport hi).trans (whenIdle_whenReady_served _ hs hm)

theorem externalWrite_unready {s : State} {i : BitVec 11} (b : Byte) (hs : s.seq = .idle) (ho : s.txnOpen = false)
    (hport : s.fbWritePort = true) (hi : i.toNat ≤ 1055) (hm : s.mode = .uninitialized) :
    externalWrite i b s = .next { s with responses := s.responses ++ [.configurationError] } :=
  (externalWrite_inRange b hport hi).trans (whenIdle_whenReady_unready _ hs ho hm)

theorem externalWrite_outOfRange {s : State} {i : BitVec 11} (b : Byte) (hport : s.fbWritePort = true)
    (hi : 1055 < i.toNat) : externalWrite i b s = .refused .fbIndexOutOfRange := by
  have hle : Config.fbSize ≤ i.toNat := hi
  simp [externalWrite, hport, hle]

/-- Settles O25: the step gives the byte to the port, which checks the index and then serves it as any checked
operation is served. -/
theorem externalWritePort : Obligations.ExternalWritePort := by
  intro s i b rest hs ho hreq hport
  rw [step_fbWrite hs hreq]
  refine ⟨fun hi hm => ⟨?_, fbRead_write_same _ _ _, fun j hj => fbRead_write_other _ _ hj⟩, ?_, ?_⟩
  · exact externalWrite_ready b hs hport hi hm
  · exact fun hi hm => externalWrite_unready b hs ho hport hi hm
  · exact externalWrite_outOfRange b hport

end Sys2Proof.Machine

/-! SUPPORT. SYNC (44_sync.md R110 to R116): the sixteen frames written out, with their counts, and the operation
whole or ended by a failing call. -/

namespace Sys2Proof.Machine

/-! ### The sixteen frames (R111 to R113) -/

theorem pageAddressByte_ofNat : ∀ pg < 8, pageAddressByte (BitVec.ofNat 3 pg) = BitVec.ofNat 8 (0xB0 + pg) := by
  decide

theorem pageFrames_eq (a : BusAddr) (fb : Memory) {pg : Nat} (hpg : pg ∈ List.range 8) :
    pageFrames a fb pg =
      [[addressByte a, 0x00, 0x00, 0x10, BitVec.ofNat 8 (0xB0 + pg)],
       addressByte a :: 0x40 :: (List.range 132).map fun col => fbRead fb (pg * 132 + col)] := by
  rw [← pageAddressByte_ofNat pg (List.mem_range.1 hpg)]
  rfl

/-- The written bytes of every frame of SYNC, in order. -/
def syncFrames (a : BusAddr) (fb : Memory) : List (List Byte) := (List.range 8).flatMap (pageFrames a fb)

theorem syncFrames_eq (a : BusAddr) (fb : Memory) :
    syncFrames a fb = (List.range 8).flatMap fun pg =>
      [[addressByte a, 0x00, 0x00, 0x10, BitVec.ofNat 8 (0xB0 + pg)],
       addressByte a :: 0x40 :: (List.range 132).map fun col => fbRead fb (pg * 132 + col)] :=
  List.flatMap_congr fun _ hpg => pageFrames_eq a fb hpg

theorem length_syncFrames (a : BusAddr) (fb : Memory) : (syncFrames a fb).length = 16 := rfl

/-- The lengths of the frames, page by page: an address frame of 5 written bytes, a data frame of 134. -/
theorem map_length_syncFrames (a : BusAddr) (fb : Memory) :
    (syncFrames a fb).map List.length = (List.range 8).flatMap fun _ => [5, 134] := by
  simp [syncFrames, List.map_flatMap, pageFrames, frameBytes]

/-! ### Counting the events of complete frames (R79, R113) -/

theorem countOpens_frameTrace (w : List Byte) : countOpens (frameTrace w) = 1 := by
  simp [countOpens, frameTrace, List.countP_map, Function.comp_def]

theorem countWrites_frameTrace (w : List Byte) : countWrites (frameTrace w) = w.length := by
  simp [countWrites, frameTrace, List.countP_map, Function.comp_def]

theorem countCloses_frameTrace (w : List Byte) : countCloses (frameTrace w) = 1 := by
  simp [countCloses, frameTrace, List.countP_map, Function.comp_def]

theorem countOpens_flatMap_frameTrace (ws : List (List Byte)) : countOpens (ws.flatMap frameTrace) = ws.length := by
  have hsum : countOpens (ws.flatMap frameTrace) = (ws.map fun w => countOpens (frameTrace w)).sum :=
    List.countP_flatMap
  simp [hsum, countOpens_frameTrace]

theorem countWrites_flatMap_frameTrace (ws : List (List Byte)) :
    countWrites (ws.flatMap frameTrace) = (ws.map List.length).sum := by
  have hsum : countWrites (ws.flatMap frameTrace) = (ws.map fun w => countWrites (frameTrace w)).sum :=
    List.countP_flatMap
  simp only [hsum, countWrites_frameTrace]

theorem countCloses_flatMap_frameTrace (ws : List (List Byte)) : countCloses (ws.flatMap frameTrace) = ws.length := by
  have hsum : countCloses (ws.flatMap frameTrace) = (ws.map fun w => countCloses (frameTrace w)).sum :=
    List.countP_flatMap
  simp [hsum, countCloses_frameTrace]

/-! ### SYNC with SEQ Idle in Ready (R110, R114, R116) -/

section Sync

variable {s : State} (hs : s.seq = .idle) (hm : s.mode = .ready)

/-- Before its first call SYNC notes its trace event and starts SEQ, no more (R121, R16). -/
theorem beginOp_sync (s : State) :
    beginOp .sync s = { s with seq := .running .sync 0 0, dbg := (s.notify .sync).dbg } := by
  simp only [beginOp, startOp, notify_eq]

include hs hm

theorem exec_sync_served :
    exec .sync s = .next ((syncPages (List.range 8) (beginOp .sync s)).finish (finishOp .sync)) :=
  whenIdle_whenReady_served _ hs hm

/-- SYNC with every result Ok: its frames in TRACE, the response OK, and the controller the pages have left. -/
theorem exec_sync_ok (hok : s.allOk 1128) :
    ∃ t, syncPages (List.range 8) (beginOp .sync s) = .go t ∧
      exec .sync s =
        .next { s with txnOpen := false, dbg := (s.notify .sync).dbg, draws := s.draws.drop 1128,
                       calls := s.calls + 1128, responses := s.responses ++ [.ok],
                       trace := s.trace ++ (syncFrames s.busAddr s.fb).flatMap frameTrace, ctl := t.ctl } := by
  obtain ⟨t, hgo, hclosed, ht⟩ := syncPages_ok (List.range 8) ((beginOp_allOk .sync).2 hok)
  obtain ⟨htxn, -⟩ := hclosed (by decide)
  refine ⟨t, hgo, ?_⟩
  rw [exec_sync_served hs hm, hgo, go_finish, ht, htxn, beginOp_sync]
  simp [finishOp, State.respond, syncFrames, hs]

/-- SYNC in which the call j ahead fails: its frames in TRACE up to that call, and the error. -/
theorem exec_sync_fails {j : Nat} (ho : s.txnOpen = false) (hj : j < 1128) (hfail : s.failsAt j) :
    ∃ t, exec .sync s = .next t ∧ Aborted (beginOp .sync s) t ∧
      t.trace = s.trace ++ abortTrace (syncFrames s.busAddr s.fb) j := by
  have hopen : (beginOp .sync s).txnOpen = false := by rw [beginOp_sync, ho]
  obtain ⟨t, hstop, hab, htrace⟩ := syncPages_fails (List.range 8) ((beginOp_failsAt .sync).2 hfail) hj hopen
  refine ⟨t, by rw [exec_sync_served hs hm, hstop, stop_finish], hab, ?_⟩
  rw [htrace, beginOp_sync, syncFrames]

end Sync

/-- Settles O26: SYNC is served and its pages complete; the trace is the sixteen frames written out, and each frame
counts one open, its bytes and one close. -/
theorem syncCompletes : Obligations.SyncCompletes := by
  intro s hs hm hok
  obtain ⟨t, -, hexec⟩ := exec_sync_ok hs hm hok
  refine ⟨t.ctl, _, hexec, ?_, ?_, ?_, ?_⟩
  · rw [syncFrames_eq, List.flatMap_assoc]
    simp only [List.flatMap_cons, List.flatMap_nil, List.append_nil]
  · rw [countOpens_flatMap_frameTrace, length_syncFrames]
  · rw [countWrites_flatMap_frameTrace, map_length_syncFrames]
    rfl
  · rw [countCloses_flatMap_frameTrace, length_syncFrames]

/-- Settles O27: the pages sent are all eight, each is the framebuffer's, and the cursor is past the last of them. -/
theorem syncMirrorsFramebuffer : Obligations.SyncMirrorsFramebuffer := by
  intro s hs hm hok
  obtain ⟨t, hgo, hexec⟩ := exec_sync_ok hs hm hok
  obtain ⟨hcursor, hcells, hrest⟩ := syncPages_controller (List.range 8) (fun _ => List.mem_range.1)
    ((beginOp_allOk .sync).2 hok) hgo
  simp only [beginOp_sync] at hcells hrest
  obtain ⟨hcpage, hccol⟩ := hcursor 7 rfl
  refine ⟨_, hexec, hcpage, hccol, fun pg col hpg hcol => ?_, hrest⟩
  have hmem : pg ∈ List.range 8 := List.mem_range.2 (Nat.lt_succ_of_le hpg)
  exact (hcells pg col (Nat.lt_succ_of_le hcol)).trans (if_pos hmem)

/-- Settles O28: SYNC is served, its frames end at the failing call, and the error keeps registers and inputs. -/
theorem syncFails : Obligations.SyncFails := by
  intro s j hs hm ho hj hfail
  obtain ⟨t, hexec, hab, htrace⟩ := exec_sync_fails hs hm ho hj hfail
  obtain ⟨⟨hmode, haddr, hdebug, hfb, hdbg, hreq, hport⟩, hresp, hseq, htxn⟩ := hab
  rw [beginOp_sync] at hmode haddr hdebug hfb hdbg hreq hport hresp
  rw [syncFrames_eq] at htrace
  exact ⟨t, hexec, hmode.trans hm, hfb, haddr, hdebug, htxn, hseq, hresp, htrace, hreq, hdbg, hport⟩

end Sys2Proof.Machine

/-! SUPPORT. SET_DEBUG and the debug hook (R120 to R122): an instruction run from the state without
its debug state ends as it does with it, up to the debug state. -/

namespace Sys2Proof.Machine

/-! ### SET_DEBUG (R120) -/

/-- Settles O29: SET_DEBUG has no check but that of SEQ; the other instructions by the rule on who writes DEBUG_EN. -/
theorem setDebugCompletes : Obligations.SetDebugCompletes := by
  refine ⟨fun en s hs => whenIdle_idle _ hs, fun i s t hi h => ?_⟩
  obtain ⟨-, hdebug, -⟩ := registerWriters i s t h
  exact hdebug hi

/-! ### The debug state forgotten

DEBUG_EN off and DBG empty is the one debug state that a notice does not touch (R121), so that every operation but
SET_DEBUG commutes exactly with passing to it. -/

/-- The state with DEBUG_EN off and DBG empty. -/
def State.forgetDebug (s : State) : State := s.withDebug false []

/-- The same for the state in which calls go on or stop. -/
def Flow.forgetDebug : Flow → Flow
  | .go s => .go s.forgetDebug
  | .stop s => .stop s.forgetDebug

/-- The same for the next state of an outcome, if there is one. -/
def forgetDebugNext : Host.Outcome State Fault Refusal → Host.Outcome State Fault Refusal
  | .next s => .next s.forgetDebug
  | .fault r => .fault r
  | .refused r => .refused r

@[simp] theorem forgetDebug_txnOpen (s : State) : s.forgetDebug.txnOpen = s.txnOpen := rfl
@[simp] theorem forgetDebug_seq (s : State) : s.forgetDebug.seq = s.seq := rfl
@[simp] theorem forgetDebug_ctl (s : State) : s.forgetDebug.ctl = s.ctl := rfl
@[simp] theorem withDebug_forgetDebug (s : State) (en : Bool) (log : List String) :
    (s.withDebug en log).forgetDebug = s.forgetDebug := rfl

@[simp] theorem forgetDebugNext_idem (x : Host.Outcome State Fault Refusal) :
    forgetDebugNext (forgetDebugNext x) = forgetDebugNext x := by
  cases x <;> rfl

/-- Two outcomes differ in the debug state at most exactly when they are one outcome once it is forgotten (R122). -/
theorem sameButDebug_iff {x y : Host.Outcome State Fault Refusal} :
    SameButDebug x y ↔ forgetDebugNext x = forgetDebugNext y := by
  cases x <;> cases y <;> simp [SameButDebug, forgetDebugNext, State.forgetDebug]

/-! ### Notices and errors -/

/-- A notice is lost with the debug state: with DEBUG_EN off there is none, with DEBUG_EN on DBG alone has grown. -/
theorem notify_forgetDebug (e : Notice) (s : State) : s.forgetDebug.notify e = (s.notify e).forgetDebug := by
  unfold State.notify
  cases s.debugEn <;> rfl

theorem raiseError_forgetDebug (e : Response) (s : State) :
    raiseError e s.forgetDebug = (raiseError e s).forgetDebug := by
  cases ho : s.txnOpen <;> simp only [raiseError, forgetDebug_txnOpen, ho] <;> rfl

theorem loseImageOfSync_forgetDebug (s : State) :
    loseImageOfSync s.forgetDebug = (loseImageOfSync s).forgetDebug := by
  simp only [loseImageOfSync, forgetDebug_seq]
  split <;> rfl

theorem loseFrame_forgetDebug (s : State) : loseFrame s.forgetDebug = (loseFrame s).forgetDebug := by
  simp only [loseFrame, forgetDebug_ctl, forgetDebug_seq]
  split
  case h_3 | h_4 =>
    rw [apply_ite State.forgetDebug]
    rfl
  all_goals rfl

/-! ### The Transport calls and the frames -/

/-- Calls that do alike, and leave alike all but the debug state, when the debug state is forgotten. -/
def DebugBlind (f : State → Flow) : Prop := ∀ s, f s.forgetDebug = (f s).forgetDebug

theorem DebugBlind.andThen {f g : State → Flow} (hf : DebugBlind f) (hg : DebugBlind g) :
    DebugBlind fun s => (f s).andThen g := by
  intro s
  simp only [hf s]
  cases f s with
  | go t => exact hg t
  | stop t => rfl

theorem transportOpen_debugBlind : DebugBlind transportOpen := by
  intro s
  cases h : s.resultAhead 0
  · rw [transportOpen_ok h, transportOpen_ok (s := s.forgetDebug) h]
    rfl
  · rw [transportOpen_fail h, transportOpen_fail (s := s.forgetDebug) h]
    change Flow.stop (raiseError _ (loseImageOfSync (s.drawn.log _).forgetDebug)) = _
    rw [loseImageOfSync_forgetDebug, raiseError_forgetDebug]
    rfl

theorem transportWrite_debugBlind (b : Byte) (take : Nat → Controller → Controller) :
    DebugBlind (transportWrite b take) := by
  intro s
  cases h : s.resultAhead 0
  · rw [transportWrite_ok h, transportWrite_ok (s := s.forgetDebug) h]
    rfl
  · rw [transportWrite_fail h, transportWrite_fail (s := s.forgetDebug) h]
    change Flow.stop (raiseError _ (loseImageOfSync (loseFrame (s.drawn.log _).forgetDebug))) = _
    rw [loseFrame_forgetDebug, loseImageOfSync_forgetDebug, raiseError_forgetDebug]
    rfl

theorem writeAddress_debugBlind : DebugBlind writeAddress := fun s =>
  transportWrite_debugBlind (addressByte s.busAddr) _ s

theorem writePayloads_debugBlind (p : List Byte) : DebugBlind (writePayloads p) := by
  induction p with
  | nil => exact fun _ => rfl
  | cons b p ih => exact (transportWrite_debugBlind b _).andThen ih

/-- `send_stream` is its calls one after the other (R74). -/
theorem sendStream_debugBlind (kind : StreamKind) (p : List Byte) : DebugBlind (sendStream kind p) :=
  transportOpen_debugBlind.andThen
    (((writeAddress_debugBlind.andThen (transportWrite_debugBlind kind.controlByte _)).andThen
      (writePayloads_debugBlind p)).andThen fun _ => rfl)

theorem syncPage_debugBlind (pg : Nat) : DebugBlind (syncPage pg) :=
  (sendStream_debugBlind .command _).andThen fun t => sendStream_debugBlind .data (pageBytes t.fb pg) t

theorem syncPages_debugBlind (l : List Nat) : DebugBlind (syncPages l) := by
  induction l with
  | nil => exact fun _ => rfl
  | cons pg l ih => exact (syncPage_debugBlind pg).andThen ih

theorem DebugBlind.state {f : State → Flow} (hf : DebugBlind f) (s : State) :
    (f s.forgetDebug).state = (f s).state.forgetDebug := by
  rw [hf s]
  cases f s <;> rfl

/-! ### The operations of the host -/

/-- INIT's framebuffer of zeros is kept as one opaque value, its 1056 bytes playing no part. -/
theorem beginOp_forgetDebug (op : BusOp) (s : State) : beginOp op s.forgetDebug = (beginOp op s).forgetDebug := by
  cases op with
  | init a =>
    simp only [beginOp]
    generalize (Memory.tabulate fun _ => 0x00) = fb
    exact congrArg (startOp _) (notify_forgetDebug .init { s with mode := .uninitialized, busAddr := a, fb := fb })
  | stream kind p => rfl
  | _ => exact congrArg (startOp _) (notify_forgetDebug _ s)

theorem finishOp_forgetDebug (op : BusOp) (s : State) : finishOp op s.forgetDebug = (finishOp op s).forgetDebug := by
  cases op <;> rfl

/-- An operation from its notice to its response (R121, R155). -/
theorem DebugBlind.operation {f : State → Flow} (hf : DebugBlind f) (op : BusOp) (s : State) :
    (f (beginOp op s.forgetDebug)).finish (finishOp op) =
      ((f (beginOp op s)).finish (finishOp op)).forgetDebug := by
  rw [beginOp_forgetDebug, hf]
  cases f (beginOp op s) with
  | go t => exact finishOp_forgetDebug op t
  | stop t => rfl

theorem runOneFrame_forgetDebug (op : BusOp) (p : List Byte) (s : State) :
    runOneFrame op p s.forgetDebug = (runOneFrame op p s).forgetDebug :=
  (sendStream_debugBlind .command p).operation op s

theorem fillWith_forgetDebug (p : Byte) (s : State) : fillWith p s.forgetDebug = (fillWith p s).forgetDebug := by
  unfold fillWith
  generalize (Memory.tabulate fun _ => p) = fb
  exact congrArg (State.respond .ok) (notify_forgetDebug (.fill p) { s with fb := fb })

/-! ### The checks -/

theorem whenIdle_forgetDebug {s t t' : State} (ht : t' = t.forgetDebug) :
    whenIdle s.forgetDebug t' = forgetDebugNext (whenIdle s t) := by
  subst ht
  rw [whenIdle, whenIdle, apply_ite forgetDebugNext]
  rfl

theorem whenReady_forgetDebug {s t t' : State} (ht : t' = t.forgetDebug) :
    whenReady s.forgetDebug t' = (whenReady s t).forgetDebug := by
  subst ht
  rw [whenReady, whenReady, raiseError_forgetDebug, apply_ite State.forgetDebug]
  rfl

theorem whenIdle_whenReady_forgetDebug {s t t' : State} (ht : t' = t.forgetDebug) :
    whenIdle s.forgetDebug (whenReady s.forgetDebug t') = forgetDebugNext (whenIdle s (whenReady s t)) :=
  whenIdle_forgetDebug (whenReady_forgetDebug ht)

theorem whenFrameAllowed_forgetDebug (a : BusAddr) {s t t' : State} (ht : t' = t.forgetDebug) :
    whenFrameAllowed a s.forgetDebug t' = forgetDebugNext (whenFrameAllowed a s t) := by
  subst ht
  simp only [whenFrameAllowed, apply_ite forgetDebugNext]
  rfl

theorem whenByteAt_forgetDebug (rx : Rx) {s t t' : State} (ht : t' = t.forgetDebug) :
    whenByteAt rx s.forgetDebug t' = forgetDebugNext (whenByteAt rx s t) := by
  subst ht
  simp only [whenByteAt, apply_ite forgetDebugNext]
  rfl

theorem execInit_forgetDebug (a : BusAddr) (s : State) :
    execInit a s.forgetDebug = forgetDebugNext (execInit a s) := by
  rw [execInit, execInit, whenIdle_forgetDebug (runOneFrame_forgetDebug _ _ s), apply_ite forgetDebugNext]
  rfl

theorem execAddress_forgetDebug (a : BusAddr) (s : State) :
    execAddress a s.forgetDebug = forgetDebugNext (execAddress a s) := by
  rw [execAddress, execAddress, whenByteAt_forgetDebug _ (writeAddress_debugBlind.state s), apply_ite forgetDebugNext]
  rfl

/-! ### Non-interference (R122) -/

/-- Every instruction but SET_DEBUG, which writes DEBUG_EN, takes the state without debug state to its own outcome
without it. -/
theorem exec_forgetDebug {i : Instr} (hi : ∀ en, i ≠ .setDebug en) (s : State) :
    exec i s.forgetDebug = forgetDebugNext (exec i s) := by
  cases i with
  | setDebug en => exact absurd rfl (hi en)
  | init a => exact execInit_forgetDebug a s
  | setPower | setContrast | setPolarity => exact whenIdle_whenReady_forgetDebug (runOneFrame_forgetDebug _ _ s)
  | fill | clear => exact whenIdle_whenReady_forgetDebug (fillWith_forgetDebug _ s)
  | sync => exact whenIdle_whenReady_forgetDebug ((syncPages_debugBlind _).operation .sync s)
  | sendCmdStream a p | sendDataStream a p =>
    exact whenFrameAllowed_forgetDebug a ((sendStream_debugBlind _ p).state s)
  | address a => exact execAddress_forgetDebug a s
  | controlCmdStream | controlDataStream | data =>
    exact whenByteAt_forgetDebug _ ((transportWrite_debugBlind _ _).state s)
  | _ => exact whenByteAt_forgetDebug .command ((writePayloads_debugBlind _).state s)

/-- SET_DEBUG writes the same setting whatever the debug state was. -/
theorem forgetDebugNext_execSetDebug (en : Bool) (s : State) :
    forgetDebugNext (execSetDebug en s.forgetDebug) = forgetDebugNext (execSetDebug en s) := by
  by_cases hs : s.seq = .idle
  · rw [execSetDebug, execSetDebug, whenIdle_idle _ hs, whenIdle_idle (s := s.forgetDebug) _ hs]
    rfl
  · rw [execSetDebug, execSetDebug, whenIdle_busy _ hs, whenIdle_busy (s := s.forgetDebug) _ hs]

/-- Running from the state without debug state makes no difference but in the debug state. -/
theorem forgetDebugNext_exec (i : Instr) (s : State) :
    forgetDebugNext (exec i s.forgetDebug) = forgetDebugNext (exec i s) := by
  by_cases hi : ∃ en, i = .setDebug en
  · obtain ⟨en, rfl⟩ := hi
    exact forgetDebugNext_execSetDebug en s
  · rw [exec_forgetDebug (not_exists.1 hi), forgetDebugNext_idem]

/-- Settles O30: the two states are one state once their debug state is forgotten. -/
theorem debugNonInterference : Obligations.DebugNonInterference := by
  intro i s en log
  refine sameButDebug_iff.2 ?_
  calc forgetDebugNext (exec i s)
      = forgetDebugNext (exec i s.forgetDebug) := (forgetDebugNext_exec i s).symm
    _ = forgetDebugNext (exec i (s.withDebug en log).forgetDebug) := by rw [withDebug_forgetDebug]
    _ = forgetDebugNext (exec i (s.withDebug en log)) := forgetDebugNext_exec i _

end Sys2Proof.Machine

/-! SUPPORT. The commands and bytes of a frame, delivered (46_controller_commands.md R125 to R148): in its own place an
instruction of layer C writes its bytes, and the controller has taken them as the command or byte they are. -/

namespace Sys2Proof.Machine

/-! ### What the controller has taken -/

/-- The two-byte commands are opaque (R148). -/
theorem obey_of_decodeTwoByte {b d : Byte} {i : Instr} (h : decodeTwoByte b d = some i) (c : Controller) :
    c.obey i = c := by
  unfold decodeTwoByte at h
  repeat' (split at h; · cases h; rfl)
  cases h

/-- The bytes of a command, taken where a command may stand, are that command obeyed; the data byte of a two-byte
command is no command of its own (R57). -/
theorem takePayloads_commandCode {i : Instr} {w : List Byte} (h : CommandCode i w) (n : Nat) {c : Controller}
    (hc : c.rx = .command) : Controller.takePayloads n w c = c.obey i := by
  cases h with
  | oneByte h =>
    obtain ⟨hopener, -⟩ := opener_and_encode_of_decodeOneByte h
    exact takePayload_command n hc hopener h
  | @twoByte b d _ h =>
    obtain ⟨hopener, -⟩ := opener_and_encode_of_decodeTwoByte h
    calc Controller.takePayloads n [b, d] c
        = (c.takePayload n b).takePayload (n + 1) d := rfl
      _ = { c with rx := .command } := by rw [takePayload_opener n hc hopener, takePayload_operand _ _ rfl]
      _ = c := by rw [← hc]
      _ = c.obey i := (obey_of_decodeTwoByte h c).symm

theorem cramRead_write (c : Controller) (pg col : Nat) (b : Byte) :
    { c with cram := c.cram.write (index pg col) b }.cramRead pg col = b := by
  rw [Controller.cramRead, Memory.read_write_same, Option.getD_some]

/-! ### A data byte past column 131, field by field (R38) -/

theorem overflow_cpage (n : Nat) (c : Controller) : (c.overflow n).cpage = c.cpage := by rw [Controller.overflow]

theorem overflow_rx (n : Nat) (c : Controller) : (c.overflow n).rx = c.rx := by rw [Controller.overflow]

theorem overflow_ccol (n : Nat) (c : Controller) : (c.overflow n).ccol = Config.overflowColumn n := by
  rw [Controller.overflow]

theorem overflow_cram_read (n : Nat) (c : Controller) {i : Nat} (hi : i ≤ 1055) :
    (c.overflow n).cram.read i = some (Config.overflowByte n i) := by
  have hlt : i < Config.fbSize := Nat.lt_succ_of_le hi
  rw [Controller.overflow, Memory.read_tabulate, if_pos hlt]

/-! ### One instruction of layer C, every result Ok -/

theorem allOk_one {s : State} (hok : s.resultAhead 0 = .ok) : s.allOk 1 := allOk_succ.2 ⟨hok, allOk_zero⟩

section Delivered

variable {s : State} (ho : s.txnOpen = true)
include ho

/-- Inside a transaction, calls made in their own place of the frame that go on end the instruction where they stand. -/
theorem whenByteAt_of_go {rx : Rx} {t : State} {x : Flow} (hx : s.ctl.rx = rx) (h : x = .go t) :
    whenByteAt rx s x.state = .next t :=
  whenByteAt_eq_next.2 ⟨ho, hx, by rw [h, go_state]⟩

theorem exec_address_ok (hx : s.ctl.rx = .off) (hok : s.resultAhead 0 = .ok) :
    exec (.address s.busAddr) s = .next (s.afterBytes [addressByte s.busAddr] s.ctl.takeAddress) :=
  (execAddress_eq_whenByteAt fun _ => rfl).trans (whenByteAt_of_go ho hx (transportWrite_ok hok))

theorem exec_data_ok (d : Byte) (hx : s.ctl.rx = .data) (hok : s.resultAhead 0 = .ok) :
    exec (.data d) s = .next (s.afterBytes [d] (s.ctl.takePayload s.calls d)) :=
  whenByteAt_of_go ho hx (transportWrite_ok hok)

/-- A command writes the bytes it is encoded as, and the controller has obeyed it. -/
theorem exec_command_ok {i : Instr} {w : List Byte} (hcode : encode i = .command w) (hx : s.ctl.rx = .command)
    (hok : s.allOk w.length) : exec i s = .next (s.afterBytes w (s.ctl.obey i)) := by
  have hcommand : CommandCode i w := commandCode_iff.2 hcode
  have hexec : exec i s = writeCommand w s := by
    cases hcommand with
    | oneByte h => exact exec_oneByte h s
    | twoByte h => exact exec_twoByte h s
  rw [hexec, ← takePayloads_commandCode hcommand s.calls hx]
  exact whenByteAt_of_go ho hx (writePayloads_ok w hok)

/-- An opaque command writes its bytes and has moved nothing (R148). -/
theorem exec_opaque_ok {i : Instr} {w : List Byte} (hcode : encode i = .command w) (hobey : s.ctl.obey i = s.ctl)
    (hx : s.ctl.rx = .command) (hok : s.allOk w.length) : exec i s = .next (s.afterBytes w s.ctl) := by
  rw [exec_command_ok ho hcode hx hok, hobey]

end Delivered

/-- Settles O34: each header byte is one write, behind the check of its own place. -/
theorem headerBytesComplete : Obligations.HeaderBytesComplete := fun _ ho hok =>
  ⟨fun hx => exec_address_ok ho hx hok,
    fun hx => ⟨whenByteAt_of_go ho hx (transportWrite_ok hok), whenByteAt_of_go ho hx (transportWrite_ok hok)⟩⟩

/-- Settles O35: the three commands are obeyed, and what obeying them does to the cursor is their definition. -/
theorem addressingCommandsComplete : Obligations.AddressingCommandsComplete := by
  intro s ho hx hok
  exact ⟨fun _ => exec_command_ok ho rfl hx (allOk_one hok), fun _ => exec_command_ok ho rfl hx (allOk_one hok),
    fun _ => exec_command_ok ho rfl hx (allOk_one hok)⟩

/-- Settles O36: the byte is taken as a pixel, past the 132 columns or inside them. -/
theorem dataByteCompletes : Obligations.DataByteCompletes := by
  intro d s ho hx hok
  refine ⟨_, exec_data_ok ho d hx hok, ?_⟩
  obtain hpast | hin := Nat.lt_or_ge 131 s.ctl.ccol.toNat
  · rw [takePayload_past s.calls d hx hpast]
    exact ⟨overflow_cpage _ _, (overflow_rx _ _).trans hx, fun hin => absurd hin (Nat.not_le.2 hpast),
      fun _ => ⟨overflow_ccol _ _, fun _ => overflow_cram_read _ _⟩⟩
  · rw [takePayload_pixel s.calls d hx hin]
    exact ⟨rfl, hx, fun _ => ⟨rfl, cramRead_write s.ctl _ _ d, fun _ => Memory.read_write_other _ d⟩,
      fun hpast => absurd hin (Nat.not_le.2 hpast)⟩

/-- Settles O37: each of the eight is opaque, and its byte is its code. -/
theorem oneByteOpaqueComplete : Obligations.OneByteOpaqueComplete := by
  intro s ho hx hok
  refine ⟨?_, ?_, ?_, ?_, fun _ => ?_, ?_, ?_, ?_⟩ <;> exact exec_opaque_ok ho rfl rfl hx (allOk_one hok)

/-- Settles O38: each of the eight is opaque whatever its data byte, and opener and data byte are its code. -/
theorem twoByteOpaqueComplete : Obligations.TwoByteOpaqueComplete := by
  intro d s ho hx hok
  refine ⟨?_, ?_, ?_, ?_, ?_, ?_, ?_, ?_⟩ <;> exact exec_opaque_ok ho rfl rfl hx hok

end Sys2Proof.Machine

/-! SUPPORT. Responses and refusals (60_exceptions.md, 70_reset_and_hazards.md): the one response of each host operation
(R155, R156), the block waiting with SEQ Idle (R175), and the inputs that have no meaning, which alone stop a step that
starts in the invariant (R173). -/

namespace Sys2Proof.Machine

/-! ### The response of a host operation (R155, R156) -/

/-- An operation of transport calls answers OK after its last call, or TRANSPORT_ERROR where a call failed (R155). -/
theorem finish_responses {op : BusOp} (hop : ∀ kind p, op ≠ .stream kind p) {s : State} {x : Flow}
    (hx : x.Tame (beginOp op s)) :
    ∃ r, (x.finish (finishOp op)).responses = s.responses ++ [r] ∧ r ≠ .configurationError := by
  obtain ⟨-, hbegin, -⟩ := beginOp_calls op s
  cases x with
  | go t =>
    obtain ⟨-, hcalls⟩ := hx
    refine ⟨.ok, ?_, by decide⟩
    rw [← hbegin, ← hcalls]
    cases op with
    | stream kind p => exact absurd rfl (hop kind p)
    | _ => rfl
  | stop t => exact ⟨.transportError, by rw [← hbegin]; exact hx.responses, by decide⟩

theorem fillWith_responses (p : Byte) (s : State) : (fillWith p s).responses = s.responses ++ [.ok] := by
  rw [fillWith_eq]

/-- A checked operation is its work behind the two checks; the work's one response is never CONFIGURATION_ERROR, and
FILL and CLEAR, which make no call, do not answer TRANSPORT_ERROR (R156, R157). -/
theorem exec_checked {i : Instr} (hi : isChecked i = true) (s : State) :
    ∃ t, exec i s = whenIdle s (whenReady s t) ∧ ∃ r, t.responses = s.responses ++ [r] ∧ r ≠ .configurationError ∧
      (r = .transportError → i ≠ .clear ∧ ∀ p, i ≠ .fill p) := by
  cases i with
  | setPower | setContrast | setPolarity =>
    refine ⟨_, rfl, ?_⟩
    exact (finish_responses (by simp) (sendStream_tame _ _ _)).imp fun _ h => ⟨h.1, h.2, by simp⟩
  | sync =>
    refine ⟨_, rfl, ?_⟩
    exact (finish_responses (by simp) (syncPages_tame _ _)).imp fun _ h => ⟨h.1, h.2, by simp⟩
  | fill | clear => exact ⟨_, rfl, .ok, fillWith_responses _ s, by decide, nofun⟩
  | _ => cases hi

/-- The host operations without the check of R156 are INIT and SET_DEBUG. -/
theorem unchecked_cases {i : Instr} (hi : isHostOp i = true) (hc : ¬ isChecked i = true) :
    (∃ a, i = .init a) ∨ ∃ en, i = .setDebug en := by
  cases i with
  | init a => exact .inl ⟨a, rfl⟩
  | setDebug en => exact .inr ⟨en, rfl⟩
  | setPower | setContrast | setPolarity | fill | sync | clear => exact absurd rfl hc
  | _ => cases hi

/-- INIT answers OK or TRANSPORT_ERROR, SET_DEBUG always OK (R120, R155). -/
theorem exec_unchecked_responses {i : Instr} {s t : State} (hi : (∃ a, i = .init a) ∨ ∃ en, i = .setDebug en)
    (h : exec i s = .next t) :
    ∃ r, t.responses = s.responses ++ [r] ∧ r ≠ .configurationError ∧
      (r = .transportError → ∀ en, i ≠ .setDebug en) := by
  rcases hi with ⟨a, rfl⟩ | ⟨en, rfl⟩
  · obtain ⟨-, -, ⟨-, hresp⟩ | ⟨-, hresp⟩⟩ := initModes a s t h
    · exact ⟨.ok, hresp, by decide, nofun⟩
    · exact ⟨.transportError, hresp, by decide, by simp⟩
  · obtain ⟨-, rfl⟩ := whenIdle_eq_next.1 h
    exact ⟨.ok, rfl, by decide, nofun⟩

/-- Settles O41: a checked operation answers by MODE, CONFIGURATION_ERROR or what its work answers; the two others answer
in either mode what their work does. -/
theorem oneResponsePerOperation : Obligations.OneResponsePerOperation := by
  intro i s t hi h
  have hseq : t.seq = .idle := exec_hostOp_seq hi h
  by_cases hc : isChecked i = true
  · have hdebug : ∀ en, i ≠ .setDebug en := by
      rintro en rfl
      cases hc
    obtain ⟨u, hexec, r, hresp, hr, hfill⟩ := exec_checked hc s
    obtain ⟨-, rfl⟩ := whenIdle_eq_next.1 (hexec.symm.trans h)
    cases hm : s.mode with
    | uninitialized =>
      rw [whenReady_uninitialized _ hm]
      exact ⟨.configurationError, raiseError_responses _ s, raiseError_seq _ s, by simp [hc], nofun⟩
    | ready =>
      rw [whenReady_ready _ hm] at hseq ⊢
      exact ⟨r, hresp, hseq, by simp [hr], fun ht => ⟨(hfill ht).1, (hfill ht).2, hdebug⟩⟩
  · have hcases := unchecked_cases hi hc
    have hfill : i ≠ .clear ∧ ∀ p, i ≠ .fill p := by
      rcases hcases with ⟨a, rfl⟩ | ⟨en, rfl⟩ <;> simp
    obtain ⟨r, hresp, hr, hdebug⟩ := exec_unchecked_responses hcases h
    exact ⟨r, hresp, hseq, by simp [hr, hc], fun ht => ⟨hfill.1, hfill.2, hdebug ht⟩⟩

/-- Settles O23: before INIT the check of R156 ends a checked operation before its work; the two operations without the
check have no other way to that response. -/
theorem configurationErrorBeforeInit : Obligations.ConfigurationErrorBeforeInit := by
  refine ⟨fun i s hc hs ho hm => ?_, fun i s t hi h hconf => ?_⟩
  · obtain ⟨t, hexec, -⟩ := exec_checked hc s
    rw [hexec, whenIdle_whenReady_unready t hs ho hm]
  · obtain ⟨r, hresp, hr, -⟩ := exec_unchecked_responses hi h
    exact hr (by simpa using hresp.symm.trans hconf)

/-! ### With SEQ Idle: waiting, serving and refusing (R173, R175) -/

/-- Settles O10: with no input left nothing is fetched. -/
theorem waitsForRequest : Obligations.WaitsForRequest := by
  intro s hs hreq
  have hfetch : fetch s = .waiting := by simp only [fetch, hs, hreq, fetchInput]
  simp only [step, hfetch]

/-- The inputs that have no meaning in a state, each with the name it is refused by (R173; the last is the model's
choice, log entry 16). -/
inductive Meaningless (s : State) : Input → Refusal → Prop where
  | reserved {w : Request} (hdec : decode (.request w) = .error .reservedRequest) :
      Meaningless s (.request w) .reservedRequest
  | otherAddress {w : Request} {a : BusAddr} (hdec : decode (.request w) = .ok (.init a)) (hm : s.mode = .ready)
      (ha : a ≠ s.busAddr) : Meaningless s (.request w) .addressImmutable
  | outOfRange {i : BitVec 11} {b : Byte} (hport : s.fbWritePort = true) (hi : 1055 < i.toNat) :
      Meaningless s (.fbWrite i b) .fbIndexOutOfRange
  | noPort {i : BitVec 11} {b : Byte} (hport : s.fbWritePort = false) : Meaningless s (.fbWrite i b) .noWritePort

/-- With SEQ Idle a host operation is served, unless it is INIT in Ready with another address (R89). -/
theorem exec_hostOp_idle {i : Instr} {s : State} (hi : isHostOp i = true) (hs : s.seq = .idle) :
    (∃ t, exec i s = .next t) ∨
      ∃ a, i = .init a ∧ s.mode = .ready ∧ a ≠ s.busAddr ∧ exec i s = .refused .addressImmutable := by
  by_cases hc : isChecked i = true
  · obtain ⟨t, hexec, -⟩ := exec_checked hc s
    exact .inl ⟨_, hexec.trans (whenIdle_idle _ hs)⟩
  · rcases unchecked_cases hi hc with ⟨a, rfl⟩ | ⟨en, rfl⟩
    · by_cases ha : s.busAddr = a
      · exact .inl ⟨_, execInit_served hs (.inr ha)⟩
      · cases hm : s.mode with
        | uninitialized => exact .inl ⟨_, execInit_served hs (.inl hm)⟩
        | ready => exact .inr ⟨a, rfl, rfl, Ne.symm ha, initOtherAddressRefused a s hs hm ha⟩
    · exact .inl ⟨_, whenIdle_idle _ hs⟩

theorem externalWrite_noPort {s : State} (i : BitVec 11) (b : Byte) (hport : s.fbWritePort = false) :
    externalWrite i b s = .refused .noWritePort := by
  simp [externalWrite, hport]

/-- Where the port is fitted a byte of the framebuffer is written, or CONFIGURATION_ERROR is answered (R107). -/
theorem externalWrite_served {s : State} {i : BitVec 11} (b : Byte) (hs : s.seq = .idle) (hport : s.fbWritePort = true)
    (hi : i.toNat ≤ 1055) : ∃ t, externalWrite i b s = .next t :=
  ⟨_, (externalWrite_inRange b hport hi).trans (whenIdle_idle _ hs)⟩

/-- With SEQ Idle a step goes on, unless the host's next input has no meaning; then it is refused by name. -/
theorem step_idle_cases {s : State} (hs : s.seq = .idle) :
    (∃ t, step s = .next t) ∨
      ∃ x rest r, s.requests = x :: rest ∧ Meaningless s x r ∧ step s = .refused r := by
  cases hreq : s.requests with
  | nil => exact .inl ⟨s, waitsForRequest s hs hreq⟩
  | cons x rest =>
    cases x with
    | request w =>
      cases hdec : decode (.request w) with
      | error e =>
        obtain rfl := decode_request_error hdec
        exact .inr ⟨_, _, _, rfl, .reserved hdec, reservedRequestsRefused.2 s w rest hs hreq hdec⟩
      | ok i =>
        rw [stepRunsRequest s w rest i hs hreq hdec]
        rcases exec_hostOp_idle (s := { s with requests := rest }) (isHostOp_of_decode_request hdec) hs with
          hnext | ⟨a, rfl, hm, ha, hrefused⟩
        · exact .inl hnext
        · exact .inr ⟨_, _, _, rfl, .otherAddress hdec hm ha, hrefused⟩
    | fbWrite i b =>
      have hstep := step_fbWrite hs hreq
      cases hport : s.fbWritePort with
      | false => exact .inr ⟨_, _, _, rfl, .noPort hport, hstep.trans (externalWrite_noPort i b hport)⟩
      | true =>
        obtain hi | hi := Nat.lt_or_ge 1055 i.toNat
        · exact .inr ⟨_, _, _, rfl, .outOfRange hport hi, hstep.trans (externalWrite_outOfRange b hport hi)⟩
        · rw [hstep]
          exact .inl (externalWrite_served b hs hport hi)

/-! ### While an operation is under way -/

/-- Under the invariant a running operation always has a next call: SEQ's position, TXN_OPEN and the controller's place
agree (R15, R16). -/
theorem step_running_next {op : BusOp} {f k : Nat} {s : State} (h : s.Inv) (hs : s.seq = .running op f k) :
    ∃ t, step s = .next t := by
  obtain ⟨hf, -, htxn, hrx, -⟩ := h.placed_running hs
  match k with
  | 0 =>
    cases op with
    | stream kind p => exact ⟨_, step_primitive hs hf htxn⟩
    | _ => exact ⟨_, step_open hs hf (by simp) htxn⟩
  | 1 => exact ⟨_, step_address hs hf htxn hrx⟩
  | 2 => exact ⟨_, step_control hs hf rfl htxn hrx⟩
  | j + 3 =>
    by_cases hp : (op.frame s.fb f).2.drop j = []
    · exact ⟨_, step_close hs hf hp htxn⟩
    · obtain ⟨bs, rest, -, -, hstep⟩ := step_payload hs hf hp htxn hrx
      exact ⟨_, hstep⟩

/-- Under the invariant a step goes on, or SEQ is Idle and the host's next input has no meaning (R173). -/
theorem step_cases_of_inv {s : State} (h : s.Inv) :
    (∃ t, step s = .next t) ∨
      s.seq = .idle ∧ ∃ x rest r, s.requests = x :: rest ∧ Meaningless s x r ∧ step s = .refused r := by
  cases hs : s.seq with
  | idle => exact (step_idle_cases hs).imp_right fun hrefused => ⟨rfl, hrefused⟩
  | running op f k => exact .inl (step_running_next h hs)

/-- Settles O48: under the invariant a running operation always goes on, and with SEQ Idle only an input without a
meaning stops the step, by the name that says why. -/
theorem noFaultUnderInvariant : Obligations.NoFaultUnderInvariant := by
  intro s h
  obtain ⟨t, hnext⟩ | ⟨hs, x, rest, r, hreq, hmeaningless, hrefused⟩ := step_cases_of_inv h
  · rw [hnext]
    exact ⟨nofun, nofun⟩
  · rw [hrefused]
    refine ⟨nofun, ?_⟩
    rintro _ ⟨⟩
    refine ⟨hs, x, rest, hreq, ?_⟩
    cases hmeaningless with
    | reserved hdec => exact .inl ⟨rfl, _, rfl, hdec⟩
    | otherAddress hdec hm ha => exact .inr (.inl ⟨rfl, hm, _, _, rfl, hdec, ha⟩)
    | outOfRange hport hi => exact .inr (.inr (.inl ⟨rfl, hport, _, _, rfl, hi⟩))
    | noPort hport => exact .inr (.inr (.inr ⟨rfl, hport, _, _, rfl⟩))

end Sys2Proof.Machine
